-- ==== Sys2Proof/Word.lean ====
section
/-! DEFINITION. The word types of the block, and the number of 1 bits of a byte.
Bit 0 is the least significant bit of every value and no value is signed (00_scope.md R9). -/

namespace Sys2Proof

/-- Eight bits: a character, an instruction byte, an `imm` field (00_scope.md R9). -/
abbrev Byte := BitVec 8

/-- Four bits: half of a byte, what one enable pulse moves (20_memory.md R60). -/
abbrev Nibble := BitVec 4

/-- A command word of format H (30_encoding.md R71). -/
abbrev Word := BitVec 16

/-- An LCD-bus instruction of format L, the nine bits `{mode, byte}` (30_encoding.md R81). -/
abbrev LcdWord := BitVec 9

/-- Twenty bytes, index 0 the leftmost: the text lanes and the line buffer (20_memory.md R51, R52). -/
abbrev Row := Vector Byte 20

end Sys2Proof
end

