-- ==== Sys2Proof/Syntax.lean ====
section
/-! DEFINITION. The instructions: the ten host commands of format H (30_encoding.md R72) and the nine LCD-bus
instructions of format L (30_encoding.md R82), one constructor for each row of spec/opcode_table.json. -/

namespace Sys2Proof

/-- The mode of an LCD-bus instruction (00_scope.md glossary; 30_encoding.md R81). -/
inductive Mode where
  | command
  | data
  deriving DecidableEq, Repr

/-- The justification operand of `RENDER`, the code that names no variant among them (30_encoding.md R76). -/
inductive Justify where
  | noVariant
  | left
  | center
  | right
  deriving DecidableEq, Repr

/-- One instruction. `RENDER`'s text operand is not part of its word: it stands in the command latch
(30_encoding.md R73, R77). -/
inductive Instr where
  /-- `CONSTRUCT` (42_init_release.md R135) -/
  | construct
  /-- `XMIT b, m` (41_transmit.md R128) -/
  | xmit (m : Mode) (b : Byte)
  /-- `CLEAR` (43_display_control.md R150) -/
  | clear
  /-- `HOME` (43_display_control.md R151) -/
  | home
  /-- `SET_BACKLIGHT v` (43_display_control.md R154) -/
  | setBacklight (v : Bool)
  /-- `SET_CURSOR v` (43_display_control.md R155) -/
  | setCursor (v : Bool)
  /-- `SET_BLINK v` (43_display_control.md R156) -/
  | setBlink (v : Bool)
  /-- `SET_DISPLAY v` (43_display_control.md R157) -/
  | setDisplay (v : Bool)
  /-- `RENDER text, line, justify` (44_text_render.md R170) -/
  | render (j : Justify) (line : Byte)
  /-- `RELEASE` (42_init_release.md R143) -/
  | release
  /-- `L.RESET33` (30_encoding.md R87) -/
  | lReset33
  /-- `L.RESET32` (30_encoding.md R87) -/
  | lReset32
  /-- `L.FUNCSET`, bits w n f (30_encoding.md R83) -/
  | lFuncset (w n f : Bool)
  /-- `L.DISPCTL`, bits d c b (30_encoding.md R84) -/
  | lDispctl (d c b : Bool)
  /-- `L.ENTRY`, bits i s (30_encoding.md R85) -/
  | lEntry (i s : Bool)
  /-- `L.CLEAR` (30_encoding.md R87) -/
  | lClear
  /-- `L.HOME` (30_encoding.md R87) -/
  | lHome
  /-- `L.SETDDRAM`, the address proper (30_encoding.md R86) -/
  | lSetddram (a : BitVec 7)
  /-- `L.DATA`, one character code (30_encoding.md R82) -/
  | lData (c : Byte)
  deriving DecidableEq, Repr

end Sys2Proof
end

