-- ==== Sys2Proof/WellFormed.lean ====
section
/-! DEFINITION. Which instructions are well formed. The operand types already hold every bound of the encodings,
so one check is left: of the 128 set-address instructions the block has only the four line addresses
(20_memory.md R54; 30_encoding.md R82). -/

namespace Sys2Proof

/-- The four DDRAM addresses proper of the rows, value & 0x7F (20_memory.md R54). -/
def ddramRows : List (BitVec 7) := [0x00#7, 0x40#7, 0x14#7, 0x54#7]

/-- The check. A `RENDER` with a bad line or a code that names no variant is a legal word whose operands fail
validation when it runs (30_encoding.md R75), so it is well formed. -/
def Instr.wellFormed : Instr → Bool
  | .construct => true
  | .xmit _ _ => true
  | .clear => true
  | .home => true
  | .setBacklight _ => true
  | .setCursor _ => true
  | .setBlink _ => true
  | .setDisplay _ => true
  | .render _ _ => true
  | .release => true
  | .lReset33 => true
  | .lReset32 => true
  | .lFuncset _ _ _ => true
  | .lDispctl _ _ _ => true
  | .lEntry _ _ => true
  | .lClear => true
  | .lHome => true
  | .lSetddram a => ddramRows.contains a
  | .lData _ => true

end Sys2Proof
end

