-- ==== Sys2Proof/Decode.lean ====
section
/-! DEFINITION. The decoder of both formats, total on every word and rejecting by name, and after it the encoder.
Format H: 30_encoding.md R71 to R76, R90. Format L: 30_encoding.md R81 to R87. The two formats never meet on a wire:
a format H word stands on the command port and a format L pair goes to the transmitter, so an encoded instruction
says which of the two it is. -/

namespace Sys2Proof

/-- An encoded instruction: a command word, or the nine bits `{mode, byte}`. -/
inductive Encoded where
  | host (w : Word)
  | lcd (w : LcdWord)
  deriving DecidableEq, Repr

/-- Why a word is no instruction. On the command port each of the first two is answered VALIDATION, ILLEGAL_OP
(30_encoding.md R75). -/
inductive DecodeError where
  /-- `op` is 0x0, 0xB, 0xC, 0xD, 0xE or 0xF (30_encoding.md R75) -/
  | unknownOp
  /-- a reserved bit is set (30_encoding.md R74) -/
  | reservedBit
  /-- nine bits that are no row of 30_encoding.md R82; the transmitter sends them all the same (41_transmit.md R122) -/
  | noLcdRow
  deriving DecidableEq, Repr

/-! ### Fields -/

/-- The mode bit: 0 Command, 1 Data (30_encoding.md R73, R81). -/
def Mode.ofBit (b : Bool) : Mode := if b then .data else .command

def Mode.bit : Mode → Bool
  | .command => false
  | .data => true

/-- The justification codes (30_encoding.md R76). -/
def Justify.ofCode (c : BitVec 2) : Justify :=
  if c = 1#2 then .left else if c = 2#2 then .center else if c = 3#2 then .right else .noVariant

def Justify.code : Justify → BitVec 2
  | .noVariant => 0#2
  | .left => 1#2
  | .center => 2#2
  | .right => 3#2

/-- Bits 15:12 (30_encoding.md R71). -/
def opField (w : Word) : BitVec 4 := w.extractLsb' 12 4

/-- Bits 11:8 (30_encoding.md R71). -/
def auxField (w : Word) : BitVec 4 := w.extractLsb' 8 4

/-- Bits 7:0 (30_encoding.md R71). -/
def immField (w : Word) : Byte := w.extractLsb' 0 8

/-! ### Format H -/

/-- A command whose bits 11:0 are all reserved (30_encoding.md R72, R74). -/
def decodeBare (w : Word) (i : Instr) : Except DecodeError Instr :=
  if auxField w = 0#4 ∧ immField w = 0#8 then .ok i else .error .reservedBit

/-- A command with one boolean in bit 0, bits 11:1 reserved (30_encoding.md R72 to R74). -/
def decodeBoolean (w : Word) (i : Bool → Instr) : Except DecodeError Instr :=
  if auxField w = 0#4 ∧ (immField w).extractLsb' 1 7 = 0#7 then .ok (i ((immField w).getLsbD 0))
  else .error .reservedBit

/-- `XMIT`: mode in bit 8, byte in bits 7:0, bits 11:9 reserved (30_encoding.md R72 to R74). -/
def decodeXmit (w : Word) : Except DecodeError Instr :=
  if (auxField w).extractLsb' 1 3 = 0#3 then .ok (.xmit (Mode.ofBit ((auxField w).getLsbD 0)) (immField w))
  else .error .reservedBit

/-- `RENDER`: justification in bits 9:8, line in bits 7:0, bits 11:10 reserved (30_encoding.md R72 to R74). -/
def decodeRender (w : Word) : Except DecodeError Instr :=
  if (auxField w).extractLsb' 2 2 = 0#2 then
    .ok (.render (Justify.ofCode ((auxField w).extractLsb' 0 2)) (immField w))
  else .error .reservedBit

/-- A command word: first `op`, then the reserved bits of that `op` (30_encoding.md R72, R90). -/
def decodeHost (w : Word) : Except DecodeError Instr :=
  if opField w = 0x1#4 then decodeBare w .construct
  else if opField w = 0x2#4 then decodeXmit w
  else if opField w = 0x3#4 then decodeBare w .clear
  else if opField w = 0x4#4 then decodeBare w .home
  else if opField w = 0x5#4 then decodeBoolean w .setBacklight
  else if opField w = 0x6#4 then decodeBoolean w .setCursor
  else if opField w = 0x7#4 then decodeBoolean w .setBlink
  else if opField w = 0x8#4 then decodeBoolean w .setDisplay
  else if opField w = 0x9#4 then decodeRender w
  else if opField w = 0xA#4 then decodeBare w .release
  else .error .unknownOp

/-! ### Format L -/

/-- The nine bits `{mode, byte}` by the patterns of 30_encoding.md R82. -/
def decodeLcd (w : LcdWord) : Except DecodeError Instr :=
  if w.getLsbD 8 then .ok (.lData (w.extractLsb' 0 8))
  else if w.getLsbD 7 then .ok (.lSetddram (w.extractLsb' 0 7))
  else if w = 0b000110011#9 then .ok .lReset33
  else if w = 0b000110010#9 then .ok .lReset32
  else if w.extractLsb' 5 4 = 0b0001#4 ∧ w.extractLsb' 0 2 = 0#2 then
    .ok (.lFuncset (w.getLsbD 4) (w.getLsbD 3) (w.getLsbD 2))
  else if w.extractLsb' 3 6 = 0b000001#6 then .ok (.lDispctl (w.getLsbD 2) (w.getLsbD 1) (w.getLsbD 0))
  else if w.extractLsb' 2 7 = 0b0000001#7 then .ok (.lEntry (w.getLsbD 1) (w.getLsbD 0))
  else if w = 0b000000001#9 then .ok .lClear
  else if w = 0b000000010#9 then .ok .lHome
  else .error .noLcdRow

/-- The decoder. -/
def decode : Encoded → Except DecodeError Instr
  | .host w => decodeHost w
  | .lcd w => decodeLcd w

/-! ### The encoder -/

/-- The words of an instruction, from the pattern strings of 30_encoding.md R72 and R82. -/
def encode : Instr → Encoded
  | .construct => .host 0b0001000000000000#16
  | .xmit m b => .host (0b0010000#7 ++ BitVec.ofBool m.bit ++ b)
  | .clear => .host 0b0011000000000000#16
  | .home => .host 0b0100000000000000#16
  | .setBacklight v => .host (0b010100000000000#15 ++ BitVec.ofBool v)
  | .setCursor v => .host (0b011000000000000#15 ++ BitVec.ofBool v)
  | .setBlink v => .host (0b011100000000000#15 ++ BitVec.ofBool v)
  | .setDisplay v => .host (0b100000000000000#15 ++ BitVec.ofBool v)
  | .render j line => .host (0b100100#6 ++ j.code ++ line)
  | .release => .host 0b1010000000000000#16
  | .lReset33 => .lcd 0b000110011#9
  | .lReset32 => .lcd 0b000110010#9
  | .lFuncset w n f => .lcd (0b0001#4 ++ BitVec.ofBool w ++ BitVec.ofBool n ++ BitVec.ofBool f ++ 0b00#2)
  | .lDispctl d c b => .lcd (0b000001#6 ++ BitVec.ofBool d ++ BitVec.ofBool c ++ BitVec.ofBool b)
  | .lEntry i s => .lcd (0b0000001#7 ++ BitVec.ofBool i ++ BitVec.ofBool s)
  | .lClear => .lcd 0b000000001#9
  | .lHome => .lcd 0b000000010#9
  | .lSetddram a => .lcd (0b01#2 ++ a)
  | .lData c => .lcd (0b1#1 ++ c)

/-! ### Written names -/

/-- The mnemonic of an instruction (30_encoding.md R72, R82, R91). -/
def Instr.mnemonic : Instr → String
  | .construct => "CONSTRUCT"
  | .xmit _ _ => "XMIT"
  | .clear => "CLEAR"
  | .home => "HOME"
  | .setBacklight _ => "SET_BACKLIGHT"
  | .setCursor _ => "SET_CURSOR"
  | .setBlink _ => "SET_BLINK"
  | .setDisplay _ => "SET_DISPLAY"
  | .render _ _ => "RENDER"
  | .release => "RELEASE"
  | .lReset33 => "L.RESET33"
  | .lReset32 => "L.RESET32"
  | .lFuncset _ _ _ => "L.FUNCSET"
  | .lDispctl _ _ _ => "L.DISPCTL"
  | .lEntry _ _ => "L.ENTRY"
  | .lClear => "L.CLEAR"
  | .lHome => "L.HOME"
  | .lSetddram _ => "L.SETDDRAM"
  | .lData _ => "L.DATA"

/-- The pseudo-commands, each standing for exactly one command (30_encoding.md R92). -/
def pseudoCommands : List (String × Instr) :=
  [("BACKLIGHT_ON", .setBacklight true), ("BACKLIGHT_OFF", .setBacklight false), ("CURSOR_ON", .setCursor true),
   ("CURSOR_OFF", .setCursor false), ("BLINK_ON", .setBlink true), ("BLINK_OFF", .setBlink false),
   ("DISPLAY_ON", .setDisplay true), ("DISPLAY_OFF", .setDisplay false)]

/-- The names of the line addresses (30_encoding.md R92). -/
def lineNames : List (String × Byte) := [("LINE_1", 0x80#8), ("LINE_2", 0xC0#8), ("LINE_3", 0x94#8), ("LINE_4", 0xD4#8)]

/-- The names of the justification codes and of the modes (30_encoding.md R92). -/
def justifyNames : List (String × Justify) := [("LEFT", .left), ("CENTER", .center), ("RIGHT", .right)]

def modeNames : List (String × Mode) := [("CMD", .command), ("DATA", .data)]

/-! ### The opcode table -/

/-- One row of the table: the bits a word of that instruction must have. -/
structure TableRow (n : Nat) where
  mask : BitVec n
  pattern : BitVec n
  deriving DecidableEq, Repr

def TableRow.admits {n : Nat} (r : TableRow n) (w : BitVec n) : Bool := w &&& r.mask = r.pattern

/-- The ten rows of format H (30_encoding.md R72). -/
def hostRows : List (TableRow 16) :=
  [⟨0xFFFF#16, 0x1000#16⟩, ⟨0xFE00#16, 0x2000#16⟩, ⟨0xFFFF#16, 0x3000#16⟩, ⟨0xFFFF#16, 0x4000#16⟩,
   ⟨0xFFFE#16, 0x5000#16⟩, ⟨0xFFFE#16, 0x6000#16⟩, ⟨0xFFFE#16, 0x7000#16⟩, ⟨0xFFFE#16, 0x8000#16⟩,
   ⟨0xFC00#16, 0x9000#16⟩, ⟨0xFFFF#16, 0xA000#16⟩]

/-- The nine rows of format L (30_encoding.md R82). -/
def lcdRows : List (TableRow 9) :=
  [⟨0x1FF#9, 0x033#9⟩, ⟨0x1FF#9, 0x032#9⟩, ⟨0x1E3#9, 0x020#9⟩, ⟨0x1F8#9, 0x008#9⟩, ⟨0x1FC#9, 0x004#9⟩,
   ⟨0x1FF#9, 0x001#9⟩, ⟨0x1FF#9, 0x002#9⟩, ⟨0x180#9, 0x080#9⟩, ⟨0x100#9, 0x100#9⟩]

/-! ### Words numbered as spec/opcode_table.json numbers them -/

/-- A word of the table as an encoded instruction. A format L row has nine bits, so its words are below 2^9; a format
H word below 2^9 has `op` 0x0, which is no command, so a number is read as format L exactly when it is below 2^9
(DEDUCED, log 4). -/
def tableWord (nbits w : Nat) : Encoded :=
  if w % 2 ^ nbits < 2 ^ 9 then .lcd (BitVec.ofNat 9 (w % 2 ^ nbits)) else .host (BitVec.ofNat 16 (w % 2 ^ nbits))

/-- The instruction the decoder reads from a word of the table. -/
def decodeTableWord (nbits w : Nat) : Option Instr :=
  match decode (tableWord nbits w) with
  | .ok i => some i
  | .error _ => none

end Sys2Proof
end

