-- ==== Sys2Proof/Config.lean ====
section
/-! DEFINITION. What one implementation fixes and what the spec leaves free: the OPEN timing parameters
(00_scope.md R7) and the free level of a latch after a failed pin write (60_exceptions.md R207). None of them
has a value any proof can see. -/

namespace Sys2Proof.Config

/-- `E_DELAY` less one tick. OPEN (92_eei_decisions.md D3; log 7). -/
opaque eDelayLessOne : Nat

/-- `E_PULSE` less one tick. OPEN (92_eei_decisions.md D4; log 7). -/
opaque ePulseLessOne : Nat

/-- `CLEAR_SETTLE` less one tick. OPEN (92_eei_decisions.md D5; log 7). -/
opaque clearSettleLessOne : Nat

/-- `BLINK_DELAY` less one tick. OPEN (92_eei_decisions.md D6; log 7). -/
opaque blinkDelayLessOne : Nat

/-- `F_CLK`, ticks a second. OPEN and without any constraint (92_eei_decisions.md D2; log 7). -/
opaque fClk : Nat

/-- `E_DELAY`, a positive number of ticks (00_scope.md R7). -/
def eDelay : Nat := eDelayLessOne + 1

/-- `E_PULSE`, a positive number of ticks (00_scope.md R7). -/
def ePulse : Nat := ePulseLessOne + 1

/-- `CLEAR_SETTLE`, a positive number of ticks (00_scope.md R7). -/
def clearSettle : Nat := clearSettleLessOne + 1

/-- `BLINK_DELAY`, a positive number of ticks (00_scope.md R7). -/
def blinkDelay : Nat := blinkDelayLessOne + 1

/-- The free value of 60_exceptions.md R207: whether the n-th failed pin write of the run left the new level in
the latch (true) or the old one (false). No body: nothing is known of it (log 6). -/
opaque failedWriteLands : Nat → Bool

end Sys2Proof.Config
end

