-- ==== Sys2Proof/Machine/State.lean ====
section
/-! DEFINITION. The state of the block (10_state.md R20), the trace `TR` (00_scope.md R12), what the outside world
presents to it, the fault and refusal types, and the state after reset (10_state.md R38). -/

namespace Sys2Proof.Machine

/-! ### The configuration register -/

/-- `CFG.entryDirection` (10_state.md R22). -/
inductive EntryDirection where
  | right
  | left
  deriving DecidableEq, Repr

/-- `CFG.entryShift` (10_state.md R22). -/
inductive EntryShift where
  | decrement
  | increment
  deriving DecidableEq, Repr

/-- `CFG.busWidth` (10_state.md R22). -/
inductive BusWidth where
  | four
  | eight
  deriving DecidableEq, Repr

/-- `CFG.lineCount` (10_state.md R22). -/
inductive LineCount where
  | one
  | two
  deriving DecidableEq, Repr

/-- `CFG.font` (10_state.md R22). -/
inductive Font where
  | dots5x8
  | dots5x10
  deriving DecidableEq, Repr

/-- `CFG`, the nine fields of `ConfigurationFlags` (10_state.md R21, R22). An On/Off field is true when On. -/
structure Cfg where
  backlight : Bool
  entryDirection : EntryDirection
  entryShift : EntryShift
  blink : Bool
  cursor : Bool
  display : Bool
  busWidth : BusWidth
  lineCount : LineCount
  font : Font
  deriving DecidableEq, Repr

/-- `CFG_RESET` (10_state.md R24; 92_eei_decisions.md D23; log 8). -/
def cfgReset : Cfg :=
  { backlight := false, entryDirection := .left, entryShift := .decrement, blink := false, cursor := false,
    display := true, busWidth := .four, lineCount := .two, font := .dots5x8 }

/-! ### Lifecycle, pins, errors -/

/-- `LIFE` (10_state.md R25). Codes 6 and 7 are never held. -/
inductive Life where
  | uninitialized
  | busReset
  | configured
  | cleared
  | released
  | faulted
  deriving DecidableEq, Repr

/-- The seven pins in pin id order (10_state.md R26). -/
inductive Pin where
  | rs
  | e
  | d4
  | d5
  | d6
  | d7
  | bl
  deriving DecidableEq, Repr

/-- One bit for each pin: the latches `PIN`, the enables `OE` (10_state.md R26). -/
structure Lines where
  rs : Bool
  e : Bool
  d4 : Bool
  d5 : Bool
  d6 : Bool
  d7 : Bool
  bl : Bool
  deriving DecidableEq, Repr

/-- All seven bits the same. -/
def Lines.all (v : Bool) : Lines := { rs := v, e := v, d4 := v, d5 := v, d6 := v, d7 := v, bl := v }

/-- `FKIND` (10_state.md R29). Code 1 is never held. -/
inductive FKind where
  | none
  | transmission
  | resource
  deriving DecidableEq, Repr

/-- `RSP_STATUS` (30_encoding.md R79). -/
inductive Status where
  | ok
  | validation
  | transmission
  | resource
  deriving DecidableEq, Repr

/-- The causes of a Validation error (60_exceptions.md R191). -/
inductive ValidationCause where
  | textTooLong
  | badJustify
  | badLine
  | illegalOp
  | badState
  deriving DecidableEq, Repr

/-! ### The trace, the command latch, the outside world -/

/-- One event of the trace `TR` (00_scope.md R12). -/
inductive Event where
  /-- `Cfg(p)`: pin configured as an output -/
  | cfg (p : Pin)
  /-- `W(p, v)`: level written -/
  | w (p : Pin) (v : Bool)
  /-- `WF(p, v)`: a write that failed -/
  | wf (p : Pin) (v : Bool)
  /-- `CF(p)`: a configuration that failed -/
  | cf (p : Pin)
  /-- `Z(n)`: waited n ticks -/
  | z (n : Nat)
  /-- `Rel`: all pins released -/
  | rel
  deriving DecidableEq, Repr

/-- A command as the command port carries it, and as `CMDL` holds it (30_encoding.md R70; 10_state.md R31). -/
structure Command where
  word : Word
  len : BitVec 8
  chars : Row
  deriving DecidableEq, Repr

/-- A fatal error, raised inside the pin action that failed, with its pin (60_exceptions.md R197, R198). -/
inductive Raise where
  | transmission (p : Pin)
  | resource (p : Pin)
  deriving DecidableEq, Repr

/-- What the outside world presents next. -/
inductive Input where
  /-- a pulse of `rst` (70_reset_and_hazards.md R221) -/
  | reset
  /-- a command on the command port (30_encoding.md R70) -/
  | command (c : Command)
  /-- an LCD-bus instruction handed to the transmitter by itself, through the contract of 41_transmit.md R122 and
  not through the command port (log 3) -/
  | transmit (w : LcdWord)
  deriving DecidableEq, Repr

/-- The state. The registers come first, then the trace, then the model's own fields. -/
structure State where
  /-- `CFG` (10_state.md R21) -/
  cfg : Cfg
  /-- `LIFE` (10_state.md R25) -/
  life : Life
  /-- `PIN[0..6]`, the output latches (10_state.md R26) -/
  pin : Lines
  /-- `OE[0..6]`, the output enables (10_state.md R26) -/
  oe : Lines
  /-- `LINEBUF[0..19]` (10_state.md R28) -/
  lineBuf : Row
  /-- `FKIND` (10_state.md R29) -/
  fkind : FKind
  /-- `FPIN` (10_state.md R29) -/
  fpin : Pin
  /-- `BUSY` (10_state.md R30) -/
  busy : Bool
  /-- `RSP_VALID` (10_state.md R30) -/
  rspValid : Bool
  /-- `RSP_STATUS` (10_state.md R30) -/
  rspStatus : Status
  /-- `RSP_CAUSE` (10_state.md R30) -/
  rspCause : BitVec 3
  /-- `CMDL` (10_state.md R31) -/
  cmdl : Command
  /-- `DLY` (10_state.md R32) -/
  dly : Nat
  /-- `SEQ` (10_state.md R33) -/
  seq : Nat
  /-- `TR`, oldest event first (00_scope.md R12; log 18) -/
  tr : List Event
  /-- what the outside world presents, next first (log 2) -/
  inputs : List Input
  /-- the levels of `io_fault` at the pin actions to come, 0 beyond the list (60_exceptions.md R206; log 5) -/
  ioFault : List Bool
  /-- how many free values have been drawn (60_exceptions.md R207; log 6) -/
  draws : Nat
  /-- the `raise` of the pin action that failed in the last tick, carried out in the next one (30_encoding.md R80;
  70_reset_and_hazards.md R240; log 14) -/
  raising : Option Raise
  deriving DecidableEq, Repr

/-- What stops the machine with a fault: nothing. Every error of 60_exceptions.md R190 ends its command with a
response and the block goes on (60_exceptions.md R203), so no constructor is needed and none is unsafe. -/
inductive Fault : Type
  deriving DecidableEq, Repr

/-- What the machine refuses. -/
inductive Refusal where
  /-- raised by `exec` for an instruction that has no meaning yet; no arm raises it; safe -/
  | notModelled (mnemonic : String)
  deriving DecidableEq, Repr

/-- What running an instruction or a step gives. -/
abbrev Result := Host.Outcome State Fault Refusal

/-! ### Reset -/

/-- `CMDL` at reset: unspecified by the spec, zeros here (DESIGN CHOICE, unsafe, log 11). -/
def commandReset : Command := { word := 0#16, len := 0#8, chars := Vector.replicate 20 0#8 }

/-- The state after reset with a given `CFG_RESET` (10_state.md R24, R38). `LINEBUF` is unspecified by the spec, zeros
here (DESIGN CHOICE, unsafe, log 10). -/
def State.resetWith (c : Cfg) : State :=
  { cfg := c, life := .uninitialized, pin := Lines.all false, oe := Lines.all false,
    lineBuf := Vector.replicate 20 0#8, fkind := .none, fpin := .rs, busy := false, rspValid := false,
    rspStatus := .ok, rspCause := 0#3, cmdl := commandReset, dly := 0, seq := 0, tr := [], inputs := [],
    ioFault := [], draws := 0, raising := none }

/-- The machine right after reset (10_state.md R38). -/
def State.reset : State := State.resetWith cfgReset

end Sys2Proof.Machine
end

