-- ==== Sys2Proof/Machine/Flags.lean ====
section
/-! DEFINITION. The configuration flag encoder: the packed form of `CFG` (10_state.md R22) and the three composite
instruction bytes (40_flag_encoder.md R100 to R103). The block has no condition codes (10_state.md R34). -/

namespace Sys2Proof.Machine

/-! ### Value codes of the nine fields (10_state.md R22) -/

def EntryDirection.isLeft : EntryDirection → Bool
  | .right => false
  | .left => true

def EntryShift.isIncrement : EntryShift → Bool
  | .decrement => false
  | .increment => true

def BusWidth.isEight : BusWidth → Bool
  | .four => false
  | .eight => true

def LineCount.isTwo : LineCount → Bool
  | .one => false
  | .two => true

def Font.is5x10 : Font → Bool
  | .dots5x8 => false
  | .dots5x10 => true

/-- `CFG` as the nine bits of 10_state.md R22, bit 0 last. -/
def Cfg.pack (c : Cfg) : BitVec 9 :=
  BitVec.ofBool c.font.is5x10 ++ BitVec.ofBool c.lineCount.isTwo ++ BitVec.ofBool c.busWidth.isEight ++
    BitVec.ofBool c.display ++ BitVec.ofBool c.cursor ++ BitVec.ofBool c.blink ++
    BitVec.ofBool c.entryShift.isIncrement ++ BitVec.ofBool c.entryDirection.isLeft ++ BitVec.ofBool c.backlight

/-- The nine fields of a packed `CFG` (10_state.md R22). -/
def Cfg.unpack (v : BitVec 9) : Cfg :=
  { backlight := v.getLsbD 0
    entryDirection := if v.getLsbD 1 then .left else .right
    entryShift := if v.getLsbD 2 then .increment else .decrement
    blink := v.getLsbD 3
    cursor := v.getLsbD 4
    display := v.getLsbD 5
    busWidth := if v.getLsbD 6 then .eight else .four
    lineCount := if v.getLsbD 7 then .two else .one
    font := if v.getLsbD 8 then .dots5x10 else .dots5x8 }

/-! ### Opcode constants and field weights (40_flag_encoder.md R100) -/

def opcFunctionSet : Byte := 0x20#8
def wBus8 : Byte := 0x10#8
def w2Line : Byte := 0x08#8
def w5x10 : Byte := 0x04#8
def opcDisplayControl : Byte := 0x08#8
def wDisplay : Byte := 0x04#8
def wCursor : Byte := 0x02#8
def wBlink : Byte := 0x01#8
def opcEntryMode : Byte := 0x04#8
def wLeft : Byte := 0x02#8
def wShiftInc : Byte := 0x01#8

/-- A field contributes its weight at its coded-1 value and 0 at the other (40_flag_encoder.md R100). -/
def weigh (w : Byte) (on : Bool) : Byte := if on then w else 0#8

/-- The function-set byte of bits w, n, f (30_encoding.md R83). -/
def composeFunctionSet (w n f : Bool) : Byte := opcFunctionSet ||| weigh wBus8 w ||| weigh w2Line n ||| weigh w5x10 f

/-- The display-control byte of bits d, c, b (30_encoding.md R84). -/
def composeDisplayControl (d c b : Bool) : Byte :=
  opcDisplayControl ||| weigh wDisplay d ||| weigh wCursor c ||| weigh wBlink b

/-- The entry-mode byte of bits i, s (30_encoding.md R85). -/
def composeEntryMode (i s : Bool) : Byte := opcEntryMode ||| weigh wLeft i ||| weigh wShiftInc s

/-- `functionSetByte()` (40_flag_encoder.md R101). -/
def functionSetByte (c : Cfg) : Byte := composeFunctionSet c.busWidth.isEight c.lineCount.isTwo c.font.is5x10

/-- `displayControlByte()` (40_flag_encoder.md R102). -/
def displayControlByte (c : Cfg) : Byte := composeDisplayControl c.display c.cursor c.blink

/-- `entryModeByte()` (40_flag_encoder.md R103). -/
def entryModeByte (c : Cfg) : Byte := composeEntryMode c.entryDirection.isLeft c.entryShift.isIncrement

end Sys2Proof.Machine
end

