-- ==== Sys2Proof/Machine/Operands.lean ====
section
/-! DEFINITION. The operands: nibbles of a byte (20_memory.md R56, R58), the fixed bytes and line addresses
(20_memory.md R54; 30_encoding.md R87), and the padded line of `RENDER` (44_text_render.md R172 to R177). -/

namespace Sys2Proof.Machine

/-! ### Bytes and nibbles -/

/-- `(b >> 4) & 0xF` (20_memory.md R56; 30_encoding.md R89). -/
def hiNibble (b : Byte) : Nibble := b.extractLsb' 4 4

/-- `b & 0xF` (20_memory.md R56; 30_encoding.md R89). -/
def loNibble (b : Byte) : Nibble := b.extractLsb' 0 4

/-- The number of 1 bits of a byte (00_scope.md R9). -/
def popcount (b : Byte) : Nat :=
  (b.getLsbD 0).toNat + (b.getLsbD 1).toNat + (b.getLsbD 2).toNat + (b.getLsbD 3).toNat +
    (b.getLsbD 4).toNat + (b.getLsbD 5).toNat + (b.getLsbD 6).toNat + (b.getLsbD 7).toNat

/-! ### Codes of named values -/

/-- The code of a lifecycle value (10_state.md R25). -/
def Life.code : Life → BitVec 3
  | .uninitialized => 0#3
  | .busReset => 1#3
  | .configured => 2#3
  | .cleared => 3#3
  | .released => 4#3
  | .faulted => 5#3

/-- The pin id (10_state.md R26). -/
def Pin.id : Pin → BitVec 3
  | .rs => 0#3
  | .e => 1#3
  | .d4 => 2#3
  | .d5 => 3#3
  | .d6 => 4#3
  | .d7 => 5#3
  | .bl => 6#3

/-- The code of `FKIND` (10_state.md R29). -/
def FKind.code : FKind → BitVec 2
  | .none => 0#2
  | .transmission => 2#2
  | .resource => 3#2

/-- The status code (30_encoding.md R79). -/
def Status.code : Status → BitVec 2
  | .ok => 0#2
  | .validation => 1#2
  | .transmission => 2#2
  | .resource => 3#2

/-- The cause code of a Validation error (30_encoding.md R79; 60_exceptions.md R191). -/
def ValidationCause.code : ValidationCause → BitVec 3
  | .textTooLong => 1#3
  | .badJustify => 2#3
  | .badLine => 3#3
  | .illegalOp => 4#3
  | .badState => 5#3

/-! ### Fixed bytes, levels and line addresses -/

/-- The first reset byte (30_encoding.md R87). -/
def resetByte33 : Byte := 0x33#8

/-- The second reset byte (30_encoding.md R87). -/
def resetByte32 : Byte := 0x32#8

/-- The clear-display byte (30_encoding.md R87). -/
def clearByte : Byte := 0x01#8

/-- The return-home byte (30_encoding.md R87; 92_eei_decisions.md D22). -/
def homeByte : Byte := 0x02#8

/-- The padding byte `PAD_CHAR` (00_scope.md R8; 44_text_render.md R175). -/
def padChar : Byte := 0x20#8

/-- The level of `RS` for a mode: 0 for Command, `RS_DATA_LEVEL` = 1 for Data (10_state.md R27; log 9). -/
def rsLevel : Mode → Bool
  | .command => false
  | .data => true

/-- `BL_ON_LEVEL` = 1 (10_state.md R27; log 9). -/
def blOnLevel : Bool := true

/-- The level written to `BL` for a backlight value (43_display_control.md R154). -/
def blLevel (on : Bool) : Bool := if on then blOnLevel else false

/-- The four line addresses `LINE_1` to `LINE_4` (20_memory.md R54). -/
def lineAddresses : List Byte := [0x80#8, 0xC0#8, 0x94#8, 0xD4#8]

/-- The membership test on the whole byte (44_text_render.md R174). -/
def isLineAddress (line : Byte) : Bool := lineAddresses.contains line

/-- The set-DDRAM-address byte of an address proper (30_encoding.md R86). -/
def setDdramByte (a : BitVec 7) : Byte := 1#1 ++ a

/-! ### The text operand -/

/-- `LCD_WIDTH` (00_scope.md R6). -/
def lcdWidth : Nat := 20

/-- The checks of stage 1, first failure first: length, justification, line (44_text_render.md R170 to R174;
60_exceptions.md R200). -/
def renderCheck (len : Nat) (j : Justify) (line : Byte) : Option ValidationCause :=
  if lcdWidth < len then some .textTooLong
  else if j = .noVariant then some .badJustify
  else if isLineAddress line then none
  else some .badLine

/-- The number of padding bytes in front of the text (44_text_render.md R177). A code that names no variant never
gets here; it is given the padding of Left. -/
def leadPad (len : Nat) : Justify → Nat
  | .noVariant => 0
  | .left => 0
  | .right => lcdWidth - len
  | .center => (lcdWidth - len) / 2

/-- The padded line: cell i holds c[i - lead] where lead ≤ i < lead + len, `PAD_CHAR` elsewhere
(44_text_render.md R170 stage 2, R176). -/
def padLine (len : Nat) (j : Justify) (chars : Row) : Row :=
  Vector.ofFn fun i : Fin 20 =>
    if leadPad len j ≤ i.val ∧ i.val < leadPad len j + len then
      chars[i.val - leadPad len j]'(Nat.lt_of_le_of_lt (Nat.sub_le _ _) i.isLt)
    else padChar

end Sys2Proof.Machine
end

