-- ==== Sys2Proof/Machine/Ops.lean ====
section
/-! DEFINITION. The shared operations: pins, the four primitive actions (41_transmit.md R115 to R118), how a command
ends (60_exceptions.md R195 to R198), running a list of actions, admission (60_exceptions.md R194) and the outputs
(10_state.md R37). -/

namespace Sys2Proof.Machine

/-! ### Pins -/

/-- The bit of one pin. -/
def Lines.get (l : Lines) : Pin → Bool
  | .rs => l.rs
  | .e => l.e
  | .d4 => l.d4
  | .d5 => l.d5
  | .d6 => l.d6
  | .d7 => l.d7
  | .bl => l.bl

/-- The bits with that of one pin replaced (20_memory.md R53: one pin at a time). -/
def Lines.set (l : Lines) (p : Pin) (v : Bool) : Lines :=
  match p with
  | .rs => { l with rs := v }
  | .e => { l with e := v }
  | .d4 => { l with d4 := v }
  | .d5 => { l with d5 := v }
  | .d6 => { l with d6 := v }
  | .d7 => { l with d7 := v }
  | .bl => { l with bl := v }

/-- The nibble on the data lines, `{D7, D6, D5, D4}` as bits 3 to 0 (20_memory.md R58; 41_transmit.md R124). -/
def Lines.nibble (l : Lines) : Nibble :=
  BitVec.ofBool l.d7 ++ BitVec.ofBool l.d6 ++ BitVec.ofBool l.d5 ++ BitVec.ofBool l.d4

/-! ### How a command ends -/

/-- What every end of a command has in common: the response for one tick, and the block idle again
(30_encoding.md R80; 60_exceptions.md R195 to R198, R203). -/
def State.endCommand (status : Status) (cause : BitVec 3) (s : State) : State :=
  { s with rspStatus := status, rspCause := cause, rspValid := true, busy := false, seq := 0 }

/-- `respond OK` (60_exceptions.md R195). -/
def State.respondOk (s : State) : State := s.endCommand .ok 0#3

/-- `raise Validation(cause)` (60_exceptions.md R196). -/
def State.raiseValidation (cause : ValidationCause) (s : State) : State := s.endCommand .validation cause.code

/-- `raise Transmission(p)`: the first fatal error is kept (60_exceptions.md R197, R205). -/
def State.raiseTransmission (p : Pin) (s : State) : State :=
  { s.endCommand .transmission p.id with
    fkind := if s.fkind = .none then .transmission else s.fkind
    fpin := if s.fkind = .none then p else s.fpin
    life := .faulted }

/-- `raise Resource(p)` (60_exceptions.md R198). -/
def State.raiseResource (p : Pin) (s : State) : State :=
  { s.endCommand .resource p.id with fkind := .resource, fpin := p, life := .faulted }

/-- The `raise` of a failed pin action (60_exceptions.md R197, R198). -/
def State.raise : Raise → State → State
  | .transmission p, s => s.raiseTransmission p
  | .resource p, s => s.raiseResource p

/-! ### Primitive actions -/

/-- Where a list of actions has got to: still going, or at an action that failed, after which nothing written later is
executed (00_scope.md R11). The state of a failed one holds the partial effect of the action; its `raise` is still to
come. -/
inductive Flow where
  | going (s : State)
  | failed (r : Raise) (s : State)
  deriving DecidableEq, Repr

/-- The end of a command: `respond OK`, or the `raise` of the action that failed. -/
def Flow.respond : Flow → State
  | .going s => s.respondOk
  | .failed r s => s.raise r

/-- The end of a procedure that is no command: nothing, or the `raise` of the action that failed. -/
def Flow.raised : Flow → State
  | .going s => s
  | .failed r s => s.raise r

/-- The end of one tick: a `raise` is left to the next (log 14). -/
def Flow.held : Flow → State
  | .going s => s
  | .failed r s => { s with raising := some r }

/-- The level of `io_fault` in a tick that performs a pin action (60_exceptions.md R206; log 5). -/
def State.ioFaultNow (s : State) : Bool := s.ioFault.headD false

/-- `SEQ` after one more completed action: it counts while `BUSY` = 1 (10_state.md R33; log 23). -/
def State.seqNext (s : State) : Nat := if s.busy then s.seq + 1 else s.seq

/-- The level a failed write leaves in the latch: the old level or the new one, a free value
(60_exceptions.md R207; log 6). -/
def State.levelAfterFailedWrite (s : State) (p : Pin) (v : Bool) : Bool :=
  if Config.failedWriteLands s.draws then v else s.pin.get p

/-- `PinConfigure(p)` (41_transmit.md R115). -/
def State.pinConfigure (p : Pin) (s : State) : Flow :=
  if s.ioFaultNow then
    .failed (.resource p) { s with ioFault := s.ioFault.tail, tr := s.tr ++ [.cf p] }
  else
    .going { s with oe := s.oe.set p true, ioFault := s.ioFault.tail, tr := s.tr ++ [.cfg p], seq := s.seqNext }

/-- `PinWrite(p, v)` (41_transmit.md R116). -/
def State.pinWrite (p : Pin) (v : Bool) (s : State) : Flow :=
  if s.ioFaultNow then
    .failed (.transmission p)
      { s with pin := s.pin.set p (s.levelAfterFailedWrite p v), draws := s.draws + 1,
               ioFault := s.ioFault.tail, tr := s.tr ++ [.wf p v] }
  else
    .going { s with pin := s.pin.set p v, ioFault := s.ioFault.tail, tr := s.tr ++ [.w p v], seq := s.seqNext }

/-- `Wait(n)` from its start to its end: `DLY` has counted down to 0 (41_transmit.md R117). -/
def State.wait (n : Nat) (s : State) : Flow :=
  .going { s with dly := 0, tr := s.tr ++ [.z n], seq := s.seqNext }

/-- `PinReleaseAll()` (41_transmit.md R118). -/
def State.pinReleaseAll (s : State) : Flow :=
  .going { s with oe := Lines.all false, tr := s.tr ++ [.rel], seq := s.seqNext }

/-! ### Lists of actions -/

/-- A primitive action (00_scope.md R11). -/
inductive Prim where
  | configure (p : Pin)
  | write (p : Pin) (v : Bool)
  | wait (n : Nat)
  | releaseAll
  deriving DecidableEq, Repr

def Prim.perform : Prim → State → Flow
  | .configure p, s => s.pinConfigure p
  | .write p v, s => s.pinWrite p v
  | .wait n, s => s.wait n
  | .releaseAll, s => s.pinReleaseAll

/-- One entry of a command's list of primitive actions (10_state.md R33), with the register writes that stand beside
the action in the pseudocode: `CFG.backlight` in front of it, `LIFE` after it (42_init_release.md R135;
43_display_control.md R157; log 13). -/
structure Op where
  backlight : Option Bool := none
  prim : Prim
  life : Option Life := none
  deriving DecidableEq, Repr

/-- The write of `CFG.backlight` that precedes the action. -/
def Op.before (op : Op) (s : State) : State :=
  match op.backlight with
  | none => s
  | some v => { s with cfg := { s.cfg with backlight := v } }

/-- The write of `LIFE` that follows the action. -/
def Op.after (op : Op) (s : State) : State :=
  match op.life with
  | none => s
  | some l => { s with life := l }

/-- One entry, whole. A failed action ends the command before its `LIFE` write. -/
def Op.perform (op : Op) (s : State) : Flow :=
  match op.prim.perform (op.before s) with
  | .going s' => .going (op.after s')
  | .failed r s' => .failed r s'

/-- The entries in order, each finishing before the next starts, up to the first that fails
(00_scope.md R11; 20_memory.md R64). -/
def runOps : List Op → State → Flow
  | [], s => .going s
  | op :: ops, s =>
    match op.perform s with
    | .going s' => runOps ops s'
    | .failed r s' => .failed r s'

/-- The list with a `LIFE` write after its last action. -/
def thenLife (l : Life) : List Op → List Op
  | [] => []
  | [op] => [{ op with life := some l }]
  | op :: op' :: ops => op :: thenLife l (op' :: ops)

/-! ### Commands -/

/-- A command's pseudocode in three parts: the checks of 60_exceptions.md R200 after decoding, the register writes in
front of the first action, and the list of actions, a function of the state after those writes. -/
structure Procedure where
  check : State → Option ValidationCause
  setup : State → State
  ops : State → List Op

/-- A whole command, from the tick after its acceptance to its response. -/
def Procedure.run (p : Procedure) (s : State) : State :=
  match p.check s with
  | some cause => s.raiseValidation cause
  | none => (runOps (p.ops (p.setup s)) (p.setup s)).respond

/-- Admission only in the given lifecycle values (60_exceptions.md R194). -/
def admitIn (lives : List Life) (s : State) : Option ValidationCause :=
  if lives.contains s.life then none else some .badState

/-- Admission of the eight commands that need a constructed block (60_exceptions.md R194). -/
def whenCleared (s : State) : Option ValidationCause := admitIn [.cleared] s

/-! ### Outputs -/

/-- What the host and the outside world see (10_state.md R37). A pin that is not driven is none. -/
structure Outputs where
  cmdReady : Bool
  rspValid : Bool
  rspStatus : BitVec 2
  rspCause : BitVec 3
  pin : Pin → Option Bool
  lcdRw : Bool

/-- The outputs of a state; `lcd_rw` is the constant 0 (10_state.md R26, R30, R37). -/
def outputs (s : State) : Outputs :=
  { cmdReady := !s.busy
    rspValid := s.rspValid
    rspStatus := s.rspStatus.code
    rspCause := s.rspCause
    pin := fun p => if s.oe.get p then some (s.pin.get p) else none
    lcdRw := false }

end Sys2Proof.Machine
end

