-- ==== Sys2Proof/Machine/Transmit.lean ====
section
/-! DEFINITION. The protocol transmitter (41_transmit.md R119 to R122) and `XMIT` (41_transmit.md R128). -/

namespace Sys2Proof.Machine

/-- A pin write as an entry of a list of actions. -/
def writeOp (p : Pin) (v : Bool) : Op := { prim := .write p v }

/-- A wait as an entry of a list of actions. -/
def waitOp (n : Nat) : Op := { prim := .wait n }

/-- The second write of a data line, made only when its bit is 1 (41_transmit.md R119). -/
def setLineOps (p : Pin) (bit : Bool) : List Op := if bit then [writeOp p true] else []

/-- `PresentNibble(n)` (41_transmit.md R119). -/
def presentNibbleOps (n : Nibble) : List Op :=
  [writeOp .d4 false, writeOp .d5 false, writeOp .d6 false, writeOp .d7 false] ++
    (setLineOps .d4 (n.getLsbD 0) ++ setLineOps .d5 (n.getLsbD 1) ++
      setLineOps .d6 (n.getLsbD 2) ++ setLineOps .d7 (n.getLsbD 3))

/-- `PulseEnable()` (41_transmit.md R120). -/
def pulseEnableOps : List Op :=
  [waitOp Config.eDelay, writeOp .e true, waitOp Config.ePulse, writeOp .e false, waitOp Config.eDelay]

/-- `NibblePhase(n)` (41_transmit.md R121). -/
def nibblePhaseOps (n : Nibble) : List Op := presentNibbleOps n ++ pulseEnableOps

/-- `Transmit(b, m)` (41_transmit.md R122). -/
def transmitOps (b : Byte) (m : Mode) : List Op :=
  writeOp .rs (rsLevel m) :: (nibblePhaseOps (hiNibble b) ++ nibblePhaseOps (loNibble b))

/-- `Transmit(b, m)` by itself, an entry the spec does not give the block (DESIGN CHOICE, log 3). It is admitted where
`XMIT` is, in Cleared only, so that no pin is written before it is claimed (41_transmit.md R116), after a fatal error
(60_exceptions.md R199, R205) or after `RELEASE` (42_init_release.md R144); elsewhere nothing happens and nothing is
answered. One that runs to its end answers nothing, "No return value" (41_transmit.md R122). One whose pin write fails
does all of `raise Transmission` (60_exceptions.md R197), though no command was accepted: the response registers are
written, `RSP_VALID` pulses, and `LIFE` goes from Cleared to Faulted. -/
def transmitAlone (b : Byte) (m : Mode) (s : State) : State :=
  match whenCleared s with
  | some _ => s
  | none => (runOps (transmitOps b m) s).raised

/-- The pseudocode of `XMIT b, m` (41_transmit.md R128). -/
def xmitProcedure (m : Mode) (b : Byte) : Procedure :=
  { check := whenCleared, setup := id, ops := fun _ => transmitOps b m }

/-- `XMIT b, m` (41_transmit.md R128). -/
def execXmit (m : Mode) (b : Byte) (s : State) : Result := .next ((xmitProcedure m b).run s)

end Sys2Proof.Machine
end

