-- ==== Sys2Proof/Machine/InitRelease.lean ====
section
/-! DEFINITION. `CONSTRUCT` (42_init_release.md R135 to R142) and `RELEASE` (42_init_release.md R143, R144). -/

namespace Sys2Proof.Machine

/-- The seven configurations, in pin id order (42_init_release.md R136). -/
def configureOps : List Op :=
  [{ prim := .configure .rs }, { prim := .configure .e }, { prim := .configure .d4 }, { prim := .configure .d5 },
   { prim := .configure .d6 }, { prim := .configure .d7 }, { prim := .configure .bl }]

/-- The initializer's straight line of six bytes and one wait (42_init_release.md R137, R138). -/
def initializerOps (c : Cfg) : List Op :=
  transmitOps resetByte33 .command ++
    thenLife .busReset (transmitOps resetByte32 .command) ++
    transmitOps (functionSetByte c) .command ++
    transmitOps (displayControlByte c) .command ++
    thenLife .configured (transmitOps (entryModeByte c) .command) ++
    transmitOps clearByte .command ++
    thenLife .cleared [waitOp Config.eDelay]

/-- A write of `CFG.backlight` with the matching write of `BL` (40_flag_encoder.md R108; 42_init_release.md R140). -/
def backlightOp (on : Bool) : Op := { backlight := some on, prim := .write .bl (blLevel on) }

/-- The confirmation blink (42_init_release.md R140). -/
def blinkOps : List Op :=
  [backlightOp true, waitOp Config.blinkDelay, backlightOp false, waitOp Config.blinkDelay, backlightOp true]

/-- The pseudocode of `CONSTRUCT` (42_init_release.md R135). -/
def constructProcedure : Procedure :=
  { check := admitIn [.uninitialized]
    setup := id
    ops := fun s => configureOps ++ initializerOps s.cfg ++ blinkOps }

/-- `CONSTRUCT` (42_init_release.md R135). -/
def execConstruct (s : State) : Result := .next (constructProcedure.run s)

/-- The pseudocode of `RELEASE` (42_init_release.md R143). -/
def releaseProcedure : Procedure :=
  { check := admitIn [.uninitialized, .cleared, .faulted]
    setup := id
    ops := fun _ => [{ prim := .releaseAll, life := some .released }] }

/-- `RELEASE` (42_init_release.md R143). -/
def execRelease (s : State) : Result := .next (releaseProcedure.run s)

end Sys2Proof.Machine
end

