-- ==== Sys2Proof/Machine/DisplayControl.lean ====
section
/-! DEFINITION. The display controller: `CLEAR`, `HOME` and the four toggles (43_display_control.md R150 to R157). A
toggle writes its field first and always retransmits (43_display_control.md R152, R153). -/

namespace Sys2Proof.Machine

/-- The pseudocode of `CLEAR` (43_display_control.md R150). -/
def clearProcedure : Procedure :=
  { check := whenCleared
    setup := id
    ops := fun _ => transmitOps clearByte .command ++ [waitOp Config.clearSettle] }

/-- `CLEAR` (43_display_control.md R150). -/
def execClear (s : State) : Result := .next (clearProcedure.run s)

/-- The pseudocode of `HOME`: no wait follows the byte (43_display_control.md R151). -/
def homeProcedure : Procedure :=
  { check := whenCleared, setup := id, ops := fun _ => transmitOps homeByte .command }

/-- `HOME` (43_display_control.md R151). -/
def execHome (s : State) : Result := .next (homeProcedure.run s)

/-- The pseudocode of `SET_BACKLIGHT v` (43_display_control.md R154). -/
def setBacklightProcedure (v : Bool) : Procedure :=
  { check := whenCleared, setup := id, ops := fun _ => [backlightOp v] }

/-- `SET_BACKLIGHT v` (43_display_control.md R154). -/
def execSetBacklight (v : Bool) (s : State) : Result := .next ((setBacklightProcedure v).run s)

/-- `Transmit(displayControlByte(), Command)` (43_display_control.md R152). -/
def displayControlOps (s : State) : List Op := transmitOps (displayControlByte s.cfg) .command

/-- The pseudocode of `SET_CURSOR v` (43_display_control.md R155). -/
def setCursorProcedure (v : Bool) : Procedure :=
  { check := whenCleared
    setup := fun s => { s with cfg := { s.cfg with cursor := v } }
    ops := displayControlOps }

/-- `SET_CURSOR v` (43_display_control.md R155). -/
def execSetCursor (v : Bool) (s : State) : Result := .next ((setCursorProcedure v).run s)

/-- The pseudocode of `SET_BLINK v` (43_display_control.md R156). -/
def setBlinkProcedure (v : Bool) : Procedure :=
  { check := whenCleared
    setup := fun s => { s with cfg := { s.cfg with blink := v } }
    ops := displayControlOps }

/-- `SET_BLINK v` (43_display_control.md R156). -/
def execSetBlink (v : Bool) (s : State) : Result := .next ((setBlinkProcedure v).run s)

/-- The pseudocode of `SET_DISPLAY v`: turning the display off switches the backlight off too
(43_display_control.md R157). -/
def setDisplayProcedure (v : Bool) : Procedure :=
  { check := whenCleared
    setup := fun s => { s with cfg := { s.cfg with display := v } }
    ops := fun s => displayControlOps s ++ (if v then [] else [backlightOp false]) }

/-- `SET_DISPLAY v` (43_display_control.md R157). -/
def execSetDisplay (v : Bool) (s : State) : Result := .next ((setDisplayProcedure v).run s)

end Sys2Proof.Machine
end

