-- ==== Sys2Proof/Machine/LcdBus.lean ====
section
/-! DEFINITION. The LCD-bus instructions of format L (30_encoding.md R81 to R88). What the block does with one is to
send it: `Transmit(byte, mode)` (41_transmit.md R122), here by itself (`transmitAlone`; log 3). What the controller
does with it is outside the block (10_state.md R35). -/

namespace Sys2Proof.Machine

/-- `L.RESET33` (30_encoding.md R87). -/
def execLReset33 (s : State) : Result := .next (transmitAlone resetByte33 .command s)

/-- `L.RESET32` (30_encoding.md R87). -/
def execLReset32 (s : State) : Result := .next (transmitAlone resetByte32 .command s)

/-- `L.FUNCSET` (30_encoding.md R83). -/
def execLFuncset (w n f : Bool) (s : State) : Result := .next (transmitAlone (composeFunctionSet w n f) .command s)

/-- `L.DISPCTL` (30_encoding.md R84). -/
def execLDispctl (d c b : Bool) (s : State) : Result := .next (transmitAlone (composeDisplayControl d c b) .command s)

/-- `L.ENTRY` (30_encoding.md R85). -/
def execLEntry (i sh : Bool) (s : State) : Result := .next (transmitAlone (composeEntryMode i sh) .command s)

/-- `L.CLEAR` (30_encoding.md R87). -/
def execLClear (s : State) : Result := .next (transmitAlone clearByte .command s)

/-- `L.HOME` (30_encoding.md R87). -/
def execLHome (s : State) : Result := .next (transmitAlone homeByte .command s)

/-- `L.SETDDRAM` (30_encoding.md R86). -/
def execLSetddram (a : BitVec 7) (s : State) : Result := .next (transmitAlone (setDdramByte a) .command s)

/-- `L.DATA` (30_encoding.md R82). -/
def execLData (c : Byte) (s : State) : Result := .next (transmitAlone c .data s)

end Sys2Proof.Machine
end

