-- ==== Sys2Proof/Machine/TextRender.lean ====
section
/-! DEFINITION. The text layout engine: `RENDER` (44_text_render.md R170 to R178). -/

namespace Sys2Proof.Machine

/-- The length operand, from the command latch (44_text_render.md R170). -/
def textLen (s : State) : Nat := s.cmdl.len.toNat

/-- Stage 2: all twenty cells of `LINEBUF` (44_text_render.md R176). -/
def fillLineBuf (j : Justify) (s : State) : State :=
  { s with lineBuf := padLine (textLen s) j s.cmdl.chars }

/-- Stage 3: the line address as a Command, then cells 0 to 19 as Data (44_text_render.md R178). -/
def streamOps (line : Byte) (cells : Row) : List Op :=
  transmitOps line .command ++ cells.toList.flatMap fun c => transmitOps c .data

/-- Admission first, then the three checks of stage 1 (60_exceptions.md R200; 44_text_render.md R171). -/
def checkRender (j : Justify) (line : Byte) (s : State) : Option ValidationCause :=
  match whenCleared s with
  | some cause => some cause
  | none => renderCheck (textLen s) j line

/-- The pseudocode of `RENDER text, line, justify` (44_text_render.md R170). -/
def renderProcedure (j : Justify) (line : Byte) : Procedure :=
  { check := checkRender j line
    setup := fillLineBuf j
    ops := fun s => streamOps line s.lineBuf }

/-- `RENDER text, line, justify` (44_text_render.md R170). -/
def execRender (j : Justify) (line : Byte) (s : State) : Result := .next ((renderProcedure j line).run s)

end Sys2Proof.Machine
end

