-- ==== Sys2Proof/Machine/Dispatch.lean ====
section
/-! DEFINITION. One arm for each instruction, each one call of its meaning. -/

namespace Sys2Proof.Machine

def exec (i : Instr) (s : State) : Host.Outcome State Fault Refusal :=
  match i with
  | .construct => Sys2Proof.Machine.execConstruct s
  | .xmit m b => Sys2Proof.Machine.execXmit m b s
  | .clear => Sys2Proof.Machine.execClear s
  | .home => Sys2Proof.Machine.execHome s
  | .setBacklight v => Sys2Proof.Machine.execSetBacklight v s
  | .setCursor v => Sys2Proof.Machine.execSetCursor v s
  | .setBlink v => Sys2Proof.Machine.execSetBlink v s
  | .setDisplay v => Sys2Proof.Machine.execSetDisplay v s
  | .render j line => Sys2Proof.Machine.execRender j line s
  | .release => Sys2Proof.Machine.execRelease s
  | .lReset33 => Sys2Proof.Machine.execLReset33 s
  | .lReset32 => Sys2Proof.Machine.execLReset32 s
  | .lFuncset w n f => Sys2Proof.Machine.execLFuncset w n f s
  | .lDispctl d c b => Sys2Proof.Machine.execLDispctl d c b s
  | .lEntry i1 sh => Sys2Proof.Machine.execLEntry i1 sh s
  | .lClear => Sys2Proof.Machine.execLClear s
  | .lHome => Sys2Proof.Machine.execLHome s
  | .lSetddram a => Sys2Proof.Machine.execLSetddram a s
  | .lData c => Sys2Proof.Machine.execLData c s

end Sys2Proof.Machine
end

