-- ==== Sys2Proof/Machine/Sequencer.lean ====
section
/-! DEFINITION. Accepting a command (20_memory.md R66), running it whole or tick by tick (30_encoding.md R80;
70_reset_and_hazards.md R240), and reset (70_reset_and_hazards.md R221). -/

namespace Sys2Proof.Machine

/-! ### Reset, acceptance, idling -/

/-- Reset of the block: every register takes its reset value and `TR` restarts empty, whatever the block was doing
(70_reset_and_hazards.md R221). What the outside world presents is not the block's (log 19). -/
def State.blockReset (s : State) : State :=
  { State.reset with inputs := s.inputs, ioFault := s.ioFault, draws := s.draws }

/-- The tick of acceptance: the whole command is copied into `CMDL` and `BUSY` is set (30_encoding.md R70;
20_memory.md R66). -/
def State.accept (c : Command) (s : State) : State :=
  { s with cmdl := c, busy := true, seq := 0, rspValid := false, raising := none }

/-- A tick in which nothing happens: `RSP_VALID` is 1 for one tick only (10_state.md R30). -/
def State.idle (s : State) : State := { s with rspValid := false }

/-! ### Running a command whole -/

/-- The pseudocode of a host command; an LCD-bus instruction is no command. -/
def procedureOf : Instr → Option Procedure
  | .construct => some constructProcedure
  | .xmit m b => some (xmitProcedure m b)
  | .clear => some clearProcedure
  | .home => some homeProcedure
  | .setBacklight v => some (setBacklightProcedure v)
  | .setCursor v => some (setCursorProcedure v)
  | .setBlink v => some (setBlinkProcedure v)
  | .setDisplay v => some (setDisplayProcedure v)
  | .render j line => some (renderProcedure j line)
  | .release => some releaseProcedure
  | .lReset33 => none
  | .lReset32 => none
  | .lFuncset _ _ _ => none
  | .lDispctl _ _ _ => none
  | .lEntry _ _ => none
  | .lClear => none
  | .lHome => none
  | .lSetddram _ => none
  | .lData _ => none

/-- The actions of a running command from the one that `SEQ` counts to, then the response. The list is that of the
whole command, computed again from `CMDL`, `CFG` and `LINEBUF` (10_state.md R33). -/
def Procedure.runRest (p : Procedure) (s : State) : State :=
  (runOps ((p.ops s).drop s.seq) { s with dly := 0 }).respond

/-- The command in `CMDL` to its end, where its last action has not failed: from its checks when no action has
completed, else from where it stands. An illegal word is answered ILLEGAL_OP (30_encoding.md R75). -/
def State.finishCommand (s : State) : Result :=
  match decodeHost s.cmdl.word with
  | .error _ => .next (s.raiseValidation .illegalOp)
  | .ok i =>
    if s.seq = 0 then exec i s
    else
      match procedureOf i with
      | none => exec i s
      | some p => .next (p.runRest s)

/-- The running command to its end: only its `raise` is left when its last action has failed (log 14, log 17). -/
def State.finish (s : State) : Result :=
  match s.raising with
  | some r => .next (State.raise r { s with raising := none })
  | none => s.finishCommand

/-- An LCD-bus instruction handed to the transmitter by itself, under the admission and with the answer of
`transmitAlone`. Nine bits that are no row of the table are sent the same way: the transmitter treats every byte alike
(41_transmit.md R122; DESIGN CHOICE, log 3). -/
def State.takeTransmit (w : LcdWord) (s : State) : Result :=
  match decodeLcd w with
  | .ok i => exec i s
  | .error _ => .next (transmitAlone (w.extractLsb' 0 8) (Mode.ofBit (w.getLsbD 8)) s)

/-- One step: reset wins over everything (60_exceptions.md R201); a command presented while `BUSY` = 1 waits until the
running one has ended (30_encoding.md R80); an idle block takes what is presented, if anything is (log 1). -/
def State.advance (s : State) : Result :=
  match s.inputs, s.busy with
  | .reset :: rest, _ => .next (State.blockReset { s with inputs := rest })
  | _, true => s.finish
  | [], false => .next s.idle
  | .command c :: rest, false => (State.accept c { s with inputs := rest }).finish
  | .transmit w :: rest, false => State.takeTransmit w { s with inputs := rest, rspValid := false }

/-! ### One tick of the clock -/

/-- One tick of a `Wait(n)`: its first tick loads `DLY`, every tick takes one from it, and the wait ends when it
reaches 0 (10_state.md R32; 41_transmit.md R117; log 15). -/
def State.tickWait (n : Nat) (op : Op) (s : State) : State :=
  let s1 := if s.dly = 0 then { op.before s with dly := n } else s
  if s1.dly ≤ 1 then op.after { s1 with dly := 0, tr := s.tr ++ [.z n], seq := s1.seqNext }
  else { s1 with dly := s1.dly - 1 }

/-- One tick of one action: a pin action takes one tick, also when it fails; the response takes the next
(70_reset_and_hazards.md R240; 92_eei_decisions.md D46; log 14). -/
def Op.tick (op : Op) (s : State) : State :=
  match op.prim with
  | .wait n => s.tickWait n op
  | .configure _ => (op.perform s).held
  | .write _ _ => (op.perform s).held
  | .releaseAll => (op.perform s).held

/-- One tick in the list of actions; when the list is exhausted the command is answered (10_state.md R33). -/
def tickList (ops : List Op) (s : State) : State :=
  match ops[s.seq]? with
  | none => s.respondOk
  | some op => op.tick s

/-- One tick of a running command. Its checks, and the register writes in front of its first action, fall in the tick
after acceptance (30_encoding.md R80; log 13). -/
def Procedure.tick (p : Procedure) (s : State) : State :=
  if s.seq = 0 then
    match p.check s with
    | some cause => s.raiseValidation cause
    | none => tickList (p.ops (p.setup s)) (p.setup s)
  else tickList (p.ops s) s

/-- One tick of the command in `CMDL`, where its last action has not failed. -/
def State.tickCommand (s : State) : State :=
  match decodeHost s.cmdl.word with
  | .error _ => s.raiseValidation .illegalOp
  | .ok i =>
    match procedureOf i with
    | none => s.raiseValidation .illegalOp
    | some p => p.tick s

/-- One tick while `BUSY` = 1. The tick after a failed action ends the command with its `raise` (30_encoding.md R80;
70_reset_and_hazards.md R240; log 14). -/
def State.tickBusy (s : State) : State :=
  match s.raising with
  | some r => State.raise r { s with raising := none }
  | none => s.tickCommand

/-- One tick while `BUSY` = 0: a command is accepted when `cmd_valid` = 1 (30_encoding.md R70, R80). -/
def State.tickIdle (cmdValid : Bool) (s : State) : State :=
  match cmdValid, s.inputs with
  | true, .command c :: rest => State.accept c { s with inputs := rest }
  | _, _ => s.idle

/-- One rising edge of `clk`, with the levels of `rst` and `cmd_valid` (70_reset_and_hazards.md R220). -/
def tick (rst cmdValid : Bool) (s : State) : State :=
  if rst then s.blockReset else if s.busy then s.tickBusy else s.tickIdle cmdValid

/-- Ticks with `rst` = 0 and `cmd_valid` = 1 whenever a command stands in `inputs`. -/
def ticks : Nat → State → State
  | 0, s => s
  | k + 1, s => ticks k (tick false true s)

/-! ### Placing one instruction where the next step takes it -/

/-- A word of the opcode table as what the outside world presents: format L to the transmitter, format H on the command
port with an empty text operand (log 2, log 4). -/
def fetchInput (nbits w : Nat) : Input :=
  match tableWord nbits w with
  | .lcd v => .transmit v
  | .host v => .command { word := v, len := 0#8, chars := Vector.replicate 20 0#8 }

end Sys2Proof.Machine
end

