-- ==== Sys2Proof/Machine/Step.lean ====
section
/-! DEFINITION. One step of the machine, and where a step takes its next instruction from. -/

namespace Sys2Proof.Machine

/-- One step: one command from acceptance to response, or one reset, or one idle tick (log 1). -/
def step (s : State) : Host.Outcome State Fault Refusal := s.advance

/-- The state with the instruction of a table word placed so that the very next step runs it: nothing is running, and
it is the next thing presented (log 2). -/
def State.withFetchWord (s : State) (nbits w : Nat) : State :=
  { s with busy := false, seq := 0, dly := 0, raising := none, inputs := fetchInput nbits w :: s.inputs }

end Sys2Proof.Machine
end

