-- ==== Sys2Proof/Machine/Trace.lean ====
section
/-! DEFINITION. What a trace says: the views `Latched(TR)` and `Bytes(TR)` (41_transmit.md R124, R125), the event lists
of the transmitter's procedures as the spec prints them (41_transmit.md R119 to R122), durations
(70_reset_and_hazards.md R240), and where a failing action cuts a list (41_transmit.md R129). -/

namespace Sys2Proof.Machine

/-! ### Kinds of events -/

/-- `W`, `WF`, `Cfg`, `CF`: the events of the actions that sample `io_fault` (60_exceptions.md R206). -/
def Event.isPinAction : Event → Bool
  | .cfg _ => true
  | .w _ _ => true
  | .wf _ _ => true
  | .cf _ => true
  | .z _ => false
  | .rel => false

/-- `WF` and `CF`: the events of a fatal error. -/
def Event.isFailure : Event → Bool
  | .cfg _ => false
  | .w _ _ => false
  | .wf _ _ => true
  | .cf _ => true
  | .z _ => false
  | .rel => false

/-- `W`: a pin write that succeeded. -/
def Event.isWrite : Event → Bool
  | .cfg _ => false
  | .w _ _ => true
  | .wf _ _ => false
  | .cf _ => false
  | .z _ => false
  | .rel => false

/-- `Z`: a wait. -/
def Event.isWait : Event → Bool
  | .cfg _ => false
  | .w _ _ => false
  | .wf _ _ => false
  | .cf _ => false
  | .z _ => true
  | .rel => false

/-- No failed action. -/
def clean (es : List Event) : Bool := es.all fun e => !e.isFailure

/-- How many of the events are pin actions. -/
def pinActions (es : List Event) : Nat := es.countP Event.isPinAction

/-! ### Replay -/

/-- The levels after the `W` events of a trace (41_transmit.md R124). -/
def replay (l : Lines) : List Event → Lines
  | [] => l
  | .w p v :: es => replay (l.set p v) es
  | .cfg _ :: es => replay l es
  | .wf _ _ :: es => replay l es
  | .cf _ :: es => replay l es
  | .z _ :: es => replay l es
  | .rel :: es => replay l es

/-- `Latched` from given levels: a pair at every fall of `E`, up to the first failed action (41_transmit.md R124). -/
def latchedFrom (l : Lines) : List Event → List (Bool × Nibble)
  | [] => []
  | .w p v :: es =>
    if p = .e ∧ v = false ∧ l.e = true then (l.rs, l.nibble) :: latchedFrom (l.set p v) es
    else latchedFrom (l.set p v) es
  | .cfg _ :: es => latchedFrom l es
  | .wf _ _ :: _ => []
  | .cf _ :: _ => []
  | .z _ :: es => latchedFrom l es
  | .rel :: es => latchedFrom l es

/-- `Latched(TR)`: replay from reset, with all seven levels 0 (41_transmit.md R124). -/
def latched (tr : List Event) : List (Bool × Nibble) := latchedFrom (Lines.all false) tr

/-- Nibbles in pairs, the first the high half; a last unpaired one is dropped (41_transmit.md R125). -/
def pairUp : List (Bool × Nibble) → List (Bool × Byte)
  | [] => []
  | [_] => []
  | a :: b :: rest => (a.1, a.2 ++ b.2) :: pairUp rest

/-- `Bytes(TR)` (41_transmit.md R125). -/
def bytes (tr : List Event) : List (Bool × Byte) := pairUp (latched tr)

/-! ### The procedures of the transmitter, as events -/

/-- The second write of a data line, made only when its bit is 1 (41_transmit.md R119). -/
def setLineEvents (p : Pin) (bit : Bool) : List Event := if bit then [Event.w p true] else []

/-- What `PresentNibble(n)` appends (41_transmit.md R119). -/
def presentEvents (n : Nibble) : List Event :=
  [Event.w .d4 false, Event.w .d5 false, Event.w .d6 false, Event.w .d7 false] ++
    (setLineEvents .d4 (n.getLsbD 0) ++ setLineEvents .d5 (n.getLsbD 1) ++
      setLineEvents .d6 (n.getLsbD 2) ++ setLineEvents .d7 (n.getLsbD 3))

/-- What `PulseEnable()` appends (41_transmit.md R120). -/
def pulseEvents : List Event :=
  [.z Config.eDelay, .w .e true, .z Config.ePulse, .w .e false, .z Config.eDelay]

/-- What `Transmit(b, m)` appends (41_transmit.md R122). -/
def transmitEvents (b : Byte) (m : Mode) : List Event :=
  .w .rs (rsLevel m) ::
    ((presentEvents (hiNibble b) ++ pulseEvents) ++ (presentEvents (loNibble b) ++ pulseEvents))

/-- The pin levels after `Transmit(b, m)` (41_transmit.md R127). -/
def levelsAfter (b : Byte) (m : Mode) (l : Lines) : Lines :=
  { rs := rsLevel m, e := false, d4 := b.getLsbD 0, d5 := b.getLsbD 1, d6 := b.getLsbD 2, d7 := b.getLsbD 3,
    bl := l.bl }

/-- What the seven configurations append (42_init_release.md R136). -/
def configureEvents : List Event :=
  [.cfg .rs, .cfg .e, .cfg .d4, .cfg .d5, .cfg .d6, .cfg .d7, .cfg .bl]

/-- What the confirmation blink appends (42_init_release.md R140). -/
def blinkEvents : List Event :=
  [.w .bl true, .z Config.blinkDelay, .w .bl false, .z Config.blinkDelay, .w .bl true]

/-- The six bytes of the initializer (42_init_release.md R138). -/
def initializerBytes (c : Cfg) : List Byte :=
  [0x33#8, 0x32#8, functionSetByte c, displayControlByte c, entryModeByte c, 0x01#8]

/-- What `CONSTRUCT` appends for a configuration (42_init_release.md R135). -/
def constructEvents (c : Cfg) : List Event :=
  configureEvents ++ ((initializerBytes c).flatMap fun b => transmitEvents b .command) ++
    [Event.z Config.eDelay] ++ blinkEvents

/-- What `RENDER` appends for a line address and the twenty cells (44_text_render.md R178). -/
def renderEvents (line : Byte) (cells : Row) : List Event :=
  transmitEvents line .command ++ cells.toList.flatMap fun c => transmitEvents c .data

/-! ### Durations -/

/-- The ticks of an event: one for a pin action or a release, n for `Z(n)` (70_reset_and_hazards.md R240). -/
def Event.ticks : Event → Nat
  | .cfg _ => 1
  | .w _ _ => 1
  | .wf _ _ => 1
  | .cf _ => 1
  | .z n => n
  | .rel => 1

/-- The ticks of a list of events. -/
def duration (es : List Event) : Nat := (es.map Event.ticks).sum

/-- Ticks as seconds: `F_CLK` converts them (00_scope.md R7). -/
def seconds (n : Nat) : Rat := (n : Rat) / (Config.fClk : Rat)

/-! ### Where a failing action cuts a list -/

/-- The event that a failing action leaves in place of the one it would have left (41_transmit.md R115, R116). -/
def Event.failed : Event → Event
  | .cfg p => .cf p
  | .w p v => .wf p v
  | .wf p v => .wf p v
  | .cf p => .cf p
  | .z n => .z n
  | .rel => .rel

/-- The events up to the k-th pin action (from 0), that one failed, nothing after it (41_transmit.md R129). -/
def cutAtFault : Nat → List Event → List Event
  | _, [] => []
  | 0, e :: es => if e.isPinAction then [e.failed] else e :: cutAtFault 0 es
  | k + 1, e :: es => if e.isPinAction then e :: cutAtFault k es else e :: cutAtFault (k + 1) es

/-! ### The display-control byte -/

/-- The last display-control byte among the Command bytes sent (30_encoding.md R84, R88). -/
def lastDisplayControl (bs : List (Bool × Byte)) : Option Byte :=
  (bs.filter fun p => !p.1 && p.2.extractLsb' 3 5 == 1#5).getLast?.map Prod.snd

end Sys2Proof.Machine
end

