-- ==== Sys2Proof/Safety.lean ====
section
/-! DEFINITION. What claims about a run are stated in: infallible pins, the invariant of an idle block, and the
responses of a run (70_reset_and_hazards.md R225). -/

namespace Sys2Proof.Machine

/-- `io_fault` is 0 at every pin action to come (60_exceptions.md R206). -/
abbrev SoundPins (s : State) : Prop := ∀ f ∈ s.ioFault, f = false

/-- The causes that may stand with each status (30_encoding.md R79). -/
def causeLegal : Status → BitVec 3 → Bool
  | .ok, c => c = 0#3
  | .validation, c => 1 ≤ c.toNat ∧ c.toNat ≤ 5
  | .transmission, c => c.toNat ≤ 6
  | .resource, c => c.toNat ≤ 6

/-- The lifecycle values in which an instruction is admitted: those of 60_exceptions.md R194 for a command, Cleared for
an LCD-bus instruction run by itself (log 3). -/
def admittedIn : Instr → List Life
  | .construct => [.uninitialized]
  | .release => [.uninitialized, .cleared, .faulted]
  | .xmit _ _ => [.cleared]
  | .clear => [.cleared]
  | .home => [.cleared]
  | .setBacklight _ => [.cleared]
  | .setCursor _ => [.cleared]
  | .setBlink _ => [.cleared]
  | .setDisplay _ => [.cleared]
  | .render _ _ => [.cleared]
  | .lReset33 => [.cleared]
  | .lReset32 => [.cleared]
  | .lFuncset _ _ _ => [.cleared]
  | .lDispctl _ _ _ => [.cleared]
  | .lEntry _ _ => [.cleared]
  | .lClear => [.cleared]
  | .lHome => [.cleared]
  | .lSetddram _ => [.cleared]
  | .lData _ => [.cleared]

/-- Whether an instruction may write `CFG.backlight` and pin `BL` (10_state.md R23; 40_flag_encoder.md R108). -/
def writesBacklight : Instr → Bool
  | .construct => true
  | .setBacklight _ => true
  | .setDisplay v => !v
  | .xmit _ _ => false
  | .clear => false
  | .home => false
  | .setCursor _ => false
  | .setBlink _ => false
  | .render _ _ => false
  | .release => false
  | .lReset33 => false
  | .lReset32 => false
  | .lFuncset _ _ _ => false
  | .lDispctl _ _ _ => false
  | .lEntry _ _ => false
  | .lClear => false
  | .lHome => false
  | .lSetddram _ => false
  | .lData _ => false

/-- Whether an instruction may write `RS`, `E` and the data lines: all that transmit (20_memory.md R60). -/
def writesBus : Instr → Bool
  | .setBacklight _ => false
  | .release => false
  | .construct => true
  | .xmit _ _ => true
  | .clear => true
  | .home => true
  | .setCursor _ => true
  | .setBlink _ => true
  | .setDisplay _ => true
  | .render _ _ => true
  | .lReset33 => true
  | .lReset32 => true
  | .lFuncset _ _ _ => true
  | .lDispctl _ _ _ => true
  | .lEntry _ _ => true
  | .lClear => true
  | .lHome => true
  | .lSetddram _ => true
  | .lData _ => true

/-- The reserved bits of a command word by its `op`, none for an `op` that is no command (30_encoding.md R72, R74). -/
def reservedBits (op : Nat) : Option Word :=
  if op = 1 ∨ op = 3 ∨ op = 4 ∨ op = 10 then some 0x0FFF#16
  else if op = 2 then some 0x0E00#16
  else if 5 ≤ op ∧ op ≤ 8 then some 0x0FFE#16
  else if op = 9 then some 0x0C00#16
  else none

/-- An illegal command word (30_encoding.md R75): its `op` is no command, or a reserved bit of its `op` is set. -/
def illegalWord (w : Word) : Bool :=
  match reservedBits (w.toNat / 4096) with
  | none => true
  | some m => w &&& m != 0#16

/-- The display-control byte last sent is that of `CFG` (10_state.md R23; 43_display_control.md R152). -/
def DisplayByteCurrent (s : State) : Prop :=
  s.life = .cleared → lastDisplayControl (bytes s.tr) = some (displayControlByte s.cfg)

/-- A raw display-control byte sent as a Command: an `XMIT` word that holds one (70_reset_and_hazards.md R231), or one
handed to the transmitter by itself (log 3). -/
def Input.sendsRawDisplayControl : Input → Bool
  | .reset => false
  | .command c => 0x2008 ≤ c.word.toNat && c.word.toNat ≤ 0x200F
  | .transmit w => 0x008 ≤ w.toNat && w.toNat ≤ 0x00F

/-- What holds of the block whenever it is idle, in every run, whatever is presented to it. -/
structure IdleInv (s : State) : Prop where
  /-- idle: `BUSY` = 0, `SEQ` = 0, no wait in progress (10_state.md R32, R33; 70_reset_and_hazards.md R225), no `raise`
  to come (log 14) -/
  idle : s.busy = false ∧ s.seq = 0 ∧ s.dly = 0 ∧ s.raising = none
  /-- BusReset and Configured are held only while `CONSTRUCT` runs (10_state.md R25) -/
  settled : s.life ≠ .busReset ∧ s.life ≠ .configured
  /-- Faulted implies a recorded error, and a recorded error implies Faulted or Released (10_state.md R29) -/
  faultKnown : (s.life = .faulted → s.fkind ≠ .none) ∧ (s.fkind ≠ .none → s.life = .faulted ∨ s.life = .released)
  /-- the response registers hold a legal pair (30_encoding.md R79) -/
  response : causeLegal s.rspStatus s.rspCause = true
  /-- nothing has been done before `CONSTRUCT` (60_exceptions.md R194) -/
  untouched : s.life = .uninitialized → s.tr = [] ∧ s.pin = Lines.all false ∧ s.oe = Lines.all false
  /-- the pins are claimed from `CONSTRUCT` to `RELEASE` (42_init_release.md R141, R143) -/
  claimed : (s.life = .cleared → s.oe = Lines.all true) ∧ (s.life = .released → s.oe = Lines.all false)
  /-- without a fatal error `TR` has no failed action, the latches are what it says, `E` is low, whole bytes have been
  latched, and the backlight flag and its pin agree (41_transmit.md R126, R127; 40_flag_encoder.md R108) -/
  quiet : s.fkind = .none →
    clean s.tr = true ∧ replay (Lines.all false) s.tr = s.pin ∧ s.pin.e = false ∧
      (latched s.tr).length % 2 = 0 ∧ s.pin.bl = blLevel s.cfg.backlight
  /-- after a fatal error `TR` ends with the failed action, then at most one `Rel` (60_exceptions.md R199) -/
  fatal : s.fkind ≠ .none → ∃ es e, clean es = true ∧ e.isFailure = true ∧
    ((s.life = .faulted ∧ s.tr = es ++ [e]) ∨ (s.life = .released ∧ s.tr = es ++ [e, .rel]))

/-- The state after k steps; every step answers a next state (60_exceptions.md R203). -/
def runSteps : Nat → State → State
  | 0, s => s
  | k + 1, s =>
    match step s with
    | .next s' => runSteps k s'
    | .fault _ => s
    | .refused _ => s

/-- The responses of the first k steps, first one first: the status and cause of every step that ends in a response
(70_reset_and_hazards.md R225). -/
def responses : Nat → State → List (Status × BitVec 3)
  | 0, _ => []
  | k + 1, s =>
    match step s with
    | .next s' => (if s'.rspValid then [(s'.rspStatus, s'.rspCause)] else []) ++ responses k s'
    | .fault _ => []
    | .refused _ => []

end Sys2Proof.Machine
end

