-- ==== Sys2Proof/Certificates/Slice0/Obligations.lean ====
section
/-! DEFINITION. The statements for the provers. Each docstring names the rule or the section it formalises. -/

open Sys2Proof Sys2Proof.Machine

/-! ### Encoding -/

/-- No bit of an encoding is dropped: decoding an encoded instruction gives it back, with every operand
(30_encoding.md R72, R73, R82). -/
def Obligations.DecodeOfEncodeIsTheInstruction : Prop :=
  ∀ i : Instr, decode (encode i) = .ok i

/-- A word has one meaning: a word that decodes is the encoding of what it decodes to (30_encoding.md R72, R82). -/
def Obligations.EncodeOfDecodeIsTheWord : Prop :=
  ∀ (e : Encoded) (i : Instr), decode e = .ok i → encode i = e

/-- 30_encoding.md R75: which command words are illegal, that an illegal one is accepted and answered VALIDATION,
ILLEGAL_OP (4) with nothing else changed, that every other word is one of the ten commands, and that a `RENDER` with
code 0 or a bad line is no illegal word but one whose operands fail validation. -/
def Obligations.IllegalWordsAreAnsweredIllegalOp : Prop :=
  (∀ (s : State) (c : Command) (rest : List Input),
    s.busy = false → s.inputs = .command c :: rest → illegalWord c.word = true →
      step s = .next { s with inputs := rest, cmdl := c, rspStatus := .validation, rspCause := 4#3, rspValid := true,
                              busy := false, seq := 0, raising := none }) ∧
  (∀ w : Word, illegalWord w = false → ∃ i, decodeHost w = .ok i) ∧
  (∀ (j : Justify) (line : Byte),
    (∃ w, encode (.render j line) = .host w ∧ illegalWord w = false) ∧
    ∀ s : State, s.life = .cleared → j = .noVariant ∨ line ∉ [0x80#8, 0xC0#8, 0x94#8, 0xD4#8] →
      ∃ t, exec (.render j line) s = .next t ∧ t.rspStatus = .validation ∧ t.rspCause ≠ 4#3)

/-- Words written out from the patterns of 30_encoding.md R72 and R82. -/
def Obligations.SampleWordsDecode : Prop :=
  decodeHost 0b0001000000000000#16 = .ok .construct ∧
  decodeHost 0b0010000101000001#16 = .ok (.xmit .data 0x41#8) ∧
  decodeHost 0b0011000000000000#16 = .ok .clear ∧
  decodeHost 0b1000000000000001#16 = .ok (.setDisplay true) ∧
  decodeHost 0b1001001011010100#16 = .ok (.render .center 0xD4#8) ∧
  decodeHost 0b1010000000000000#16 = .ok .release ∧
  decodeLcd 0b000101000#9 = .ok (.lFuncset false true false) ∧
  decodeLcd 0b000001110#9 = .ok (.lDispctl true true false) ∧
  decodeLcd 0b000000110#9 = .ok (.lEntry true false) ∧
  decodeLcd 0b101000001#9 = .ok (.lData 0x41#8)

/-! ### The flag encoder -/

/-- 30_encoding.md R88: no other bits may be set in the three composite bytes. -/
def Obligations.CompositeBytesHaveNoOtherBits : Prop :=
  ∀ c : Cfg,
    functionSetByte c ∈ [0x20#8, 0x24#8, 0x28#8, 0x2C#8, 0x30#8, 0x34#8, 0x38#8, 0x3C#8] ∧
    displayControlByte c ∈ [0x08#8, 0x09#8, 0x0A#8, 0x0B#8, 0x0C#8, 0x0D#8, 0x0E#8, 0x0F#8] ∧
    entryModeByte c ∈ [0x04#8, 0x05#8, 0x06#8, 0x07#8]

/-- 40_flag_encoder.md R107: each byte is its constant ORed with weights of its own fields, is fixed by its own fields
and fixes them, its constant is its highest set bit, and the three value sets, 0x01, 0x02, 0x32, 0x33 and the values
with bit 7 set do not meet. -/
def Obligations.CompositeBytesFixTheirFields : Prop :=
  (∀ c : Cfg,
    functionSetByte c = 0x20#8 ||| (if c.busWidth = .eight then 0x10#8 else 0#8) |||
      (if c.lineCount = .two then 0x08#8 else 0#8) ||| (if c.font = .dots5x10 then 0x04#8 else 0#8) ∧
    displayControlByte c = 0x08#8 ||| (if c.display then 0x04#8 else 0#8) |||
      (if c.cursor then 0x02#8 else 0#8) ||| (if c.blink then 0x01#8 else 0#8) ∧
    entryModeByte c = 0x04#8 ||| (if c.entryDirection = .left then 0x02#8 else 0#8) |||
      (if c.entryShift = .increment then 0x01#8 else 0#8)) ∧
  (∀ c c' : Cfg,
    (functionSetByte c = functionSetByte c' ↔
      c.busWidth = c'.busWidth ∧ c.lineCount = c'.lineCount ∧ c.font = c'.font) ∧
    (displayControlByte c = displayControlByte c' ↔
      c.display = c'.display ∧ c.cursor = c'.cursor ∧ c.blink = c'.blink) ∧
    (entryModeByte c = entryModeByte c' ↔
      c.entryDirection = c'.entryDirection ∧ c.entryShift = c'.entryShift)) ∧
  (∀ c c' : Cfg,
    functionSetByte c ≠ displayControlByte c' ∧ functionSetByte c ≠ entryModeByte c' ∧
    displayControlByte c ≠ entryModeByte c') ∧
  (∀ c : Cfg, (functionSetByte c).toNat / 0x20 = 1 ∧ (functionSetByte c).toNat % 4 = 0 ∧
    (displayControlByte c).toNat / 0x08 = 1 ∧ (entryModeByte c).toNat / 0x04 = 1) ∧
  (∀ c : Cfg, ∀ b ∈ [functionSetByte c, displayControlByte c, entryModeByte c],
    b ≠ 0x01#8 ∧ b ≠ 0x02#8 ∧ b ≠ 0x32#8 ∧ b ≠ 0x33#8 ∧ b.getLsbD 7 = false)

/-- The packing of `CFG` by 10_state.md R22 loses nothing, and `CFG_RESET` is 0x0A2 with the composite bytes 0x28, 0x0C,
0x06 (10_state.md R24). -/
def Obligations.PackedConfiguration : Prop :=
  (∀ c : Cfg, Cfg.unpack c.pack = c) ∧ (∀ v : BitVec 9, (Cfg.unpack v).pack = v) ∧
  State.reset.cfg.pack = 0x0A2#9 ∧ functionSetByte State.reset.cfg = 0x28#8 ∧
  displayControlByte State.reset.cfg = 0x0C#8 ∧ entryModeByte State.reset.cfg = 0x06#8

/-! ### The transmitter -/

/-- 41_transmit.md R123: a `Transmit` that runs to its end performs 19 + popcount(b) actions, counted by kind. -/
def Obligations.TransmitActionCounts : Prop :=
  ∀ (b : Byte) (m : Mode) (s : State), SoundPins s →
    ∃ t, runOps (transmitOps b m) s = .going t ∧ t.tr = s.tr ++ transmitEvents b m ∧
      (transmitOps b m).length = 19 + popcount b ∧
      (transmitEvents b m).length = 19 + popcount b ∧
      (transmitEvents b m).countP Event.isWrite = 13 + popcount b ∧
      (transmitEvents b m).count (Event.w .rs (rsLevel m)) = 1 ∧
      (transmitEvents b m).countP (fun e => e ∈ [Event.w .d4 false, .w .d5 false, .w .d6 false, .w .d7 false]) = 8 ∧
      (transmitEvents b m).countP (fun e => e ∈ [Event.w .d4 true, .w .d5 true, .w .d6 true, .w .d7 true]) = popcount b ∧
      (transmitEvents b m).count (Event.w .e true) = 2 ∧ (transmitEvents b m).count (Event.w .e false) = 2 ∧
      (transmitEvents b m).filter Event.isWait =
        [Event.z Config.eDelay, .z Config.ePulse, .z Config.eDelay, .z Config.eDelay, .z Config.ePulse, .z Config.eDelay] ∧
      19 ≤ (transmitEvents b m).length ∧ (transmitEvents b m).length ≤ 27 ∧
      popcount 0x00#8 = 0 ∧ popcount 0xFF#8 = 8

/-- One `Transmit` makes the controller latch the high nibble, then the low nibble, with `RS` at the mode's level, so it
sends the byte, and it leaves the levels of 41_transmit.md R127 (41_transmit.md R126; 20_memory.md R56, R58). -/
def Obligations.TransmitIsLatchedAsItsByte : Prop :=
  ∀ (b : Byte) (m : Mode) (s : State), SoundPins s → clean s.tr = true →
    ∃ t, runOps (transmitOps b m) s = .going t ∧
      latched t.tr = latched s.tr ++ [(rsLevel m, b.extractLsb' 4 4), (rsLevel m, b.extractLsb' 0 4)] ∧
      ((latched s.tr).length % 2 = 0 → bytes t.tr = bytes s.tr ++ [(rsLevel m, b)]) ∧
      t.pin = { rs := rsLevel m, e := false, d4 := b.getLsbD 0, d5 := b.getLsbD 1, d6 := b.getLsbD 2,
                d7 := b.getLsbD 3, bl := s.pin.bl }

/-- 60_exceptions.md R207: after a failed write the latch of the pin holds its old level or the level written, after a
failed configuration its enable stays as it was, and everything else either one leaves, and its `raise` after it, is
determined, as 41_transmit.md R115, R116 and 60_exceptions.md R197, R198 say. -/
def Obligations.FailedPinActionsLeaveThis : Prop :=
  ∀ (p : Pin) (v : Bool) (s : State) (rest : List Bool), s.ioFault = true :: rest →
    (∃ level : Bool, (level = s.pin.get p ∨ level = v) ∧
      let u := { s with pin := s.pin.set p level, tr := s.tr ++ [.wf p v], ioFault := rest, draws := s.draws + 1 }
      s.pinWrite p v = .failed (.transmission p) u ∧
      u.raise (.transmission p) =
        { u with fkind := if s.fkind = .none then .transmission else s.fkind,
                 fpin := if s.fkind = .none then p else s.fpin, life := .faulted,
                 rspStatus := .transmission, rspCause := p.id, rspValid := true, busy := false, seq := 0 }) ∧
    (let u := { s with tr := s.tr ++ [.cf p], ioFault := rest }
     s.pinConfigure p = .failed (.resource p) u ∧
     u.raise (.resource p) =
      { u with fkind := .resource, fpin := p, life := .faulted,
               rspStatus := .resource, rspCause := p.id, rspValid := true, busy := false, seq := 0 })

/-- `E` is low after every instruction that starts with `E` low, unless the write that failed is one of `E` itself: no
other pin write lies between a rise and its fall (41_transmit.md R127, R129). -/
def Obligations.EnableIsLowUnlessItsOwnWriteFailed : Prop :=
  ∀ (i : Instr) (s t : State), s.pin.e = false → exec i s = .next t → t.pin.e = true →
    t.rspStatus = .transmission ∧ t.rspCause = Pin.e.id ∧ t.life = .faulted ∧
      t.tr.getLast? ∈ [some (.wf .e true), some (.wf .e false)]

/-- `XMIT b, m` in Cleared sends the byte, answers OK and changes nothing else (41_transmit.md R122, R127, R128;
60_exceptions.md R195). -/
def Obligations.XmitCompletes : Prop :=
  ∀ (m : Mode) (b : Byte) (s : State), s.life = .cleared → SoundPins s →
    exec (.xmit m b) s = .next
      { s with pin := levelsAfter b m s.pin, tr := s.tr ++ transmitEvents b m,
               ioFault := s.ioFault.drop (13 + popcount b), dly := 0, seq := 0, busy := false, rspValid := true,
               rspStatus := .ok, rspCause := 0#3 }

/-- Running any of the nine LCD-bus instructions in Cleared is `Transmit` of its byte with its mode, with nothing else
changed and no answer (30_encoding.md R81, R82; 41_transmit.md R122); in any other lifecycle value it leaves everything
as it is. That one can be run by itself, and in Cleared only, is the model's choice (log 3), and so is counting its
actions in `SEQ` only while `BUSY` = 1 (log 23). -/
def Obligations.LcdInstructionsTransmitTheirByte : Prop :=
  ∀ (i : Instr) (w : LcdWord) (s : State), encode i = .lcd w →
    (s.life ≠ .cleared → exec i s = .next s) ∧
    (s.life = .cleared → SoundPins s → exec i s = .next
      { s with pin := levelsAfter (w.extractLsb' 0 8) (Mode.ofBit (w.getLsbD 8)) s.pin
               tr := s.tr ++ transmitEvents (w.extractLsb' 0 8) (Mode.ofBit (w.getLsbD 8))
               ioFault := s.ioFault.drop (13 + popcount (w.extractLsb' 0 8))
               dly := 0
               seq := if s.busy then s.seq + (19 + popcount (w.extractLsb' 0 8)) else s.seq })

/-! ### Construction and release -/

/-- `CONSTRUCT` from Uninitialized: the seven pins claimed, the six bytes, the wait, the blink, and the end state of
42_init_release.md R141 (42_init_release.md R135 to R141). -/
def Obligations.ConstructCompletes : Prop :=
  ∀ s : State, s.life = .uninitialized → SoundPins s →
    exec .construct s = .next
      { s with cfg := { s.cfg with backlight := true }, life := .cleared, oe := Lines.all true,
               pin := { rs := false, e := false, d4 := true, d5 := false, d6 := false, d7 := false, bl := true },
               tr := s.tr ++ constructEvents s.cfg,
               ioFault := s.ioFault.drop (88 + ((initializerBytes s.cfg).map popcount).sum),
               dly := 0, seq := 0, busy := false, rspValid := true, rspStatus := .ok, rspCause := 0#3 }

/-- The bytes of a `CONSTRUCT` from reset, whatever `CFG_RESET` holds: 0x33, 0x32, function-set, display-control,
entry-mode, 0x01, all Commands (42_init_release.md R138). -/
def Obligations.ConstructSendsSixBytes : Prop :=
  ∀ c : Cfg, ∃ t, exec .construct (State.resetWith c) = .next t ∧
    bytes t.tr = [(false, 0x33#8), (false, 0x32#8), (false, functionSetByte c), (false, displayControlByte c),
                  (false, entryModeByte c), (false, 0x01#8)]

/-- With `CFG_RESET` a `CONSTRUCT` is 141 actions: 7 configurations, 95 pin writes, 39 waits (42_init_release.md R141);
the bytes are those of 42_init_release.md R139. -/
def Obligations.ConstructFromResetCounts : Prop :=
  ∃ t, exec .construct State.reset = .next t ∧ t.tr.length = 141 ∧ t.tr.countP Event.isWrite = 95 ∧
    t.tr.countP Event.isWait = 39 ∧ clean t.tr = true ∧ t.cfg.pack = 0x0A3#9 ∧
    bytes t.tr = [(false, 0x33#8), (false, 0x32#8), (false, 0x28#8), (false, 0x0C#8), (false, 0x06#8), (false, 0x01#8)]

/-- While `CONSTRUCT` runs, `LIFE` goes Uninitialized, BusReset, Configured, Cleared in that order, each entered when the
actions before it have completed (10_state.md R25; 42_init_release.md R137, R138). In which tick the register is
written is the model's choice (log 13). -/
def Obligations.ConstructStepsThroughItsLifecycle : Prop :=
  ∀ (s : State) (k : Nat), s.cmdl.word = 0x1000#16 → s.busy = true → s.seq = 0 → s.dly = 0 → s.raising = none →
    s.inputs = [] → s.life = .uninitialized → SoundPins s → (ticks k s).busy = true →
      let p := popcount (functionSetByte s.cfg) + popcount (displayControlByte s.cfg) + popcount (entryModeByte s.cfg)
      (ticks k s).life =
        if (ticks k s).seq < 52 then .uninitialized
        else if (ticks k s).seq < 109 + p then .busReset
        else if (ticks k s).seq < 130 + p then .configured
        else .cleared

/-- 60_exceptions.md R198: the failing configuration of pin p ends `CONSTRUCT` with a Resource error; the pins before p
stay claimed, p and those after it do not, and nothing has been transmitted. -/
def Obligations.FailedConfigurationIsAResourceError : Prop :=
  ∀ (s : State) (p : Pin) (rest : List Bool), s.life = .uninitialized → s.oe = Lines.all false →
    s.ioFault = List.replicate p.id.toNat false ++ true :: rest →
    ∃ t, exec .construct s = .next t ∧
      t.rspStatus = .resource ∧ t.rspCause = p.id ∧ t.rspValid = true ∧ t.busy = false ∧ t.seq = 0 ∧
      t.fkind = .resource ∧ t.fpin = p ∧ t.life = .faulted ∧
      (∀ q : Pin, t.oe.get q = decide (q.id.toNat < p.id.toNat)) ∧
      t.tr = s.tr ++ ([.rs, .e, .d4, .d5, .d6, .d7, .bl].take p.id.toNat).map .cfg ++ [.cf p] ∧
      t.pin = s.pin ∧ t.cfg = s.cfg ∧ t.ioFault = rest

/-- 42_init_release.md R143: where `RELEASE` is admitted it releases all seven pins, moves to Released and answers OK
whatever `io_fault` is, with nothing else changed, so every pin goes undriven; in Released it is answered BAD_STATE. -/
def Obligations.ReleaseCompletes : Prop :=
  encode .release = .host 0xA000#16 ∧
  ∀ s : State,
    (s.life = .uninitialized ∨ s.life = .cleared ∨ s.life = .faulted →
      exec .release s = .next
        { s with oe := Lines.all false, life := .released, tr := s.tr ++ [.rel], seq := 0, busy := false,
                 rspValid := true, rspStatus := .ok, rspCause := 0#3 }) ∧
    (s.life = .released →
      exec .release s = .next
        { s with seq := 0, busy := false, rspValid := true, rspStatus := .validation, rspCause := 5#3 }) ∧
    (∀ t, exec .release s = .next t → t.life = .released → s.life ≠ .released → ∀ p, (outputs t).pin p = none)

/-- 60_exceptions.md R194, its table: a legal command in a lifecycle value that does not admit it is answered VALIDATION,
BAD_STATE (5) with nothing else changed; in one that admits it, it is never answered so. For BusReset and Configured the
table says only that they are never seen at acceptance; that a command meeting one of the two is answered BAD_STATE is
the model's deduction (log 20, DEDUCED), not a row of the table. -/
def Obligations.AdmissionByLifecycle : Prop :=
  ∀ (i : Instr) (w : Word) (s : State), encode i = .host w →
    ∃ t, exec i s = .next t ∧
      (s.life ∉ admittedIn i →
        t = { s with rspStatus := .validation, rspCause := 5#3, rspValid := true, busy := false, seq := 0 }) ∧
      (s.life ∈ admittedIn i → ¬(t.rspStatus = .validation ∧ t.rspCause = 5#3))

/-! ### The display controller -/

/-- `CLEAR` in Cleared sends 0x01, waits `CLEAR_SETTLE` and answers OK (43_display_control.md R150). -/
def Obligations.ClearCompletes : Prop :=
  ∀ s : State, s.life = .cleared → SoundPins s →
    exec .clear s = .next
      { s with pin := levelsAfter 0x01#8 .command s.pin,
               tr := s.tr ++ transmitEvents 0x01#8 .command ++ [.z Config.clearSettle],
               ioFault := s.ioFault.drop 14, dly := 0, seq := 0, busy := false, rspValid := true,
               rspStatus := .ok, rspCause := 0#3 }

/-- `HOME` in Cleared sends 0x02 and answers OK, with no wait after the byte's own (43_display_control.md R151). -/
def Obligations.HomeCompletes : Prop :=
  ∀ s : State, s.life = .cleared → SoundPins s →
    exec .home s = .next
      { s with pin := levelsAfter 0x02#8 .command s.pin, tr := s.tr ++ transmitEvents 0x02#8 .command,
               ioFault := s.ioFault.drop 14, dly := 0, seq := 0, busy := false, rspValid := true,
               rspStatus := .ok, rspCause := 0#3 }

/-- `SET_BACKLIGHT v` in Cleared writes the flag and pin `BL`, whatever they held, and nothing else
(43_display_control.md R153, R154). -/
def Obligations.SetBacklightCompletes : Prop :=
  ∀ (v : Bool) (s : State), s.life = .cleared → SoundPins s →
    exec (.setBacklight v) s = .next
      { s with cfg := { s.cfg with backlight := v }, pin := { s.pin with bl := v }, tr := s.tr ++ [.w .bl v],
               ioFault := s.ioFault.drop 1, seq := 0, busy := false, rspValid := true, rspStatus := .ok,
               rspCause := 0#3 }

/-- `SET_CURSOR v` and `SET_BLINK v` in Cleared write their field, then send the display-control byte of the new `CFG`
(43_display_control.md R152, R153, R155, R156). -/
def Obligations.CursorAndBlinkTogglesComplete : Prop :=
  ∀ (v : Bool) (s : State), s.life = .cleared → SoundPins s →
    (let c := { s.cfg with cursor := v }
     exec (.setCursor v) s = .next
      { s with cfg := c, pin := levelsAfter (displayControlByte c) .command s.pin,
               tr := s.tr ++ transmitEvents (displayControlByte c) .command,
               ioFault := s.ioFault.drop (13 + popcount (displayControlByte c)), dly := 0, seq := 0, busy := false,
               rspValid := true, rspStatus := .ok, rspCause := 0#3 }) ∧
    (let c := { s.cfg with blink := v }
     exec (.setBlink v) s = .next
      { s with cfg := c, pin := levelsAfter (displayControlByte c) .command s.pin,
               tr := s.tr ++ transmitEvents (displayControlByte c) .command,
               ioFault := s.ioFault.drop (13 + popcount (displayControlByte c)), dly := 0, seq := 0, busy := false,
               rspValid := true, rspStatus := .ok, rspCause := 0#3 })

/-- `SET_DISPLAY 1` in Cleared writes the field and sends the byte and forces no other flag; `SET_DISPLAY 0` does so and
then switches the backlight off, flag and pin (43_display_control.md R157). -/
def Obligations.SetDisplayCompletes : Prop :=
  ∀ s : State, s.life = .cleared → SoundPins s →
    (let c := { s.cfg with display := true }
     exec (.setDisplay true) s = .next
      { s with cfg := c, pin := levelsAfter (displayControlByte c) .command s.pin,
               tr := s.tr ++ transmitEvents (displayControlByte c) .command,
               ioFault := s.ioFault.drop (13 + popcount (displayControlByte c)), dly := 0, seq := 0, busy := false,
               rspValid := true, rspStatus := .ok, rspCause := 0#3 }) ∧
    (let c := { s.cfg with display := false }
     exec (.setDisplay false) s = .next
      { s with cfg := { s.cfg with display := false, backlight := false },
               pin := { levelsAfter (displayControlByte c) .command s.pin with bl := false },
               tr := s.tr ++ transmitEvents (displayControlByte c) .command ++ [.w .bl false],
               ioFault := s.ioFault.drop (14 + popcount (displayControlByte c)), dly := 0, seq := 0, busy := false,
               rspValid := true, rspStatus := .ok, rspCause := 0#3 })

/-! ### The text layout engine -/

/-- `RENDER` with valid operands in Cleared fills `LINEBUF`, sends the line address as a Command and the twenty cells as
Data, answers OK and changes nothing else (44_text_render.md R170, R176, R178). -/
def Obligations.RenderCompletes : Prop :=
  ∀ (j : Justify) (line : Byte) (s : State), s.life = .cleared → SoundPins s → s.cmdl.len.toNat ≤ 20 →
    j ≠ .noVariant → line ∈ [0x80#8, 0xC0#8, 0x94#8, 0xD4#8] →
    let buf := padLine s.cmdl.len.toNat j s.cmdl.chars
    exec (.render j line) s = .next
      { s with lineBuf := buf, pin := levelsAfter buf[19] .data s.pin, tr := s.tr ++ renderEvents line buf,
               ioFault := s.ioFault.drop (273 + popcount line + (buf.toList.map popcount).sum),
               dly := 0, seq := 0, busy := false, rspValid := true, rspStatus := .ok, rspCause := 0#3 }

/-- The bytes of a `RENDER` that is answered OK: the line address as a Command, then the twenty cells as Data, left to
right, and nothing else (44_text_render.md R178). -/
def Obligations.RenderSendsAddressThenCells : Prop :=
  ∀ (j : Justify) (line : Byte) (s t : State), clean s.tr = true → (latched s.tr).length % 2 = 0 →
    exec (.render j line) s = .next t → t.rspStatus = .ok →
      t.lineBuf = padLine s.cmdl.len.toNat j s.cmdl.chars ∧
      bytes t.tr = bytes s.tr ++ (false, line) :: t.lineBuf.toList.map fun c => (true, c)

/-- 44_text_render.md R179, with the cells of R176: twenty cells, the text contiguous and in order at `lead`, padding
bytes 0x20 elsewhere, and the split of the padding for each justification. -/
def Obligations.PaddedLineHoldsTheText : Prop :=
  ∀ (len : Nat) (j : Justify) (chars : Row), len ≤ 20 → j ≠ .noVariant →
    ∃ lead trail : Nat, lead + trail = 20 - len ∧
      (padLine len j chars).toList.length = 20 ∧
      (padLine len j chars).toList =
        List.replicate lead 0x20#8 ++ chars.toList.take len ++ List.replicate trail 0x20#8 ∧
      (j = .left → lead = 0) ∧ (j = .right → trail = 0) ∧
      (j = .center → lead = (20 - len) / 2 ∧ trail - lead = (20 - len) % 2 ∧ lead ≤ trail)

/-- 44_text_render.md R180, the whole table: for every length, the padding in front of and behind a centered text. -/
def Obligations.CenterPaddingTable : Prop :=
  (List.range 21).map (fun len => (leadPad len .center, 20 - len - leadPad len .center)) =
    [(10, 10), (9, 10), (9, 9), (8, 9), (8, 8), (7, 8), (7, 7), (6, 7), (6, 6), (5, 6), (5, 5),
     (4, 5), (4, 4), (3, 4), (3, 3), (2, 3), (2, 2), (1, 2), (1, 1), (0, 1), (0, 0)]

/-- A `RENDER` in Cleared that fails a check is answered with the first cause in the order length, justification, line,
and changes no state but the response registers (44_text_render.md R171 to R174, R182; 60_exceptions.md R196, R200). -/
def Obligations.RenderValidation : Prop :=
  ∀ (j : Justify) (line : Byte) (s : State), s.life = .cleared →
    let answer := fun cause : BitVec 3 =>
      { s with rspStatus := .validation, rspCause := cause, rspValid := true, busy := false, seq := 0 }
    (20 < s.cmdl.len.toNat → exec (.render j line) s = .next (answer 1#3)) ∧
    (s.cmdl.len.toNat ≤ 20 → j = .noVariant → exec (.render j line) s = .next (answer 2#3)) ∧
    (s.cmdl.len.toNat ≤ 20 → j ≠ .noVariant → line ∉ [0x80#8, 0xC0#8, 0x94#8, 0xD4#8] →
      exec (.render j line) s = .next (answer 3#3))

/-- The lanes at and beyond the length have no effect on a `RENDER`, whatever `io_fault` does (20_memory.md R52;
44_text_render.md R182). -/
def Obligations.LanesBeyondTheLengthHaveNoEffect : Prop :=
  ∀ (j : Justify) (line : Byte) (s : State) (chars : Row),
    (∀ (k : Nat) (h : k < 20), k < s.cmdl.len.toNat → chars[k] = s.cmdl.chars[k]) →
    ∃ t, exec (.render j line) s = .next t ∧
      exec (.render j line) { s with cmdl := { s.cmdl with chars := chars } } =
        .next { t with cmdl := { t.cmdl with chars := chars } }

/-- A `RENDER` that is admitted and valid is 400 to 563 actions long, and no admitted command is longer than 563, so ten
bits of `SEQ` suffice (10_state.md R33; 44_text_render.md R178). -/
def Obligations.ActionListsAreBounded : Prop :=
  (∀ (line : Byte) (cells : Row), line ∈ [0x80#8, 0xC0#8, 0x94#8, 0xD4#8] →
    (renderEvents line cells).length = 19 + popcount line + (cells.toList.map fun c => 19 + popcount c).sum ∧
    400 ≤ (renderEvents line cells).length ∧ (renderEvents line cells).length ≤ 563) ∧
  (∀ (i : Instr) (p : Procedure) (s : State), procedureOf i = some p → p.check s = none →
    (p.ops (p.setup s)).length ≤ 563)

/-! ### Steps and reset -/

/-- A step runs the decoded instruction: of an idle block, the command presented, latched whole, or the LCD-bus
instruction handed to the transmitter (20_memory.md R66; 30_encoding.md R70). The unit of a step and the second clause
are the model's choice (log 1, log 3). -/
def Obligations.StepRunsTheDecodedInstruction : Prop :=
  (∀ (s : State) (c : Command) (rest : List Input) (i : Instr),
    s.busy = false → s.inputs = .command c :: rest → decodeHost c.word = .ok i →
      step s = exec i
        { s with inputs := rest, cmdl := c, busy := true, seq := 0, rspValid := false, raising := none }) ∧
  (∀ (s : State) (w : LcdWord) (rest : List Input) (i : Instr),
    s.busy = false → s.inputs = .transmit w :: rest → decodeLcd w = .ok i →
      step s = exec i { s with inputs := rest, rspValid := false })

/-- Every step answers a next state: no instruction, no word and no error stops the block (60_exceptions.md R203). -/
def Obligations.EveryStepAnswersANextState : Prop :=
  (∀ s : State, ∃ t, step s = .next t) ∧ (∀ (i : Instr) (s : State), ∃ t, exec i s = .next t)

/-- Reset wins over everything and gives every register the value the spec states for it, whatever the block was doing,
in a step and in a tick; no command is accepted and no `io_fault` is sampled in it (70_reset_and_hazards.md R221;
10_state.md R38; 60_exceptions.md R201). -/
def Obligations.ResetWinsOverEverything : Prop :=
  ∀ (s : State) (rest : List Input) (cmdValid : Bool), s.inputs = .reset :: rest →
    ∃ t, step s = .next t ∧ tick true cmdValid { s with inputs := rest } = t ∧
      t.cfg.pack = 0x0A2#9 ∧ t.life = .uninitialized ∧ t.pin = Lines.all false ∧ t.oe = Lines.all false ∧
      t.fkind = .none ∧ t.fpin = .rs ∧ t.busy = false ∧ t.rspValid = false ∧ t.rspStatus = .ok ∧ t.rspCause = 0#3 ∧
      t.dly = 0 ∧ t.seq = 0 ∧ t.raising = none ∧ t.tr = [] ∧ t.inputs = rest ∧ t.ioFault = s.ioFault

/-! ### Whole-machine rules -/

/-- The state after reset meets the invariant of an idle block. -/
def Obligations.ResetMeetsTheIdleInvariant : Prop := IdleInv State.reset

/-- Every step of a block that meets the invariant gives one that meets it: the rules of 10_state.md R25, R29, R33,
41_transmit.md R126, R127, 40_flag_encoder.md R108 and 60_exceptions.md R199 hold in every run, whatever is presented to
the block. -/
def Obligations.StepsKeepTheIdleInvariant : Prop :=
  ∀ s t : State, IdleInv s → step s = .next t → IdleInv t

/-- 60_exceptions.md R199: after a fatal error `FKIND` and `FPIN` keep it, `LIFE` stays Faulted until a `RELEASE`, and
`TR` grows by at most one `Rel`, in every run without a reset; the only command admitted is `RELEASE`. -/
def Obligations.AFatalErrorIsForGood : Prop :=
  (∀ (k : Nat) (s : State), IdleInv s → s.fkind ≠ .none → (∀ x ∈ s.inputs, x ≠ .reset) →
    (runSteps k s).fkind = s.fkind ∧ (runSteps k s).fpin = s.fpin ∧
    (((runSteps k s).life = s.life ∧ (runSteps k s).tr = s.tr) ∨
      (s.life = .faulted ∧ (runSteps k s).life = .released ∧ (runSteps k s).tr = s.tr ++ [.rel]))) ∧
  (∀ (i : Instr) (w : Word), encode i = .host w → (.faulted ∈ admittedIn i ↔ i = .release))

/-- A second fatal error cannot occur (60_exceptions.md R205): a step that answers one finds none recorded, so the guard
of R197 is true there, and records the one it answers; once one is recorded a step performs no action that could fail. -/
def Obligations.NoSecondFatalError : Prop :=
  ∀ s t : State, IdleInv s → step s = .next t →
    (t.rspValid = true → t.rspStatus = .transmission ∨ t.rspStatus = .resource →
      s.fkind = .none ∧ t.fkind.code = t.rspStatus.code ∧ t.fpin.id = t.rspCause ∧ t.life = .faulted ∧
        t.busy = false) ∧
    (s.fkind ≠ .none → (∀ rest, s.inputs ≠ .reset :: rest) → ∃ es, t.tr = s.tr ++ es ∧ pinActions es = 0)

/-- With infallible pins no fatal error is reachable (60_exceptions.md R206), from a state with no `raise` to come
(log 14). -/
def Obligations.SoundPinsMeetNoFatalError : Prop :=
  ∀ s t : State, SoundPins s → s.fkind = .none → s.raising = none → step s = .next t →
    SoundPins t ∧ t.fkind = .none ∧ t.raising = none

/-- What each instruction may write, whatever `io_fault` does: everything else is as before (10_state.md R23, R26, R28,
R31; 20_memory.md R60, R64; 40_flag_encoder.md R105, R108; 43_display_control.md R158). -/
def Obligations.InstructionFrames : Prop :=
  ∀ (i : Instr) (s t : State), exec i s = .next t →
    t.cmdl = s.cmdl ∧ t.inputs = s.inputs ∧ t.raising = s.raising ∧ (∃ es, t.tr = s.tr ++ es) ∧
    t.cfg.entryDirection = s.cfg.entryDirection ∧ t.cfg.entryShift = s.cfg.entryShift ∧
    t.cfg.busWidth = s.cfg.busWidth ∧ t.cfg.lineCount = s.cfg.lineCount ∧ t.cfg.font = s.cfg.font ∧
    ((∀ v, i ≠ .setCursor v) → t.cfg.cursor = s.cfg.cursor) ∧
    ((∀ v, i ≠ .setBlink v) → t.cfg.blink = s.cfg.blink) ∧
    ((∀ v, i ≠ .setDisplay v) → t.cfg.display = s.cfg.display) ∧
    (writesBacklight i = false → t.cfg.backlight = s.cfg.backlight ∧ t.pin.bl = s.pin.bl) ∧
    (writesBus i = false → ∀ p, p ≠ .bl → t.pin.get p = s.pin.get p) ∧
    (i ≠ .construct → i ≠ .release → t.oe = s.oe ∧ (t.life = s.life ∨ t.life = .faulted)) ∧
    ((∀ j line, i ≠ .render j line) → t.lineBuf = s.lineBuf) ∧
    (t.rspStatus = .ok ∨ t.rspStatus = .validation →
      (∃ w, encode i = .host w) → t.fkind = s.fkind ∧ t.fpin = s.fpin)

/-- The five fields without a setter are never written after reset, by any step (10_state.md R23). -/
def Obligations.FixedFieldsAreNeverWritten : Prop :=
  ∀ s t : State, (∀ rest, s.inputs ≠ .reset :: rest) → step s = .next t →
    t.cfg.entryDirection = s.cfg.entryDirection ∧ t.cfg.entryShift = s.cfg.entryShift ∧
    t.cfg.busWidth = s.cfg.busWidth ∧ t.cfg.lineCount = s.cfg.lineCount ∧ t.cfg.font = s.cfg.font

/-- A failing pin action cuts any instruction at that action: what a run with infallible pins would append, up to the
k-th pin action, that one failed and nothing after it; the error is recorded and the block is Faulted
(41_transmit.md R129; 44_text_render.md R181; 60_exceptions.md R192, R193, R197, R198, R203). That an LCD-bus
instruction run by itself is answered so, though no command was accepted, is the model's choice (log 3). -/
def Obligations.AFaultCutsTheInstructionAtItsAction : Prop :=
  ∀ (i : Instr) (s t0 : State) (es : List Event) (k : Nat) (rest : List Bool),
    exec i { s with ioFault := [] } = .next t0 → t0.tr = s.tr ++ es → k < pinActions es → s.fkind = .none →
    ∃ t e, exec i { s with ioFault := List.replicate k false ++ true :: rest } = .next t ∧
      t.tr = s.tr ++ cutAtFault k es ∧ (es.filter Event.isPinAction)[k]? = some e ∧
      t.life = .faulted ∧ t.busy = false ∧ t.seq = 0 ∧ t.rspValid = true ∧ t.ioFault = rest ∧
      (∀ p v, e = .w p v → t.rspStatus = .transmission ∧ t.rspCause = p.id ∧ t.fkind = .transmission ∧ t.fpin = p) ∧
      (∀ p, e = .cfg p → t.rspStatus = .resource ∧ t.rspCause = p.id ∧ t.fkind = .resource ∧ t.fpin = p)

/-- The in-memory value and what the controller was last told do not diverge: as long as nothing sends a raw
display-control byte, as an `XMIT` or as an LCD-bus instruction by itself, the last display-control byte sent is that of
`CFG` whenever the block is Cleared (10_state.md R23; 43_display_control.md R152 to R157;
70_reset_and_hazards.md R231). -/
def Obligations.DisplayByteFollowsTheConfiguration : Prop :=
  ∀ s t : State, IdleInv s → DisplayByteCurrent s →
    (∀ x rest, s.inputs = x :: rest → x.sendsRawDisplayControl = false) →
    step s = .next t → DisplayByteCurrent t

/-! ### Ticks -/

/-- The clock-level machine refines the step: from an idle block with a command presented, ticking gives exactly the
state the step gives, after one tick of acceptance, the ticks of the events the command appends, and one tick of
response; it is busy and answers nothing before (30_encoding.md R80; 10_state.md R33; 70_reset_and_hazards.md R240). A
failing action takes its own tick and the response the next, like any other. -/
def Obligations.TicksRunTheStep : Prop :=
  ∀ (s : State) (c : Command) (rest : List Input), s.busy = false → s.dly = 0 → s.inputs = .command c :: rest →
    ∃ t es, step s = .next t ∧ t.tr = s.tr ++ es ∧
      (let n := 1 + duration es + 1
       ticks n s = t ∧ ∀ k, 0 < k → k < n → (ticks k s).busy = true ∧ (ticks k s).rspValid = false)

/-- A step of a block that is part-way through a command, inside a wait or between a failed action and its response too,
gives what the step that ran the command whole gives. That a step of such a block finishes the command is the model's
choice (log 17, DESIGN CHOICE); that it comes to the same end is what this says of it. -/
def Obligations.StepFinishesARunningCommand : Prop :=
  ∀ (s : State) (c : Command) (rest : List Input) (k : Nat), s.busy = false → s.dly = 0 →
    s.inputs = .command c :: rest → (∀ rest', rest ≠ .reset :: rest') → 0 < k →
    (∀ j, 0 < j → j ≤ k → (ticks j s).busy = true) → step (ticks k s) = step s

/-- A running command takes nothing from the port and is not changed by it; a response lasts one tick
(10_state.md R30, R31; 20_memory.md R61, R66; 30_encoding.md R80). -/
def Obligations.BusyBlockLeavesThePortAlone : Prop :=
  ∀ (s : State) (cmdValid : Bool),
    (s.busy = true → (tick false cmdValid s).inputs = s.inputs ∧ (tick false cmdValid s).cmdl = s.cmdl ∧
      ∀ ins, tick false (!cmdValid) { s with inputs := ins } = { tick false cmdValid s with inputs := ins }) ∧
    (s.busy = false → (tick false cmdValid s).rspValid = false ∧
      (tick false cmdValid s).rspStatus = s.rspStatus ∧ (tick false cmdValid s).rspCause = s.rspCause)

/-- The value of `io_fault` matters only in a tick that performs a `PinConfigure` or a `PinWrite`: in every other tick
it could have been anything (60_exceptions.md R201, R206). -/
def Obligations.IoFaultMattersOnlyAtPinActions : Prop :=
  ∀ (s : State) (cmdValid : Bool) (fs : List Bool),
    (∀ e, (tick false cmdValid s).tr = s.tr ++ [e] → e.isPinAction = false) →
    tick false cmdValid { s with ioFault := fs } = { tick false cmdValid s with ioFault := fs }

/-- 70_reset_and_hazards.md R241: the duration of a `Transmit`, from the fall of `E` in its high-nibble phase to that in
its low-nibble phase, and from its last fall of `E` to the first of the next `Transmit`. -/
def Obligations.TransmitTiming : Prop :=
  ∀ (b : Byte) (m : Mode),
    duration (transmitEvents b m) = 13 + popcount b + 4 * Config.eDelay + 2 * Config.ePulse ∧
    ∃ xs ys zs : List Event,
      transmitEvents b m = xs ++ Event.w .e false :: (ys ++ Event.w .e false :: zs) ∧
      (∀ es ∈ [xs, ys, zs], Event.w .e false ∉ es) ∧
      duration (ys ++ [Event.w .e false]) = 2 * Config.eDelay + Config.ePulse + 6 + popcount (b &&& 0xF#8) ∧
      ∀ (b' : Byte) (m' : Mode), ∃ us vs : List Event,
        transmitEvents b' m' = us ++ Event.w .e false :: vs ∧ Event.w .e false ∉ us ∧
        duration (zs ++ us ++ [Event.w .e false]) = 2 * Config.eDelay + Config.ePulse + 7 + popcount (b' >>> 4)

/-- 70_reset_and_hazards.md R242, its table: the ticks between acceptance and response of each command that runs to its
end, and none for one that fails validation. -/
def Obligations.CommandDurations : Prop :=
  let T := fun b : Byte => 13 + popcount b + 4 * Config.eDelay + 2 * Config.ePulse
  (∃ t, exec .construct State.reset = .next t ∧
    duration t.tr = 7 + T 0x33#8 + T 0x32#8 + T 0x28#8 + T 0x0C#8 + T 0x06#8 + T 0x01#8 + Config.eDelay + 3 +
      2 * Config.blinkDelay ∧
    duration t.tr = 102 + 25 * Config.eDelay + 12 * Config.ePulse + 2 * Config.blinkDelay) ∧
  (∀ (s : State) (c : Command) (rest : List Input), s.busy = false → s.inputs = .command c :: rest →
    illegalWord c.word = true → ∃ t, step s = .next t ∧ t.rspStatus = .validation ∧ t.tr = s.tr) ∧
  ∀ (i : Instr) (w : Word) (s t : State), encode i = .host w → exec i s = .next t →
    ∃ es, t.tr = s.tr ++ es ∧
      (t.rspStatus = .validation → duration es = 0) ∧
      (t.rspStatus = .ok →
        (∀ m b, i = .xmit m b → duration es = T b) ∧
        (i = .clear → duration es = 14 + 4 * Config.eDelay + 2 * Config.ePulse + Config.clearSettle) ∧
        (i = .home → duration es = 14 + 4 * Config.eDelay + 2 * Config.ePulse) ∧
        (∀ v, i = .setBacklight v → duration es = 1) ∧
        (∀ v, i = .setCursor v ∨ i = .setBlink v → duration es = T (displayControlByte t.cfg)) ∧
        (i = .setDisplay true → duration es = T (displayControlByte t.cfg)) ∧
        (i = .setDisplay false → duration es = T (displayControlByte t.cfg) + 1) ∧
        (∀ j line, i = .render j line →
          duration es = 273 + popcount line + (t.lineBuf.toList.map popcount).sum +
            84 * Config.eDelay + 42 * Config.ePulse) ∧
        (i = .release → duration es = 1))
end

