-- ==== Sys2Proof/Laws/State.lean ====
section
/-! SUPPORT. What each state operation does to each field, so that no later proof unfolds a record update. -/

namespace Sys2Proof.Machine

/-! ### Lines -/

@[simp] theorem Lines.get_all (v : Bool) (p : Pin) : (Lines.all v).get p = v := by cases p <;> rfl

@[simp] theorem Lines.get_set_self (l : Lines) (p : Pin) (v : Bool) : (l.set p v).get p = v := by cases p <;> rfl

theorem Lines.get_set_other (l : Lines) {p q : Pin} (h : q ≠ p) (v : Bool) : (l.set p v).get q = l.get q := by
  cases p <;> cases q <;> first | rfl | exact absurd rfl h

/-- Two sets of lines with the same bits are the same. -/
theorem Lines.ext_get {l l' : Lines} (h : ∀ p, l.get p = l'.get p) : l = l' := by
  cases l; cases l'
  have h1 := h .rs; have h2 := h .e; have h3 := h .d4; have h4 := h .d5
  have h5 := h .d6; have h6 := h .d7; have h7 := h .bl
  simp only [Lines.get] at h1 h2 h3 h4 h5 h6 h7
  subst h1 h2 h3 h4 h5 h6 h7; rfl

@[simp] theorem Lines.set_get_self (l : Lines) (p : Pin) : l.set p (l.get p) = l := by
  cases l; cases p <;> rfl

theorem Lines.set_bl (l : Lines) (p : Pin) (v : Bool) (h : p ≠ .bl) : (l.set p v).bl = l.bl := by
  cases p <;> first | rfl | exact absurd rfl h

/-! ### The common end of a command -/

section EndCommand
variable (st : Status) (c : BitVec 3) (s : State)

@[simp] theorem endCommand_cfg : (s.endCommand st c).cfg = s.cfg := rfl
@[simp] theorem endCommand_life : (s.endCommand st c).life = s.life := rfl
@[simp] theorem endCommand_pin : (s.endCommand st c).pin = s.pin := rfl
@[simp] theorem endCommand_oe : (s.endCommand st c).oe = s.oe := rfl
@[simp] theorem endCommand_lineBuf : (s.endCommand st c).lineBuf = s.lineBuf := rfl
@[simp] theorem endCommand_fkind : (s.endCommand st c).fkind = s.fkind := rfl
@[simp] theorem endCommand_fpin : (s.endCommand st c).fpin = s.fpin := rfl
@[simp] theorem endCommand_busy : (s.endCommand st c).busy = false := rfl
@[simp] theorem endCommand_rspValid : (s.endCommand st c).rspValid = true := rfl
@[simp] theorem endCommand_rspStatus : (s.endCommand st c).rspStatus = st := rfl
@[simp] theorem endCommand_rspCause : (s.endCommand st c).rspCause = c := rfl
@[simp] theorem endCommand_cmdl : (s.endCommand st c).cmdl = s.cmdl := rfl
@[simp] theorem endCommand_dly : (s.endCommand st c).dly = s.dly := rfl
@[simp] theorem endCommand_seq : (s.endCommand st c).seq = 0 := rfl
@[simp] theorem endCommand_tr : (s.endCommand st c).tr = s.tr := rfl
@[simp] theorem endCommand_inputs : (s.endCommand st c).inputs = s.inputs := rfl
@[simp] theorem endCommand_ioFault : (s.endCommand st c).ioFault = s.ioFault := rfl
@[simp] theorem endCommand_draws : (s.endCommand st c).draws = s.draws := rfl
@[simp] theorem endCommand_raising : (s.endCommand st c).raising = s.raising := rfl

end EndCommand

/-! ### `raise Transmission(p)` -/

section RaiseTransmission
variable (p : Pin) (s : State)

@[simp] theorem raiseTransmission_cfg : (s.raiseTransmission p).cfg = s.cfg := rfl
@[simp] theorem raiseTransmission_life : (s.raiseTransmission p).life = .faulted := rfl
@[simp] theorem raiseTransmission_pin : (s.raiseTransmission p).pin = s.pin := rfl
@[simp] theorem raiseTransmission_oe : (s.raiseTransmission p).oe = s.oe := rfl
@[simp] theorem raiseTransmission_lineBuf : (s.raiseTransmission p).lineBuf = s.lineBuf := rfl
@[simp] theorem raiseTransmission_fkind :
    (s.raiseTransmission p).fkind = if s.fkind = .none then .transmission else s.fkind := rfl
@[simp] theorem raiseTransmission_fpin :
    (s.raiseTransmission p).fpin = if s.fkind = .none then p else s.fpin := rfl
@[simp] theorem raiseTransmission_busy : (s.raiseTransmission p).busy = false := rfl
@[simp] theorem raiseTransmission_rspValid : (s.raiseTransmission p).rspValid = true := rfl
@[simp] theorem raiseTransmission_rspStatus : (s.raiseTransmission p).rspStatus = .transmission := rfl
@[simp] theorem raiseTransmission_rspCause : (s.raiseTransmission p).rspCause = p.id := rfl
@[simp] theorem raiseTransmission_cmdl : (s.raiseTransmission p).cmdl = s.cmdl := rfl
@[simp] theorem raiseTransmission_dly : (s.raiseTransmission p).dly = s.dly := rfl
@[simp] theorem raiseTransmission_seq : (s.raiseTransmission p).seq = 0 := rfl
@[simp] theorem raiseTransmission_tr : (s.raiseTransmission p).tr = s.tr := rfl
@[simp] theorem raiseTransmission_inputs : (s.raiseTransmission p).inputs = s.inputs := rfl
@[simp] theorem raiseTransmission_ioFault : (s.raiseTransmission p).ioFault = s.ioFault := rfl
@[simp] theorem raiseTransmission_draws : (s.raiseTransmission p).draws = s.draws := rfl
@[simp] theorem raiseTransmission_raising : (s.raiseTransmission p).raising = s.raising := rfl

end RaiseTransmission

/-! ### `raise Resource(p)` -/

section RaiseResource
variable (p : Pin) (s : State)

@[simp] theorem raiseResource_cfg : (s.raiseResource p).cfg = s.cfg := rfl
@[simp] theorem raiseResource_life : (s.raiseResource p).life = .faulted := rfl
@[simp] theorem raiseResource_pin : (s.raiseResource p).pin = s.pin := rfl
@[simp] theorem raiseResource_oe : (s.raiseResource p).oe = s.oe := rfl
@[simp] theorem raiseResource_lineBuf : (s.raiseResource p).lineBuf = s.lineBuf := rfl
@[simp] theorem raiseResource_fkind : (s.raiseResource p).fkind = .resource := rfl
@[simp] theorem raiseResource_fpin : (s.raiseResource p).fpin = p := rfl
@[simp] theorem raiseResource_busy : (s.raiseResource p).busy = false := rfl
@[simp] theorem raiseResource_rspValid : (s.raiseResource p).rspValid = true := rfl
@[simp] theorem raiseResource_rspStatus : (s.raiseResource p).rspStatus = .resource := rfl
@[simp] theorem raiseResource_rspCause : (s.raiseResource p).rspCause = p.id := rfl
@[simp] theorem raiseResource_cmdl : (s.raiseResource p).cmdl = s.cmdl := rfl
@[simp] theorem raiseResource_dly : (s.raiseResource p).dly = s.dly := rfl
@[simp] theorem raiseResource_seq : (s.raiseResource p).seq = 0 := rfl
@[simp] theorem raiseResource_tr : (s.raiseResource p).tr = s.tr := rfl
@[simp] theorem raiseResource_inputs : (s.raiseResource p).inputs = s.inputs := rfl
@[simp] theorem raiseResource_ioFault : (s.raiseResource p).ioFault = s.ioFault := rfl
@[simp] theorem raiseResource_draws : (s.raiseResource p).draws = s.draws := rfl
@[simp] theorem raiseResource_raising : (s.raiseResource p).raising = s.raising := rfl

end RaiseResource

/-! ### The `raise` of a failed action -/

section Raise
variable (r : Raise) (s : State)

@[simp] theorem raise_cfg : (s.raise r).cfg = s.cfg := by cases r <;> rfl
@[simp] theorem raise_life : (s.raise r).life = .faulted := by cases r <;> rfl
@[simp] theorem raise_pin : (s.raise r).pin = s.pin := by cases r <;> rfl
@[simp] theorem raise_oe : (s.raise r).oe = s.oe := by cases r <;> rfl
@[simp] theorem raise_lineBuf : (s.raise r).lineBuf = s.lineBuf := by cases r <;> rfl
@[simp] theorem raise_busy : (s.raise r).busy = false := by cases r <;> rfl
@[simp] theorem raise_rspValid : (s.raise r).rspValid = true := by cases r <;> rfl
@[simp] theorem raise_cmdl : (s.raise r).cmdl = s.cmdl := by cases r <;> rfl
@[simp] theorem raise_dly : (s.raise r).dly = s.dly := by cases r <;> rfl
@[simp] theorem raise_seq : (s.raise r).seq = 0 := by cases r <;> rfl
@[simp] theorem raise_tr : (s.raise r).tr = s.tr := by cases r <;> rfl
@[simp] theorem raise_inputs : (s.raise r).inputs = s.inputs := by cases r <;> rfl
@[simp] theorem raise_ioFault : (s.raise r).ioFault = s.ioFault := by cases r <;> rfl
@[simp] theorem raise_draws : (s.raise r).draws = s.draws := by cases r <;> rfl
@[simp] theorem raise_raising : (s.raise r).raising = s.raising := by cases r <;> rfl

/-- A `raise` answers with a fatal status. -/
theorem raise_rspStatus : (s.raise r).rspStatus = .transmission ∨ (s.raise r).rspStatus = .resource := by
  cases r
  · exact .inl rfl
  · exact .inr rfl

end Raise

/-! ### Accepting and idling -/

section Accept
variable (c : Command) (s : State)

@[simp] theorem accept_cfg : (s.accept c).cfg = s.cfg := rfl
@[simp] theorem accept_life : (s.accept c).life = s.life := rfl
@[simp] theorem accept_pin : (s.accept c).pin = s.pin := rfl
@[simp] theorem accept_oe : (s.accept c).oe = s.oe := rfl
@[simp] theorem accept_lineBuf : (s.accept c).lineBuf = s.lineBuf := rfl
@[simp] theorem accept_fkind : (s.accept c).fkind = s.fkind := rfl
@[simp] theorem accept_fpin : (s.accept c).fpin = s.fpin := rfl
@[simp] theorem accept_busy : (s.accept c).busy = true := rfl
@[simp] theorem accept_rspValid : (s.accept c).rspValid = false := rfl
@[simp] theorem accept_rspStatus : (s.accept c).rspStatus = s.rspStatus := rfl
@[simp] theorem accept_rspCause : (s.accept c).rspCause = s.rspCause := rfl
@[simp] theorem accept_cmdl : (s.accept c).cmdl = c := rfl
@[simp] theorem accept_dly : (s.accept c).dly = s.dly := rfl
@[simp] theorem accept_seq : (s.accept c).seq = 0 := rfl
@[simp] theorem accept_tr : (s.accept c).tr = s.tr := rfl
@[simp] theorem accept_inputs : (s.accept c).inputs = s.inputs := rfl
@[simp] theorem accept_ioFault : (s.accept c).ioFault = s.ioFault := rfl
@[simp] theorem accept_draws : (s.accept c).draws = s.draws := rfl
@[simp] theorem accept_raising : (s.accept c).raising = none := rfl

end Accept

/-! ### The register writes beside an action -/

section Op
variable (op : Op) (s : State)

/-- The value of `CFG.backlight` after the write in front of an action. -/
def Op.backlightOr (op : Op) (v : Bool) : Bool := op.backlight.getD v

theorem Op.before_eq : op.before s = { s with cfg := { s.cfg with backlight := op.backlightOr s.cfg.backlight } } := by
  unfold Op.before Op.backlightOr; cases op.backlight <;> rfl

theorem Op.after_eq : op.after s = { s with life := op.life.getD s.life } := by
  unfold Op.after; cases op.life <;> rfl

end Op

/-! ### Cells of the padded line -/

theorem padLine_getElem (len : Nat) (j : Justify) (chars : Row) (i : Nat) (h : i < 20) :
    (padLine len j chars)[i] =
      if leadPad len j ≤ i ∧ i < leadPad len j + len then
        chars[i - leadPad len j]'(Nat.lt_of_le_of_lt (Nat.sub_le _ _) h)
      else padChar := by
  simp [padLine]

end Sys2Proof.Machine
end

