-- ==== Sys2Proof/Laws/Run.lean ====
section
/-! SUPPORT. What running a list of actions can do, said once: every action succeeds (`succeedAll`), or the list stops
at the first pin action that meets `io_fault` = 1. -/

namespace Sys2Proof.Machine

/-- The event a successful action appends. -/
def Prim.event : Prim → Event
  | .configure p => .cfg p
  | .write p v => .w p v
  | .wait n => .z n
  | .releaseAll => .rel

/-- The events of a list of actions that all succeed. -/
def eventsOf (ops : List Op) : List Event := ops.map fun op => op.prim.event

/-- The output enables after a list of events. -/
def enables (l : Lines) : List Event → Lines
  | [] => l
  | .cfg p :: es => enables (l.set p true) es
  | .w _ _ :: es => enables l es
  | .wf _ _ :: es => enables l es
  | .cf _ :: es => enables l es
  | .z _ :: es => enables l es
  | .rel :: es => enables (Lines.all false) es

/-- `CFG.backlight` after the writes in a list of actions. -/
def backlightAfter (v : Bool) (ops : List Op) : Bool := ops.foldl (fun v op => op.backlightOr v) v

/-- `LIFE` after the writes in a list of actions. -/
def lifeAfter (l : Life) (ops : List Op) : Life := ops.foldl (fun l op => op.life.getD l) l

/-- The state after one action that succeeds. -/
def Op.succeed (op : Op) (s : State) : State :=
  { s with
    cfg := { s.cfg with backlight := op.backlightOr s.cfg.backlight }
    life := op.life.getD s.life
    pin := replay s.pin [op.prim.event]
    oe := enables s.oe [op.prim.event]
    tr := s.tr ++ [op.prim.event]
    ioFault := s.ioFault.drop (pinActions [op.prim.event])
    dly := if op.prim.event.isWait then 0 else s.dly
    seq := s.seqNext }

/-- The partial effect of one action that fails: its register write in front is done, nothing after it
(41_transmit.md R115, R116). -/
def Op.cut (op : Op) (s : State) : State :=
  match op.prim with
  | .configure p => { op.before s with ioFault := s.ioFault.tail, tr := s.tr ++ [.cf p] }
  | .write p v =>
    { op.before s with
      pin := s.pin.set p (s.levelAfterFailedWrite p v), draws := s.draws + 1,
      ioFault := s.ioFault.tail, tr := s.tr ++ [.wf p v] }
  | .wait _ => s
  | .releaseAll => s

/-- What one action raises when it fails; the two that cannot fail are given the `raise` of pin `RS`. -/
def Op.raises (op : Op) : Raise :=
  match op.prim with
  | .configure p => .resource p
  | .write p _ => .transmission p
  | .wait _ => .transmission .rs
  | .releaseAll => .transmission .rs

/-- The state after one action that fails and the `raise` of it. -/
def Op.fail (op : Op) (s : State) : State := (op.cut s).raise op.raises

/-- The event of one failed action, and all that is the same for a write and a configuration. -/
theorem Op.cut_eq {op : Op} (h : op.prim.event.isPinAction = true) (s : State) :
    ∃ pin draws, op.cut s =
      { op.before s with
        pin := pin, draws := draws, ioFault := s.ioFault.tail, tr := s.tr ++ [op.prim.event.failed] } := by
  rcases op with ⟨b, pr, l⟩
  cases pr with
  | configure p => exact ⟨s.pin, s.draws, by simp [Op.cut, Op.before_eq, Prim.event, Event.failed]⟩
  | write p v => exact ⟨_, _, rfl⟩
  | wait n => simp [Prim.event, Event.isPinAction] at h
  | releaseAll => simp [Prim.event, Event.isPinAction] at h

/-- The state after a list of actions that all succeed. -/
def succeedAll (ops : List Op) (s : State) : State := ops.foldl (fun s op => op.succeed s) s

@[simp] theorem succeedAll_nil (s : State) : succeedAll [] s = s := rfl

@[simp] theorem succeedAll_cons (op : Op) (ops : List Op) (s : State) :
    succeedAll (op :: ops) s = succeedAll ops (op.succeed s) := rfl

theorem succeedAll_append (xs ys : List Op) (s : State) :
    succeedAll (xs ++ ys) s = succeedAll ys (succeedAll xs s) := by
  simp [succeedAll, List.foldl_append]

/-- One action: it succeeds, unless it samples `io_fault` and finds it 1. -/
theorem Op.perform_eq (op : Op) (s : State) :
    op.perform s =
      if op.prim.event.isPinAction && s.ioFaultNow then .failed op.raises (op.cut s) else .going (op.succeed s) := by
  rcases op with ⟨bl, prim, life⟩
  cases prim <;> cases h : s.ioFaultNow <;>
    simp_all [Op.perform, Prim.perform, Op.succeed, Op.cut, Op.raises, Op.before_eq, Op.after_eq, Prim.event, Event.isPinAction,
      State.pinConfigure, State.pinWrite, State.wait, State.pinReleaseAll, State.ioFaultNow, replay, enables,
      pinActions, Event.isWait, State.seqNext, State.levelAfterFailedWrite]

/-- A list of actions run to its end, or stopped at the first pin action that meets `io_fault` = 1. -/
theorem runOps_cases (ops : List Op) (s : State) :
    runOps ops s = .going (succeedAll ops s) ∨
      ∃ done op rest, ops = done ++ op :: rest ∧ op.prim.event.isPinAction = true ∧
        (succeedAll done s).ioFaultNow = true ∧ runOps ops s = .failed op.raises (op.cut (succeedAll done s)) := by
  induction ops generalizing s with
  | nil => exact .inl rfl
  | cons op ops ih =>
    rw [runOps, Op.perform_eq]
    split_ifs with h
    · refine .inr ⟨[], op, ops, rfl, ?_, ?_, rfl⟩ <;> simp_all
    · rcases ih (op.succeed s) with h1 | ⟨done, op', rest, h1, h2, h3, h4⟩
      · exact .inl h1
      · exact .inr ⟨op :: done, op', rest, by simp [h1], h2, h3, h4⟩

/-! ### What success does to each field -/

theorem replay_append (l : Lines) (xs ys : List Event) : replay l (xs ++ ys) = replay (replay l xs) ys := by
  induction xs generalizing l with
  | nil => rfl
  | cons x xs ih => cases x <;> simp [replay, ih]

theorem enables_append (l : Lines) (xs ys : List Event) : enables l (xs ++ ys) = enables (enables l xs) ys := by
  induction xs generalizing l with
  | nil => rfl
  | cons x xs ih => cases x <;> simp [enables, ih]

@[simp] theorem pinActions_append (xs ys : List Event) : pinActions (xs ++ ys) = pinActions xs + pinActions ys := by
  simp [pinActions]

@[simp] theorem clean_append (xs ys : List Event) : clean (xs ++ ys) = (clean xs && clean ys) := by
  simp [clean]

@[simp] theorem duration_append (xs ys : List Event) : duration (xs ++ ys) = duration xs + duration ys := by
  simp [duration]

theorem pinActions_cons (e : Event) (es : List Event) :
    pinActions (e :: es) = (if e.isPinAction then 1 else 0) + pinActions es := by
  simp [pinActions, List.countP_cons]; omega

theorem clean_cons (e : Event) (es : List Event) : clean (e :: es) = (!e.isFailure && clean es) := by simp [clean]

theorem duration_cons (e : Event) (es : List Event) : duration (e :: es) = e.ticks + duration es := by simp [duration]

@[simp] theorem eventsOf_nil : eventsOf [] = [] := rfl

@[simp] theorem eventsOf_cons (op : Op) (ops : List Op) : eventsOf (op :: ops) = op.prim.event :: eventsOf ops := rfl

@[simp] theorem eventsOf_append (xs ys : List Op) : eventsOf (xs ++ ys) = eventsOf xs ++ eventsOf ys := by
  simp [eventsOf]

/-- The whole state after a list of actions that all succeed. -/
theorem succeedAll_eq (ops : List Op) (s : State) :
    succeedAll ops s =
      { s with
        cfg := { s.cfg with backlight := backlightAfter s.cfg.backlight ops }
        life := lifeAfter s.life ops
        pin := replay s.pin (eventsOf ops)
        oe := enables s.oe (eventsOf ops)
        tr := s.tr ++ eventsOf ops
        ioFault := s.ioFault.drop (pinActions (eventsOf ops))
        dly := if (eventsOf ops).any Event.isWait then 0 else s.dly
        seq := if s.busy then s.seq + ops.length else s.seq } := by
  induction ops generalizing s with
  | nil =>
    simp [backlightAfter, lifeAfter, eventsOf, replay, enables, pinActions]
  | cons op ops ih =>
    rw [succeedAll_cons, ih]
    have e1 : eventsOf (op :: ops) = [op.prim.event] ++ eventsOf ops := rfl
    rw [e1, replay_append, enables_append, pinActions_append]
    rcases hb : s.busy with _ | _
    all_goals
      simp only [Op.succeed, State.seqNext, hb, backlightAfter, lifeAfter, List.foldl_cons, List.drop_drop,
        List.append_assoc, List.any_append, List.any_cons, List.any_nil, Bool.or_false, List.length_cons]
      cases op.prim.event.isWait <;> simp [Nat.add_assoc, Nat.add_comm 1]

/-- Without `io_fault` the whole list runs. -/
theorem runOps_sound (ops : List Op) (s : State) (h : SoundPins s) : runOps ops s = .going (succeedAll ops s) := by
  rcases runOps_cases ops s with h1 | ⟨done, op, rest, -, -, h3, -⟩
  · exact h1
  · exfalso
    rw [succeedAll_eq] at h3
    simp only [State.ioFaultNow] at h3
    rw [List.headD_eq_head?_getD] at h3
    rcases hd : (s.ioFault.drop (pinActions (eventsOf done))).head? with _ | b
    · simp [hd] at h3
    · have hm : b ∈ s.ioFault := List.mem_of_mem_drop (List.mem_of_mem_head? hd)
      have := h b hm
      simp [hd, this] at h3

end Sys2Proof.Machine
end

