-- ==== Sys2Proof/Laws/Transmit.lean ====
section
/-! SUPPORT. The transmitter: its list of actions, the events, pin levels and latched nibbles it leaves
(41_transmit.md R119 to R127). -/

namespace Sys2Proof.Machine

/-! ### Events of the lists of actions -/

@[simp] theorem eventsOf_setLineOps (p : Pin) (b : Bool) : eventsOf (setLineOps p b) = setLineEvents p b := by
  cases b <;> rfl

@[simp] theorem eventsOf_presentNibbleOps (n : Nibble) : eventsOf (presentNibbleOps n) = presentEvents n := by
  simp [presentNibbleOps, presentEvents, writeOp, Prim.event]

@[simp] theorem eventsOf_pulseEnableOps : eventsOf pulseEnableOps = pulseEvents := rfl

/-- `Transmit(b, m)` appends the events the spec prints for it (41_transmit.md R122). -/
@[simp] theorem eventsOf_transmitOps (b : Byte) (m : Mode) : eventsOf (transmitOps b m) = transmitEvents b m := by
  have : eventsOf (transmitOps b m) =
      .w .rs (rsLevel m) :: eventsOf (nibblePhaseOps (hiNibble b) ++ nibblePhaseOps (loNibble b)) := rfl
  rw [this]
  simp [nibblePhaseOps, transmitEvents]

/-! ### A line of the pin, then the four clears and sets -/

/-- The number of 1 bits of a nibble. -/
def popcount4 (n : Nibble) : Nat :=
  (n.getLsbD 0).toNat + (n.getLsbD 1).toNat + (n.getLsbD 2).toNat + (n.getLsbD 3).toNat

theorem popcount_split (b : Byte) : popcount b = popcount4 (hiNibble b) + popcount4 (loNibble b) := by
  simp [popcount, popcount4, hiNibble, loNibble]; omega

theorem popcount_le (b : Byte) : popcount b ≤ 8 := by
  have h (x : Bool) : x.toNat ≤ 1 := by cases x <;> simp
  have := h (b.getLsbD 0); have := h (b.getLsbD 1); have := h (b.getLsbD 2); have := h (b.getLsbD 3)
  have := h (b.getLsbD 4); have := h (b.getLsbD 5); have := h (b.getLsbD 6); have := h (b.getLsbD 7)
  simp only [popcount]; omega

theorem length_setLineEvents (p : Pin) (b : Bool) : (setLineEvents p b).length = b.toNat := by cases b <;> rfl

theorem length_presentEvents (n : Nibble) : (presentEvents n).length = 4 + popcount4 n := by
  simp [presentEvents, length_setLineEvents, popcount4]; omega

/-- The number of actions of a `Transmit` (41_transmit.md R123). -/
theorem length_transmitEvents (b : Byte) (m : Mode) : (transmitEvents b m).length = 19 + popcount b := by
  simp [transmitEvents, length_presentEvents, pulseEvents, popcount_split]; omega

theorem pinActions_setLineEvents (p : Pin) (b : Bool) : pinActions (setLineEvents p b) = b.toNat := by cases b <;> rfl

theorem pinActions_presentEvents (n : Nibble) : pinActions (presentEvents n) = 4 + popcount4 n := by
  simp [presentEvents, pinActions_setLineEvents, pinActions_cons, Event.isPinAction, popcount4]; omega

theorem pinActions_pulseEvents : pinActions pulseEvents = 2 := rfl

/-- The number of pin writes of a `Transmit` (41_transmit.md R123). -/
@[simp] theorem pinActions_transmitEvents (b : Byte) (m : Mode) : pinActions (transmitEvents b m) = 13 + popcount b := by
  simp [transmitEvents, pinActions_cons, pinActions_presentEvents, pinActions_pulseEvents, Event.isPinAction,
    popcount_split]
  omega

theorem clean_setLineEvents (p : Pin) (b : Bool) : clean (setLineEvents p b) = true := by cases b <;> rfl

theorem clean_presentEvents (n : Nibble) : clean (presentEvents n) = true := by
  simp [presentEvents, clean_setLineEvents, clean_cons, Event.isFailure]

@[simp] theorem clean_transmitEvents (b : Byte) (m : Mode) : clean (transmitEvents b m) = true := by
  have h : clean pulseEvents = true := rfl
  simp [transmitEvents, clean_cons, clean_presentEvents, Event.isFailure, h]

theorem duration_setLineEvents (p : Pin) (b : Bool) : duration (setLineEvents p b) = b.toNat := by cases b <;> rfl

theorem duration_presentEvents (n : Nibble) : duration (presentEvents n) = 4 + popcount4 n := by
  simp [presentEvents, duration_setLineEvents, popcount4, duration_cons, Event.ticks]; omega

theorem duration_pulseEvents : duration pulseEvents = 2 + 2 * Config.eDelay + Config.ePulse := by
  simp [duration, pulseEvents, Event.ticks]; omega

/-- The duration of a `Transmit` (70_reset_and_hazards.md R241). -/
@[simp] theorem duration_transmitEvents (b : Byte) (m : Mode) :
    duration (transmitEvents b m) = 13 + popcount b + 4 * Config.eDelay + 2 * Config.ePulse := by
  simp [transmitEvents, duration_cons, duration_presentEvents, duration_pulseEvents, popcount_split, Event.ticks]; omega

/-! ### Pin levels -/

theorem replay_setLineEvents (l : Lines) (p : Pin) (b : Bool) :
    replay l (setLineEvents p b) = if b then l.set p true else l := by cases b <;> rfl

theorem replay_presentEvents (l : Lines) (n : Nibble) :
    replay l (presentEvents n) =
      { l with d4 := n.getLsbD 0, d5 := n.getLsbD 1, d6 := n.getLsbD 2, d7 := n.getLsbD 3 } := by
  simp only [presentEvents, replay_append, replay_setLineEvents]
  cases n.getLsbD 0 <;> cases n.getLsbD 1 <;> cases n.getLsbD 2 <;> cases n.getLsbD 3 <;> rfl

theorem replay_pulseEvents (l : Lines) : replay l pulseEvents = { l with e := false } := rfl

/-- The pin levels after a `Transmit` (41_transmit.md R127). -/
@[simp] theorem replay_transmitEvents (l : Lines) (b : Byte) (m : Mode) :
    replay l (transmitEvents b m) = levelsAfter b m l := by
  simp [transmitEvents, replay, replay_append, replay_presentEvents, replay_pulseEvents, levelsAfter, Lines.set,
    loNibble]

theorem enables_setLineEvents (l : Lines) (p : Pin) (b : Bool) : enables l (setLineEvents p b) = l := by
  cases b <;> rfl

theorem enables_presentEvents (l : Lines) (n : Nibble) : enables l (presentEvents n) = l := by
  simp [presentEvents, enables, enables_append, enables_setLineEvents]

theorem enables_pulseEvents (l : Lines) : enables l pulseEvents = l := rfl

@[simp] theorem enables_transmitEvents (l : Lines) (b : Byte) (m : Mode) : enables l (transmitEvents b m) = l := by
  simp [transmitEvents, enables, enables_append, enables_presentEvents, enables_pulseEvents]

/-- A `Transmit` waits. -/
@[simp] theorem any_isWait_transmitEvents (b : Byte) (m : Mode) : (transmitEvents b m).any Event.isWait = true := by
  simp [transmitEvents, pulseEvents, Event.isWait]

/-! ### No register write stands inside a `Transmit` -/

/-- The entries of a `Transmit`: writes of pins other than `BL`, and waits. -/
theorem mem_transmitOps {b : Byte} {m : Mode} {op : Op} (h : op ∈ transmitOps b m) :
    (∃ p v, op = writeOp p v ∧ p ≠ .bl) ∨ op = waitOp Config.eDelay ∨ op = waitOp Config.ePulse := by
  have hs {p : Pin} {x : Bool} (hp : p ≠ .bl) (h : op ∈ setLineOps p x) : ∃ p v, op = writeOp p v ∧ p ≠ .bl := by
    cases x <;> simp [setLineOps] at h
    exact ⟨p, true, h, hp⟩
  have hn {n : Nibble} (h : op ∈ nibblePhaseOps n) :
      (∃ p v, op = writeOp p v ∧ p ≠ .bl) ∨ op = waitOp Config.eDelay ∨ op = waitOp Config.ePulse := by
    simp only [nibblePhaseOps, presentNibbleOps, pulseEnableOps, List.mem_append, List.mem_cons, List.not_mem_nil,
      or_false] at h
    rcases h with ((h | h | h | h) | ((h | h) | h) | h) | h | h | h | h | h
    · exact .inl ⟨_, _, h, by decide⟩
    · exact .inl ⟨_, _, h, by decide⟩
    · exact .inl ⟨_, _, h, by decide⟩
    · exact .inl ⟨_, _, h, by decide⟩
    · exact .inl (hs (by decide) h)
    · exact .inl (hs (by decide) h)
    · exact .inl (hs (by decide) h)
    · exact .inl (hs (by decide) h)
    · exact .inr (.inl h)
    · exact .inl ⟨_, _, h, by decide⟩
    · exact .inr (.inr h)
    · exact .inl ⟨_, _, h, by decide⟩
    · exact .inr (.inl h)
  simp only [transmitOps, List.mem_cons, List.mem_append] at h
  rcases h with h | h | h
  · exact .inl ⟨_, _, h, by decide⟩
  · exact hn h
  · exact hn h

theorem plain_transmitOps (b : Byte) (m : Mode) : ∀ op ∈ transmitOps b m, op.backlight = none ∧ op.life = none := by
  intro op h
  rcases mem_transmitOps h with ⟨p, v, rfl, -⟩ | rfl | rfl <;> exact ⟨rfl, rfl⟩

theorem backlightAfter_of_plain (v : Bool) (ops : List Op) (h : ∀ op ∈ ops, op.backlight = none) :
    backlightAfter v ops = v := by
  induction ops generalizing v with
  | nil => rfl
  | cons op ops ih =>
    have h1 := h op (by simp)
    simp only [backlightAfter, List.foldl_cons, Op.backlightOr, h1, Option.getD_none]
    exact ih v fun o ho => h o (by simp [ho])

theorem lifeAfter_of_plain (l : Life) (ops : List Op) (h : ∀ op ∈ ops, op.life = none) : lifeAfter l ops = l := by
  induction ops generalizing l with
  | nil => rfl
  | cons op ops ih =>
    have h1 := h op (by simp)
    simp only [lifeAfter, List.foldl_cons, h1, Option.getD_none]
    exact ih l fun o ho => h o (by simp [ho])

theorem backlightAfter_append (v : Bool) (xs ys : List Op) :
    backlightAfter v (xs ++ ys) = backlightAfter (backlightAfter v xs) ys := by
  simp [backlightAfter, List.foldl_append]

theorem lifeAfter_append (l : Life) (xs ys : List Op) : lifeAfter l (xs ++ ys) = lifeAfter (lifeAfter l xs) ys := by
  simp [lifeAfter, List.foldl_append]

@[simp] theorem backlightAfter_transmitOps (v : Bool) (b : Byte) (m : Mode) :
    backlightAfter v (transmitOps b m) = v :=
  backlightAfter_of_plain _ _ fun op h => (plain_transmitOps b m op h).1

@[simp] theorem lifeAfter_transmitOps (l : Life) (b : Byte) (m : Mode) : lifeAfter l (transmitOps b m) = l :=
  lifeAfter_of_plain _ _ fun op h => (plain_transmitOps b m op h).2

@[simp] theorem length_transmitOps (b : Byte) (m : Mode) : (transmitOps b m).length = 19 + popcount b := by
  rw [← length_transmitEvents b m, ← eventsOf_transmitOps, eventsOf, List.length_map]

/-- `Transmit(b, m)` that meets no fault, whole (41_transmit.md R122, R127). -/
theorem succeedAll_transmitOps (b : Byte) (m : Mode) (s : State) :
    succeedAll (transmitOps b m) s =
      { s with
        pin := levelsAfter b m s.pin
        tr := s.tr ++ transmitEvents b m
        ioFault := s.ioFault.drop (13 + popcount b)
        dly := 0
        seq := if s.busy then s.seq + (19 + popcount b) else s.seq } := by
  rw [succeedAll_eq]; simp

/-! ### What the controller latches -/

/-- Without a failed action, latching goes on from the levels the first part leaves. -/
theorem latchedFrom_append (l : Lines) (xs ys : List Event) (h : clean xs = true) :
    latchedFrom l (xs ++ ys) = latchedFrom l xs ++ latchedFrom (replay l xs) ys := by
  induction xs generalizing l with
  | nil => rfl
  | cons x xs ih =>
    have hx : x.isFailure = false := by simp [clean] at h; exact h.1
    have hxs : clean xs = true := by simp [clean] at h ⊢; exact h.2
    cases x with
    | w p v => simp only [List.cons_append, latchedFrom, replay]; split_ifs <;> simp [ih _ hxs]
    | wf p v => simp [Event.isFailure] at hx
    | cf p => simp [Event.isFailure] at hx
    | cfg p => simpa [latchedFrom, replay] using ih _ hxs
    | z n => simpa [latchedFrom, replay] using ih _ hxs
    | rel => simpa [latchedFrom, replay] using ih _ hxs

theorem latchedFrom_setLineEvents (l : Lines) {p : Pin} (hp : p ≠ .e) (b : Bool) :
    latchedFrom l (setLineEvents p b) = [] := by
  cases b <;> simp [setLineEvents, latchedFrom, hp]

theorem latchedFrom_presentEvents (l : Lines) (n : Nibble) : latchedFrom l (presentEvents n) = [] := by
  simp [presentEvents, latchedFrom_append, clean_setLineEvents, latchedFrom_setLineEvents, latchedFrom]

theorem latchedFrom_pulseEvents (l : Lines) : latchedFrom l pulseEvents = [(l.rs, l.nibble)] := by
  simp [pulseEvents, latchedFrom, Lines.set, Lines.nibble]

theorem nibble_of_bits (n : Nibble) :
    BitVec.ofBool n[3] ++ BitVec.ofBool n[2] ++ BitVec.ofBool n[1] ++ BitVec.ofBool n[0] = n := by
  revert n; decide

/-- The two nibbles one `Transmit` makes the controller latch (41_transmit.md R126). -/
@[simp] theorem latchedFrom_transmitEvents (l : Lines) (b : Byte) (m : Mode) :
    latchedFrom l (transmitEvents b m) = [(rsLevel m, hiNibble b), (rsLevel m, loNibble b)] := by
  have hp : clean pulseEvents = true := rfl
  rw [transmitEvents, latchedFrom, if_neg (by simp)]
  rw [latchedFrom_append _ _ _ (by simp [clean_presentEvents, hp]),
    latchedFrom_append _ _ _ (clean_presentEvents _), latchedFrom_append _ _ _ (clean_presentEvents _)]
  simp [latchedFrom_presentEvents, latchedFrom_pulseEvents, replay_append, replay_presentEvents, replay_pulseEvents,
    Lines.nibble, Lines.set, nibble_of_bits]

/-- After a clean trace whose replay is the given levels, latching goes on from those levels. -/
theorem latched_append (tr es : List Event) (h : clean tr = true) :
    latched (tr ++ es) = latched tr ++ latchedFrom (replay (Lines.all false) tr) es :=
  latchedFrom_append _ _ _ h

theorem pairUp_append (xs ys : List (Bool × Nibble)) (h : xs.length % 2 = 0) :
    pairUp (xs ++ ys) = pairUp xs ++ pairUp ys := by
  match xs with
  | [] => rfl
  | [_] => simp at h
  | a :: b :: rest =>
    have : rest.length % 2 = 0 := by simp at h; omega
    simp [pairUp, pairUp_append rest ys this]

theorem hi_append_lo (b : Byte) : hiNibble b ++ loNibble b = b := by
  apply BitVec.eq_of_getLsbD_eq
  intro i hi
  simp only [hiNibble, loNibble, BitVec.getLsbD_append, BitVec.getLsbD_extractLsb']
  by_cases h : i < 4
  · simp [h]
  · have : i - 4 < 4 := by omega
    simp [h, this, show 4 + (i - 4) = i by omega]

/-- The byte one `Transmit` sends (41_transmit.md R126). -/
theorem bytes_append_transmit (tr es : List Event) (b : Byte) (m : Mode) (h : clean tr = true)
    (he : (latched tr).length % 2 = 0) :
    bytes (tr ++ (transmitEvents b m ++ es)) =
      bytes tr ++ (rsLevel m, b) ::
        pairUp (latchedFrom (levelsAfter b m (replay (Lines.all false) tr)) es) := by
  rw [bytes, latched_append _ _ h, pairUp_append _ _ he, latchedFrom_append _ _ _ (clean_transmitEvents b m)]
  simp [pairUp, hi_append_lo, bytes]

end Sys2Proof.Machine
end

