-- ==== Sys2Proof/Laws/Commands.lean ====
section
/-! SUPPORT. What a command can do, said once for every procedure, and the events of each command's list. -/

namespace Sys2Proof.Machine

/-- Admission is membership in the list of lifecycle values. -/
theorem admitIn_eq_none {lives : List Life} {s : State} : admitIn lives s = none ↔ s.life ∈ lives := by
  simp [admitIn]

theorem whenCleared_eq_none {s : State} : whenCleared s = none ↔ s.life = .cleared := by
  simp [whenCleared, admitIn]

/-- An answer that leaves all but the response registers alone (60_exceptions.md R196). -/
theorem run_of_check {p : Procedure} {s : State} {cause : ValidationCause} (h : p.check s = some cause) :
    p.run s = s.raiseValidation cause := by
  simp [Procedure.run, h]

/-- A command that passes its checks and meets no fault (60_exceptions.md R195). -/
theorem run_of_sound {p : Procedure} {s : State} (hc : p.check s = none) (hs : SoundPins (p.setup s)) :
    p.run s = (succeedAll (p.ops (p.setup s)) (p.setup s)).respondOk := by
  simp [Procedure.run, hc, runOps_sound _ _ hs, Flow.respond]

/-- Everything a command can do: fail a check, run to its end, or stop at the first action that meets `io_fault` = 1. -/
theorem run_cases (p : Procedure) (s : State) :
    (∃ cause, p.check s = some cause ∧ p.run s = s.raiseValidation cause) ∨
    (p.check s = none ∧ p.run s = (succeedAll (p.ops (p.setup s)) (p.setup s)).respondOk) ∨
    (p.check s = none ∧ ∃ done op rest, p.ops (p.setup s) = done ++ op :: rest ∧
      op.prim.event.isPinAction = true ∧ (succeedAll done (p.setup s)).ioFaultNow = true ∧
      p.run s = op.fail (succeedAll done (p.setup s))) := by
  rcases hc : p.check s with _ | cause
  · rcases runOps_cases (p.ops (p.setup s)) (p.setup s) with h | ⟨done, op, rest, h1, h2, h3, h4⟩
    · exact .inr (.inl ⟨rfl, by simp [Procedure.run, hc, h, Flow.respond]⟩)
    · exact .inr (.inr ⟨rfl, done, op, rest, h1, h2, h3, by simp [Procedure.run, hc, h4, Flow.respond, Op.fail]⟩)
  · exact .inl ⟨cause, rfl, run_of_check hc⟩

/-- Everything `Transmit` by itself can do: nothing outside Cleared, else run to its end, or stop at the first write that
meets `io_fault` = 1. -/
theorem transmitAlone_cases (b : Byte) (m : Mode) (s : State) :
    (s.life ≠ .cleared ∧ transmitAlone b m s = s) ∨
    (s.life = .cleared ∧ transmitAlone b m s = succeedAll (transmitOps b m) s) ∨
    (s.life = .cleared ∧ ∃ done op rest, transmitOps b m = done ++ op :: rest ∧ op.prim.event.isPinAction = true ∧
      (succeedAll done s).ioFaultNow = true ∧ transmitAlone b m s = op.fail (succeedAll done s)) := by
  rcases hc : whenCleared s with _ | cause
  · have hl := whenCleared_eq_none.1 hc
    rcases runOps_cases (transmitOps b m) s with h | ⟨done, op, rest, h1, h2, h3, h4⟩
    · exact .inr (.inl ⟨hl, by simp [transmitAlone, hc, h, Flow.raised]⟩)
    · exact .inr (.inr ⟨hl, done, op, rest, h1, h2, h3, by simp [transmitAlone, hc, h4, Flow.raised, Op.fail]⟩)
  · exact .inl ⟨fun h => by simp [whenCleared_eq_none.2 h] at hc, by simp [transmitAlone, hc]⟩

/-- A command answers with its procedure's run. -/
theorem exec_of_procedureOf {i : Instr} {p : Procedure} (h : procedureOf i = some p) (s : State) :
    exec i s = .next (p.run s) := by
  cases i <;> simp only [procedureOf, Option.some.injEq, reduceCtorEq] at h <;> subst h <;> rfl

/-- Every instruction is a command with a procedure, or sends one byte by itself. -/
theorem procedureOf_or_transmit (i : Instr) :
    (∃ p, procedureOf i = some p) ∨ ∃ b m, ∀ s, exec i s = .next (transmitAlone b m s) := by
  cases i
  case lReset33 | lReset32 | lFuncset | lDispctl | lEntry | lClear | lHome | lSetddram | lData =>
    exact .inr ⟨_, _, fun s => rfl⟩
  all_goals exact .inl ⟨_, rfl⟩

/-! ### The list of `CONSTRUCT` -/

theorem prim_thenLife (l : Life) (ops : List Op) : eventsOf (thenLife l ops) = eventsOf ops := by
  match ops with
  | [] => rfl
  | [_] => rfl
  | op :: op' :: ops => simp [thenLife, prim_thenLife l (op' :: ops)]

@[simp] theorem eventsOf_thenLife (l : Life) (ops : List Op) : eventsOf (thenLife l ops) = eventsOf ops :=
  prim_thenLife l ops

@[simp] theorem length_thenLife (l : Life) (ops : List Op) : (thenLife l ops).length = ops.length := by
  match ops with
  | [] => rfl
  | [_] => rfl
  | op :: op' :: ops => simp [thenLife, length_thenLife l (op' :: ops)]

@[simp] theorem backlightAfter_thenLife (v : Bool) (l : Life) (ops : List Op) :
    backlightAfter v (thenLife l ops) = backlightAfter v ops := by
  match ops with
  | [] => rfl
  | [_] => rfl
  | op :: op' :: ops =>
    have := backlightAfter_thenLife (op.backlightOr v) l (op' :: ops)
    simpa [thenLife, backlightAfter] using this

/-- A `LIFE` write after the last of some actions is the last write. -/
theorem lifeAfter_thenLife (l0 l : Life) (ops : List Op) (h : ops ≠ []) : lifeAfter l0 (thenLife l ops) = l := by
  match ops with
  | [] => exact absurd rfl h
  | [_] => rfl
  | op :: op' :: ops =>
    have := lifeAfter_thenLife (op.life.getD l0) l (op' :: ops) (by simp)
    simpa [thenLife, lifeAfter] using this

theorem transmitOps_ne_nil (b : Byte) (m : Mode) : transmitOps b m ≠ [] := by simp [transmitOps]

@[simp] theorem eventsOf_configureOps : eventsOf configureOps = configureEvents := rfl

@[simp] theorem eventsOf_blinkOps : eventsOf blinkOps = blinkEvents := rfl

/-- The events of `CONSTRUCT` (42_init_release.md R135). -/
theorem eventsOf_construct (c : Cfg) :
    eventsOf (configureOps ++ initializerOps c ++ blinkOps) = constructEvents c := by
  simp [initializerOps, constructEvents, initializerBytes, resetByte33, resetByte32, clearByte, waitOp, Prim.event]

theorem lifeAfter_construct (l : Life) (c : Cfg) :
    lifeAfter l (configureOps ++ initializerOps c ++ blinkOps) = .cleared := by
  simp only [lifeAfter_append, initializerOps]
  rw [lifeAfter_thenLife _ .cleared _ (by simp)]
  rfl

theorem backlightAfter_construct (v : Bool) (c : Cfg) :
    backlightAfter v (configureOps ++ initializerOps c ++ blinkOps) = true := by
  rw [backlightAfter_append]; rfl

theorem pinActions_construct (c : Cfg) :
    pinActions (constructEvents c) = 88 + ((initializerBytes c).map popcount).sum := by
  have h1 : pinActions configureEvents = 7 := rfl
  have h2 : pinActions (Event.z Config.eDelay :: blinkEvents) = 3 := rfl
  simp [constructEvents, initializerBytes, h1, h2]; omega

theorem replay_construct (l : Lines) (c : Cfg) :
    replay l (constructEvents c) =
      { rs := false, e := false, d4 := true, d5 := false, d6 := false, d7 := false, bl := true } := by
  simp [constructEvents, initializerBytes, replay_append]
  rfl

theorem enables_construct (l : Lines) (c : Cfg) : enables l (constructEvents c) = Lines.all true := by
  simp [constructEvents, initializerBytes, enables_append]
  rfl

theorem clean_construct (c : Cfg) : clean (constructEvents c) = true := by
  have h1 : clean configureEvents = true := rfl
  have h2 : clean (Event.z Config.eDelay :: blinkEvents) = true := rfl
  simp [constructEvents, initializerBytes, h1, h2]

theorem any_isWait_construct (c : Cfg) : (constructEvents c).any Event.isWait = true := by
  simp [constructEvents, initializerBytes, Event.isWait]

/-! ### The list of `RENDER` -/

theorem eventsOf_flatMap_transmit (cells : List Byte) :
    eventsOf (cells.flatMap fun c => transmitOps c .data) = cells.flatMap fun c => transmitEvents c .data := by
  induction cells with
  | nil => rfl
  | cons c cells ih => simp [ih]

@[simp] theorem eventsOf_streamOps (line : Byte) (cells : Row) : eventsOf (streamOps line cells) = renderEvents line cells := by
  simp [streamOps, renderEvents, eventsOf_flatMap_transmit]

theorem plain_streamOps (line : Byte) (cells : Row) :
    ∀ op ∈ streamOps line cells, op.backlight = none ∧ op.life = none := by
  intro op h
  simp only [streamOps, List.mem_append, List.mem_flatMap] at h
  rcases h with h | ⟨c, -, h⟩
  · exact plain_transmitOps _ _ op h
  · exact plain_transmitOps _ _ op h

theorem replay_flatMap_transmit (l : Lines) (m : Mode) (cells : List Byte) (h : cells ≠ []) :
    replay l (cells.flatMap fun c => transmitEvents c m) = levelsAfter (cells.getLast h) m l := by
  induction cells generalizing l with
  | nil => exact absurd rfl h
  | cons c cells ih =>
    rcases cells with _ | ⟨c', cells⟩
    · simp
    · rw [List.flatMap_cons, replay_append, ih _ (by simp)]
      simp [levelsAfter]

theorem replay_render (l : Lines) (line : Byte) (cells : Row) :
    replay l (renderEvents line cells) = levelsAfter cells[19] .data l := by
  have h : cells.toList ≠ [] := by
    intro e; have := congrArg List.length e; simp at this
  rw [renderEvents, replay_append, replay_flatMap_transmit _ _ _ h]
  simp [levelsAfter, List.getLast_eq_getElem]

theorem enables_flatMap_transmit (l : Lines) (m : Mode) (cells : List Byte) :
    enables l (cells.flatMap fun c => transmitEvents c m) = l := by
  induction cells with
  | nil => rfl
  | cons c cells ih => simp [enables_append, ih]

@[simp] theorem enables_render (l : Lines) (line : Byte) (cells : Row) : enables l (renderEvents line cells) = l := by
  simp [renderEvents, enables_append, enables_flatMap_transmit]

theorem pinActions_flatMap_transmit (m : Mode) (cells : List Byte) :
    pinActions (cells.flatMap fun c => transmitEvents c m) = 13 * cells.length + (cells.map popcount).sum := by
  induction cells with
  | nil => rfl
  | cons c cells ih => simp [ih]; omega

theorem pinActions_render (line : Byte) (cells : Row) :
    pinActions (renderEvents line cells) = 273 + popcount line + (cells.toList.map popcount).sum := by
  simp only [renderEvents, pinActions_append, pinActions_transmitEvents, pinActions_flatMap_transmit,
    Vector.length_toList]
  omega

theorem clean_flatMap_transmit (m : Mode) (cells : List Byte) :
    clean (cells.flatMap fun c => transmitEvents c m) = true := by
  induction cells with
  | nil => rfl
  | cons c cells ih => simp [ih]

@[simp] theorem clean_render (line : Byte) (cells : Row) : clean (renderEvents line cells) = true := by
  simp [renderEvents, clean_flatMap_transmit]

@[simp] theorem any_isWait_render (line : Byte) (cells : Row) : (renderEvents line cells).any Event.isWait = true := by
  rw [renderEvents, List.any_append, any_isWait_transmitEvents]; rfl

/-! ### `RENDER`, whole -/

/-- Stage 2 writes `LINEBUF` and nothing else. Cite it: comparing a filled state with `s` field by field evaluates the
padded line. -/
theorem fillLineBuf_eq (j : Justify) (s : State) :
    fillLineBuf j s = { s with lineBuf := padLine s.cmdl.len.toNat j s.cmdl.chars } := by
  unfold fillLineBuf textLen; exact rfl

theorem fillLineBuf_ioFault (j : Justify) (s : State) : (fillLineBuf j s).ioFault = s.ioFault := by
  rw [fillLineBuf_eq]

/-- The operands that pass every check (60_exceptions.md R200). -/
theorem render_check {j : Justify} {line : Byte} {s : State} (hl : s.life = .cleared) (hlen : s.cmdl.len.toNat ≤ 20)
    (hj : j ≠ .noVariant) (hline : line ∈ [0x80#8, 0xC0#8, 0x94#8, 0xD4#8]) :
    (renderProcedure j line).check s = none := by
  have h2 : isLineAddress line = true := by simpa [isLineAddress, lineAddresses] using hline
  simp only [renderProcedure, checkRender, whenCleared_eq_none.2 hl, renderCheck, textLen, lcdWidth, hj, h2,
    Nat.not_lt.2 hlen, if_false, if_true]

/-- A `RENDER` that passes its checks and meets no fault. -/
theorem run_render {j : Justify} {line : Byte} {s : State} (hc : (renderProcedure j line).check s = none)
    (hs : SoundPins s) :
    (renderProcedure j line).run s =
      (succeedAll (streamOps line (fillLineBuf j s).lineBuf) (fillLineBuf j s)).respondOk := by
  have hs' : SoundPins (fillLineBuf j s) := by rw [SoundPins, fillLineBuf_ioFault]; exact hs
  have h := run_of_sound (p := renderProcedure j line) (s := s) hc hs'
  rw [h]
  simp only [renderProcedure]

/-- The stream that meets no fault, whole (44_text_render.md R178). -/
theorem succeedAll_streamOps (line : Byte) (cells : Row) (s : State) :
    succeedAll (streamOps line cells) s =
      { s with
        pin := levelsAfter cells[19] .data s.pin
        tr := s.tr ++ renderEvents line cells
        ioFault := s.ioFault.drop (273 + popcount line + (cells.toList.map popcount).sum)
        dly := 0
        seq := if s.busy then s.seq + (streamOps line cells).length else s.seq } := by
  have hb := backlightAfter_of_plain s.cfg.backlight _ (fun op h => (plain_streamOps line cells op h).1)
  have hl := lifeAfter_of_plain s.life _ (fun op h => (plain_streamOps line cells op h).2)
  rw [succeedAll_eq]
  simp only [eventsOf_streamOps, replay_render, enables_render, pinActions_render, any_isWait_render, hb, hl, if_true]

/-- The bytes a list of `Transmit` with one mode sends (41_transmit.md R126). -/
theorem bytes_append_flatMap_transmit (tr : List Event) (m : Mode) (cells : List Byte) (h : clean tr = true)
    (he : (latched tr).length % 2 = 0) :
    bytes (tr ++ cells.flatMap fun c => transmitEvents c m) = bytes tr ++ cells.map fun c => (rsLevel m, c) := by
  induction cells generalizing tr with
  | nil => simp
  | cons c cells ih =>
    have h1 : clean (tr ++ transmitEvents c m) = true := by simp [h]
    have h2 : latched (tr ++ transmitEvents c m) =
        latched tr ++ [(rsLevel m, hiNibble c), (rsLevel m, loNibble c)] := by
      rw [latched_append _ _ h]; simp
    have h3 := bytes_append_transmit tr [] c m h he
    simp only [List.append_nil, latchedFrom, pairUp] at h3
    rw [List.flatMap_cons, ← List.append_assoc, ih _ h1 (by rw [h2]; simp; omega), h3]
    simp

end Sys2Proof.Machine
end

