-- ==== Sys2Proof/Laws/PerInstr.lean ====
section
/-! SUPPORT. A law of each instruction as syntax: its encoding lies in exactly one row of the opcode table of its format,
the row of its own mnemonic (30_encoding.md R72, R82). -/

namespace Sys2Proof.Laws.OwnRow

/-- The place of an instruction's row in the table of its format, from 0. -/
def place : Instr → Nat
  | .construct => 0
  | .xmit _ _ => 1
  | .clear => 2
  | .home => 3
  | .setBacklight _ => 4
  | .setCursor _ => 5
  | .setBlink _ => 6
  | .setDisplay _ => 7
  | .render _ _ => 8
  | .release => 9
  | .lReset33 => 0
  | .lReset32 => 1
  | .lFuncset _ _ _ => 2
  | .lDispctl _ _ _ => 3
  | .lEntry _ _ => 4
  | .lClear => 5
  | .lHome => 6
  | .lSetddram _ => 7
  | .lData _ => 8

/-- Which rows of a table admit a word. -/
def rowsOf {n : Nat} (rows : List (TableRow n)) (w : BitVec n) : List Nat :=
  (List.range rows.length).filter fun k => (rows[k]?.map fun r => r.admits w).getD false

/-- The rows that admit the encoding. -/
def admitting (i : Instr) : List Nat :=
  match encode i with
  | .host w => rowsOf hostRows w
  | .lcd w => rowsOf lcdRows w

/-- The encoding lies in its own row and in no other. -/
def Statement (i : Instr) : Prop := admitting i = [place i]

theorem construct : Statement .construct := by unfold Statement; decide

theorem xmit (m : Mode) (b : Byte) : Statement (.xmit m b) := by
  unfold Statement; cases m <;> (revert b; decide)

theorem clear : Statement .clear := by unfold Statement; decide

theorem home : Statement .home := by unfold Statement; decide

theorem setBacklight (v : Bool) : Statement (.setBacklight v) := by unfold Statement; revert v; decide

theorem setCursor (v : Bool) : Statement (.setCursor v) := by unfold Statement; revert v; decide

theorem setBlink (v : Bool) : Statement (.setBlink v) := by unfold Statement; revert v; decide

theorem setDisplay (v : Bool) : Statement (.setDisplay v) := by unfold Statement; revert v; decide

theorem render (j : Justify) (line : Byte) : Statement (.render j line) := by
  unfold Statement; cases j <;> (revert line; decide)

theorem release : Statement .release := by unfold Statement; decide

theorem lReset33 : Statement .lReset33 := by unfold Statement; decide

theorem lReset32 : Statement .lReset32 := by unfold Statement; decide

theorem lFuncset (w n f : Bool) : Statement (.lFuncset w n f) := by unfold Statement; revert w n f; decide

theorem lDispctl (d c b : Bool) : Statement (.lDispctl d c b) := by unfold Statement; revert d c b; decide

theorem lEntry (i s : Bool) : Statement (.lEntry i s) := by unfold Statement; revert i s; decide

theorem lClear : Statement .lClear := by unfold Statement; decide

theorem lHome : Statement .lHome := by unfold Statement; decide

theorem lSetddram (a : BitVec 7) : Statement (.lSetddram a) := by unfold Statement; revert a; decide

theorem lData (c : Byte) : Statement (.lData c) := by unfold Statement; revert c; decide

end Sys2Proof.Laws.OwnRow
end

