-- ==== Sys2Proof/Laws/Shape.lean ====
section
/-! SUPPORT. What any run of a list of actions leaves alone, whether or not it meets `io_fault` = 1, in one lemma
(10_state.md R23; 20_memory.md R60, R64). -/

namespace Sys2Proof.Machine

/-- What any run of a list of actions leaves, whether or not it meets `io_fault` = 1. -/
structure Shape (ops : List Op) (s t : State) : Prop where
  cmdl : t.cmdl = s.cmdl
  inputs : t.inputs = s.inputs
  lineBuf : t.lineBuf = s.lineBuf
  raising : t.raising = s.raising
  tr : ∃ es, t.tr = s.tr ++ es
  cfg : ∃ b, t.cfg = { s.cfg with backlight := b }
  backlight : (∀ op ∈ ops, op.backlight = none) → t.cfg.backlight = s.cfg.backlight
  pin : ∀ q, (∀ op ∈ ops, ∀ v, op.prim ≠ .write q v) → t.pin.get q = s.pin.get q
  oe : (∀ op ∈ ops, ∀ p, op.prim ≠ .configure p) → (∀ op ∈ ops, op.prim ≠ .releaseAll) → t.oe = s.oe
  life : (∀ op ∈ ops, op.life = none) → t.life = s.life ∨ t.life = .faulted

/-- A list of actions that all succeed. -/
theorem Shape.succeedAll (ops : List Op) (s : State) : Shape ops s (succeedAll ops s) := by
  induction ops generalizing s with
  | nil =>
    exact ⟨rfl, rfl, rfl, rfl, ⟨[], by simp⟩, ⟨s.cfg.backlight, rfl⟩, fun _ => rfl, fun _ _ => rfl, fun _ _ => rfl,
      fun _ => .inl rfl⟩
  | cons op ops ih =>
    obtain ⟨h1, h2, h3, h0, ⟨es, h4⟩, ⟨b, h5⟩, h6, h7, h8, h9⟩ := ih (op.succeed s)
    rw [succeedAll_cons]
    refine ⟨h1, h2, h3, h0, ⟨_, h4.trans (by simp [Op.succeed]; rfl)⟩, ⟨b, h5⟩, fun h => ?_, fun q h => ?_,
      fun h h' => ?_, fun h => ?_⟩
    · rw [h6 fun o ho => h o (by simp [ho])]; simp [Op.succeed, Op.backlightOr, h op (by simp)]
    · rw [h7 q fun o ho => h o (by simp [ho])]
      have := h op (by simp)
      rcases op with ⟨b, pr, l⟩
      cases pr with
      | write p v =>
        have : q ≠ p := by rintro rfl; exact this v rfl
        simp [Op.succeed, Prim.event, replay, Lines.get_set_other _ this]
      | _ => simp [Op.succeed, Prim.event, replay]
    · rw [h8 (fun o ho => h o (by simp [ho])) (fun o ho => h' o (by simp [ho]))]
      have := h op (by simp)
      have h'' := h' op (by simp)
      rcases op with ⟨b, pr, l⟩
      cases pr with
      | configure p => exact absurd rfl (this p)
      | releaseAll => exact absurd rfl h''
      | _ => simp [Op.succeed, Prim.event, enables]
    · have := h9 fun o ho => h o (by simp [ho])
      simpa [Op.succeed, h op (by simp)] using this

/-- A list of actions that stops at its first failing action. -/
theorem Shape.fail (done : List Op) (op : Op) (rest : List Op) (s : State) (hp : op.prim.event.isPinAction = true) :
    Shape (done ++ op :: rest) s (op.fail (Machine.succeedAll done s)) := by
  obtain ⟨h1, h2, h3, h0, ⟨es, h4⟩, ⟨b, h5⟩, h6, h7, h8, -⟩ := Shape.succeedAll done s
  have hdone : ∀ {P : Op → Prop}, (∀ o ∈ done ++ op :: rest, P o) → (∀ o ∈ done, P o) ∧ P op :=
    fun h => ⟨fun o ho => h o (by simp [ho]), h op (by simp)⟩
  generalize Machine.succeedAll done s = u at *
  have hpin : ∀ q, (∀ v, op.prim ≠ .write q v) → (op.cut u).pin.get q = u.pin.get q := by
    rintro q h
    rcases op with ⟨bl, pr, l⟩
    cases pr with
    | write p v =>
      have hq : q ≠ p := by rintro rfl; exact h v rfl
      simp [Op.cut, Lines.get_set_other _ hq]
    | _ => simp [Op.cut, Op.before_eq]
  obtain ⟨pin, draws, hc⟩ := Op.cut_eq hp u
  rw [Op.before_eq] at hc
  refine ⟨?_, ?_, ?_, ?_, ?_, ?_, fun h => ?_, fun q h => ?_, fun h h' => ?_, fun _ => .inr (raise_life _ _)⟩
  · simp [Op.fail, hc, h1]
  · simp [Op.fail, hc, h2]
  · simp [Op.fail, hc, h3]
  · simp [Op.fail, hc, h0]
  · exact ⟨es ++ [op.prim.event.failed], by simp [Op.fail, hc, h4]⟩
  · exact ⟨_, by simp [Op.fail, hc, h5]; rfl⟩
  · obtain ⟨hd, ho⟩ := hdone h
    simp [Op.fail, hc, Op.backlightOr, ho, h6 hd]
  · obtain ⟨hd, ho⟩ := hdone h
    rw [Op.fail, raise_pin, hpin q ho, h7 q hd]
  · simp [Op.fail, hc, h8 (hdone h).1 (hdone h').1]

/-- Running a list, in one lemma. -/
theorem runOps_shape (ops : List Op) (s : State) :
    (runOps ops s = .going (succeedAll ops s) ∧ Shape ops s (succeedAll ops s)) ∨
      ∃ r u, runOps ops s = .failed r u ∧ Shape ops s (u.raise r) := by
  rcases runOps_cases ops s with h | ⟨done, op, rest, h1, h2, h3, h4⟩
  · exact .inl ⟨h, Shape.succeedAll _ _⟩
  · exact .inr ⟨_, _, h4, by rw [h1]; exact Shape.fail done op rest s h2⟩

end Sys2Proof.Machine
end

