-- ==== Sys2Proof/Laws/Ticks.lean ====
section
/-! SUPPORT. A command run tick by tick: what one tick of a running command is, how many ticks an action takes, and
that the ticks of the rest of a command give what running it at once gives (30_encoding.md R80; 10_state.md R33;
70_reset_and_hazards.md R240). -/
namespace Sys2Proof.Machine

/-- Two states whose lists of actions are the same for every procedure. -/
def SameList (s s' : State) : Prop := ∃ b, s'.cfg = { s.cfg with backlight := b } ∧ s'.lineBuf = s.lineBuf

theorem SameList.refl (s : State) : SameList s s := ⟨s.cfg.backlight, rfl, rfl⟩

theorem ops_congr {i : Instr} {p : Procedure} (hp : procedureOf i = some p) {s s' : State} (h : SameList s s') :
    p.ops s' = p.ops s := by
  obtain ⟨b, hc, hl⟩ := h
  cases i <;> simp only [procedureOf, Option.some.injEq, reduceCtorEq] at hp <;> subst hp
  all_goals
    simp [constructProcedure, xmitProcedure, clearProcedure, homeProcedure, setBacklightProcedure, setCursorProcedure,
      setBlinkProcedure, setDisplayProcedure, renderProcedure, releaseProcedure, displayControlOps, hc, hl,
      initializerOps, functionSetByte, displayControlByte, entryModeByte]

/-- A block in the middle of a command. -/
structure Running (i : Instr) (p : Procedure) (L : List Op) (s : State) : Prop where
  busy : s.busy = true
  quiet : s.rspValid = false
  calm : s.raising = none
  word : decodeHost s.cmdl.word = .ok i
  proc : procedureOf i = some p
  list : p.ops s = L
  pos : 0 < s.seq

theorem Running.tick {i p L s} (h : Running i p L s) (v : Bool) : tick false v s = tickList L s := by
  have := h.pos
  have h0 : s.seq ≠ 0 := by omega
  simp [Machine.tick, h.busy, State.tickBusy, h.calm, State.tickCommand, h.word, h.proc, Procedure.tick, h0, h.list]

theorem Running.finish {i p L s} (h : Running i p L s) : s.finish = .next (p.runRest s) := by
  have := h.pos
  have h0 : s.seq ≠ 0 := by omega
  simp [State.finish, h.calm, State.finishCommand, h.word, h.proc, h0]

/-- The tick, and the step, after a failed action. -/
theorem held_ends {s : State} (hb : s.busy = true) (hr : s.raising = none) (r : Raise) (v : Bool) :
    tick false v { s with raising := some r } = s.raise r ∧
      State.finish { s with raising := some r } = .next (s.raise r) := by
  cases s; simp only at hb hr; subst hb hr; exact ⟨rfl, rfl⟩

theorem ticks_add (a b : Nat) (s : State) : ticks (a + b) s = ticks b (ticks a s) := by
  induction a generalizing s with
  | zero => simp [ticks]
  | succ a ih => rw [Nat.succ_add]; simp [ticks, ih]


/-- A wait that can be ticked: a positive number of ticks and no write of the backlight flag. -/
def Op.waitOk (op : Op) : Prop := ∀ n, op.prim = .wait n → 0 < n ∧ op.backlight = none

/-- What is true inside a command: busy, silent, and finishing it gives the same state. -/
def Mid (ins : List Input) (t s : State) : Prop :=
  s.busy = true ∧ s.rspValid = false ∧ s.inputs = ins ∧ s.finish = .next t

/-- A failed action, tick by tick: its own tick, then the response. `s` is the state the action finds, `a` the one its
tick starts from: the two differ where register writes stand in front of a command's first action. -/
theorem ticks_fail {a s : State} {op : Op} (hp : op.prim.event.isPinAction = true) (hb : s.busy = true)
    (hq : s.rspValid = false) (hr : s.raising = none)
    (ha : a.busy = true ∧ a.rspValid = false ∧ a.inputs = s.inputs)
    (ht : tick false true a = { op.cut s with raising := some op.raises }) (hf : a.finish = .next (op.fail s)) :
    ∃ ev, (op.fail s).tr = s.tr ++ [ev] ∧ duration [ev] = 1 ∧ ticks 2 a = op.fail s ∧
      ∀ k < 2, Mid s.inputs (op.fail s) (ticks k a) := by
  obtain ⟨pin, draws, hc⟩ := Op.cut_eq hp s
  rw [Op.before_eq] at hc
  have hcb : (op.cut s).busy = true := by rw [hc]; exact hb
  have hcr : (op.cut s).raising = none := by rw [hc]; exact hr
  obtain ⟨e1, e2⟩ := held_ends hcb hcr op.raises true
  refine ⟨op.prim.event.failed, by simp [Op.fail, hc], ?_, by simp only [ticks, ht, e1, Op.fail], fun k hk => ?_⟩
  · rcases op with ⟨b, pr, l⟩
    cases pr <;> first | rfl | simp [Prim.event, Event.isPinAction] at hp
  · rcases k with _ | _ | k
    · exact ⟨ha.1, ha.2.1, ha.2.2, hf⟩
    · simp only [ticks, ht]
      exact ⟨hcb, by rw [hc]; exact hq, by rw [hc], e2⟩
    · omega

theorem Op.succeed_wait {op : Op} {n : Nat} (h : op.prim = .wait n) (hb : op.backlight = none) (s : State) :
    op.succeed s = { s with life := op.life.getD s.life, tr := s.tr ++ [.z n], dly := 0, seq := s.seqNext } := by
  simp [Op.succeed, h, Op.backlightOr, hb, Prim.event, replay, enables, pinActions, Event.isPinAction, Event.isWait]

theorem Op.tick_wait_last {op : Op} {n : Nat} (h : op.prim = .wait n) (hb : op.backlight = none) (s : State) (d : Nat)
    (hd : d = 1 ∨ d = 0 ∧ n = 1) : op.tick { s with dly := d } = op.succeed s := by
  rw [Op.succeed_wait h hb]
  rcases hd with rfl | ⟨rfl, rfl⟩ <;>
    simp [Op.tick, h, State.tickWait, Op.before_eq, Op.after_eq, Op.backlightOr, hb, State.seqNext]

theorem Op.tick_wait_more {op : Op} {n : Nat} (h : op.prim = .wait n) (s : State) (d : Nat)
    (hd : 1 < d) : op.tick { s with dly := d } = { s with dly := d - 1 } := by
  have h0 : d ≠ 0 := by omega
  simp [Op.tick, h, State.tickWait, h0, show ¬ d ≤ 1 by omega]

theorem Op.tick_wait_first {op : Op} {n : Nat} (h : op.prim = .wait n) (hb : op.backlight = none) (s : State)
    (hs : s.dly = 0) (hd : 1 < n) : op.tick s = { s with dly := n - 1 } := by
  simp [Op.tick, h, State.tickWait, hs, show ¬ n ≤ 1 by omega, Op.before_eq, Op.backlightOr, hb]

theorem runRest_dly (p : Procedure) {i : Instr} (hp : procedureOf i = some p) (s : State) (d : Nat) :
    p.runRest { s with dly := d } = p.runRest s := by
  have : p.ops { s with dly := d } = p.ops s := ops_congr hp ⟨s.cfg.backlight, rfl, rfl⟩
  simp [Procedure.runRest, this]

theorem Running.withDly {i p L s} (h : Running i p L s) (d : Nat) : Running i p L { s with dly := d } := by
  exact ⟨h.busy, h.quiet, h.calm, h.word, h.proc,
    by rw [← h.list]; exact ops_congr h.proc ⟨s.cfg.backlight, rfl, rfl⟩, h.pos⟩

theorem State.eta_dly (s : State) {d : Nat} (h : s.dly = d) : { s with dly := d } = s := by cases s; simp_all

/-- The ticks of one wait. -/
theorem ticks_wait {i p L s} (h : Running i p L s) {op : Op} {n : Nat} (hop : L[s.seq]? = some op)
    (hw : op.prim = .wait n) (hb : op.backlight = none) (hn : 0 < n) (hd : s.dly = 0) :
    ticks n s = op.succeed s ∧ ∀ k < n, ∃ d, ticks k s = { s with dly := d } := by
  have loop : ∀ d, ticks (d + 1) { s with dly := d + 1 } = op.succeed s ∧
      ∀ k < d + 1, ∃ d', ticks k { s with dly := d + 1 } = { s with dly := d' } := by
    intro d
    induction d with
    | zero =>
      have h1 := h.withDly 1
      refine ⟨?_, fun k hk => ⟨1, by simp [show k = 0 by omega, ticks]⟩⟩
      simp only [ticks, zero_add]
      rw [h1.tick, tickList]
      simp only [hop]
      exact Op.tick_wait_last hw hb s 1 (.inl rfl)
    | succ d ih =>
      have h1 := h.withDly (d + 1 + 1)
      have e : tick false true { s with dly := d + 1 + 1 } = { s with dly := d + 1 } := by
        rw [h1.tick, tickList]
        simp only [hop]
        exact Op.tick_wait_more hw s _ (by omega)
      refine ⟨by rw [ticks, e]; exact ih.1, fun k hk => ?_⟩
      rcases k with _ | k
      · exact ⟨_, rfl⟩
      · rw [ticks, e]; exact ih.2 k (by omega)
  obtain ⟨m, rfl⟩ : ∃ m, n = m + 1 := ⟨n - 1, by omega⟩
  rcases m with _ | m
  · refine ⟨?_, fun k hk => ⟨s.dly, by simp [show k = 0 by omega, ticks]⟩⟩
    simp only [ticks]
    rw [h.tick, tickList]
    simp only [hop]
    have := Op.tick_wait_last hw hb s 0 (.inr ⟨rfl, rfl⟩)
    rwa [State.eta_dly s hd] at this
  · have e : tick false true s = { s with dly := m + 1 } := by
      rw [h.tick, tickList]
      simp only [hop]
      exact Op.tick_wait_first hw hb s hd (by omega)
    refine ⟨by rw [ticks, e]; exact (loop m).1, fun k hk => ?_⟩
    rcases k with _ | k
    · exact ⟨s.dly, by simp [ticks]⟩
    · rw [ticks, e]; exact (loop m).2 k (by omega)

theorem Running.succeed {i p L s} (h : Running i p L s) (op : Op) : Running i p L (op.succeed s) := by
  exact ⟨h.busy, h.quiet, h.calm, h.word, h.proc, by rw [← h.list]; exact ops_congr h.proc ⟨_, rfl, rfl⟩,
    by simp [Op.succeed, State.seqNext, h.busy]⟩

theorem seq_succeed {i p L s} (h : Running i p L s) (op : Op) : (op.succeed s).seq = s.seq + 1 := by
  simp [Op.succeed, State.seqNext, h.busy]

/-- The rest of a command, tick by tick. -/
theorem ticks_rest {i p L} (rest : List Op) (s : State) (h : Running i p L s) (hd : s.dly = 0)
    (hr : L.drop s.seq = rest) (hw : ∀ op ∈ rest, op.waitOk) :
    ∃ t es, p.runRest s = t ∧ t.tr = s.tr ++ es ∧ t.busy = false ∧ ticks (duration es + 1) s = t ∧
      ∀ k < duration es + 1, Mid s.inputs t (ticks k s) := by
  induction rest generalizing s with
  | nil =>
    have hl : L[s.seq]? = none := by
      rw [List.getElem?_eq_none_iff]; simpa using hr
    have e : p.runRest s = s.respondOk := by
      rw [Procedure.runRest, h.list, hr, State.eta_dly s hd]; rfl
    refine ⟨_, [], e, by simp [State.respondOk], rfl, ?_, fun k hk => ?_⟩
    · simp only [duration, List.map_nil, List.sum_nil, ticks]
      rw [h.tick, tickList, hl]
    · have : k = 0 := by simp [duration] at hk; omega
      subst this; exact ⟨h.busy, h.quiet, rfl, by rw [← e]; exact h.finish⟩
  | cons op rest ih =>
    have hl : L[s.seq]? = some op := by
      have := congrArg (·[0]?) hr
      simpa using this
    have hr' : L.drop (s.seq + 1) = rest := by
      have := congrArg (List.drop 1) hr
      simpa [List.drop_drop] using this
    have hwo := hw op (by simp)
    have e0 : p.runRest s = (runOps (op :: rest) s).respond := by
      rw [Procedure.runRest, h.list, hr, State.eta_dly s hd]
    have hnw : ∀ {x : Flow}, (∀ n, op.prim ≠ .wait n) → op.perform s = x → op.tick s = x.held := by
      intro x hx he
      subst he
      rcases op with ⟨b, pr, l⟩
      cases pr <;> first | rfl | exact absurd rfl (hx _)
    by_cases hf : (op.prim.event.isPinAction && s.ioFaultNow) = true
    · -- the action fails
      have hp : op.perform s = .failed op.raises (op.cut s) := by rw [Op.perform_eq, if_pos hf]
      have hpin : op.prim.event.isPinAction = true := by simp_all
      have hnwait : ∀ n, op.prim ≠ .wait n := by
        intro n hn; simp [hn, Prim.event, Event.isPinAction] at hf
      have e1 : p.runRest s = op.fail s := by rw [e0, runOps, hp]; rfl
      have e2 : tick false true s = { op.cut s with raising := some op.raises } := by
        rw [h.tick, tickList, hl]
        exact hnw hnwait hp
      obtain ⟨ev, e3, e4, e5, e6⟩ := ticks_fail hpin h.busy h.quiet h.calm ⟨h.busy, h.quiet, rfl⟩ e2
        (by rw [← e1]; exact h.finish)
      refine ⟨_, [ev], e1, e3, raise_busy _ _, by rw [e4]; exact e5, by rw [e4]; exact e6⟩
    · -- the action succeeds
      have hp : op.perform s = .going (op.succeed s) := by rw [Op.perform_eq, if_neg hf]
      have hs' := h.succeed op
      have hd' : (op.succeed s).dly = 0 := by simp only [Op.succeed]; split_ifs <;> simp [hd]
      obtain ⟨t, es, i1, i2, i3, i4, i5⟩ := ih (op.succeed s) hs' hd'
        (by rw [seq_succeed h]; exact hr') (fun o ho => hw o (by simp [ho]))
      have e1 : p.runRest s = t := by
        rw [e0, runOps, hp]
        rw [← i1, Procedure.runRest, hs'.list, State.eta_dly _ hd', seq_succeed h, hr']
      have etr : t.tr = s.tr ++ (op.prim.event :: es) := by rw [i2]; simp [Op.succeed]
      have key : ∀ m, m = op.prim.event.ticks → 0 < m → ticks m s = op.succeed s →
          (∀ k < m, ∃ d, ticks k s = { s with dly := d }) →
          ∃ t es, p.runRest s = t ∧ t.tr = s.tr ++ es ∧ t.busy = false ∧ ticks (duration es + 1) s = t ∧
            ∀ k < duration es + 1, Mid s.inputs t (ticks k s) := by
        intro m hm hm0 ht hk
        refine ⟨t, _, e1, etr, i3, ?_⟩
        simp only [duration_cons, ← hm]
        refine ⟨by rw [Nat.add_assoc, ticks_add, ht]; exact i4, fun k hkn => ?_⟩
        by_cases hkm : k < m
        · obtain ⟨d, hdk⟩ := hk k hkm
          rw [hdk]
          exact ⟨h.busy, h.quiet, rfl, by rw [(h.withDly d).finish, runRest_dly p h.proc, e1]⟩
        · obtain ⟨j, rfl⟩ : ∃ j, k = m + j := ⟨k - m, by omega⟩
          rw [ticks_add, ht]; exact i5 j (by omega)
      by_cases hwt : ∃ n, op.prim = .wait n
      · obtain ⟨n, hn⟩ := hwt
        obtain ⟨hn0, hb⟩ := hwo n hn
        obtain ⟨k1, k2⟩ := ticks_wait h hl hn hb hn0 hd
        exact key n (by simp [hn, Prim.event, Event.ticks]) hn0 k1 k2
      · have hwt' : ∀ n, op.prim ≠ .wait n := fun n hn => hwt ⟨n, hn⟩
        refine key 1 ?_ (by decide) ?_ ?_
        · rcases op with ⟨b, pr, l⟩
          cases pr <;> first | rfl | exact absurd rfl (hwt' _)
        · simp only [ticks]
          rw [h.tick, tickList, hl]; exact hnw hwt' hp
        · intro k hk
          exact ⟨s.dly, by simp [show k = 0 by omega, ticks]⟩


theorem SoundPins.succeed {s : State} (h : SoundPins s) (op : Op) : SoundPins (op.succeed s) :=
  fun f hf => h f (List.mem_of_mem_drop hf)

theorem SoundPins.now {s : State} (h : SoundPins s) : s.ioFaultNow = false := by
  unfold State.ioFaultNow
  rcases hs : s.ioFault with _ | ⟨f, fs⟩
  · rfl
  · exact h f (by simp [hs])

/-- Without `io_fault`, ticking a running command comes past every place of its list. -/
theorem ticks_reaches {i p L} (rest : List Op) (s : State) (h : Running i p L s) (hd : s.dly = 0) (hs : SoundPins s)
    (hr : L.drop s.seq = rest) (hw : ∀ op ∈ rest, op.waitOk) (m : Nat) (hm : m ≤ rest.length) :
    ∃ k, (ticks k s).busy = true ∧ (ticks k s).seq = s.seq + m := by
  induction rest generalizing s m with
  | nil => exact ⟨0, h.busy, by have : m = 0 := by simpa using hm
                                simp [this, ticks]⟩
  | cons op rest ih =>
    rcases m with _ | m
    · exact ⟨0, h.busy, rfl⟩
    have hl : L[s.seq]? = some op := by
      have := congrArg (·[0]?) hr
      simpa using this
    have hr' : L.drop (s.seq + 1) = rest := by
      have := congrArg (List.drop 1) hr
      simpa [List.drop_drop] using this
    have hd' : (op.succeed s).dly = 0 := by simp only [Op.succeed]; split_ifs <;> simp [hd]
    obtain ⟨k, k1, k2⟩ := ih (op.succeed s) (h.succeed op) hd' (hs.succeed op) (by rw [seq_succeed h]; exact hr')
      (fun o ho => hw o (by simp [ho])) m (by simpa using hm)
    have key : ∃ n, ticks n s = op.succeed s := by
      by_cases hwt : ∃ n, op.prim = .wait n
      · obtain ⟨n, hn⟩ := hwt
        obtain ⟨hn0, hb⟩ := hw op (by simp) n hn
        exact ⟨n, (ticks_wait h hl hn hb hn0 hd).1⟩
      · refine ⟨1, ?_⟩
        have hper : op.perform s = .going (op.succeed s) := by rw [Op.perform_eq, hs.now]; simp
        have ht : op.tick s = (op.perform s).held := by
          rcases op with ⟨b, pr, l⟩
          cases pr with
          | wait n => exact absurd ⟨n, rfl⟩ hwt
          | _ => rfl
        simp only [ticks]
        rw [h.tick, tickList, hl]
        simp only [ht, hper]
        rfl
    obtain ⟨n, hn⟩ := key
    exact ⟨n + k, by rw [ticks_add, hn]; exact k1, by rw [ticks_add, hn, k2, seq_succeed h]; omega⟩

/-! ### The lists of the ten commands -/

theorem waitOk_transmitOps (b : Byte) (m : Mode) : ∀ op ∈ transmitOps b m, op.waitOk := by
  intro op h n hn
  rcases mem_transmitOps h with ⟨p, v, rfl, -⟩ | rfl | rfl
  · simp [writeOp] at hn
  · simp only [waitOp, Prim.wait.injEq] at hn; subst hn; exact ⟨Nat.succ_pos _, rfl⟩
  · simp only [waitOp, Prim.wait.injEq] at hn; subst hn; exact ⟨Nat.succ_pos _, rfl⟩

theorem waitOk_thenLife (l : Life) (ops : List Op) (h : ∀ op ∈ ops, op.waitOk) : ∀ op ∈ thenLife l ops, op.waitOk := by
  match ops with
  | [] => exact h
  | [op] =>
    intro o ho n hn
    simp only [thenLife, List.mem_singleton] at ho
    subst ho; exact h op (by simp) n hn
  | op :: op' :: ops =>
    intro o ho
    simp only [thenLife, List.mem_cons] at ho
    rcases ho with rfl | ho
    · exact h _ (by simp)
    · exact waitOk_thenLife l (op' :: ops) (fun o ho => h o (by simp [ho])) o (by simpa [thenLife] using ho)

theorem waitOk_waitOp {n : Nat} (h : 0 < n) : (waitOp n).waitOk := by
  intro k hk; simp only [waitOp, Prim.wait.injEq] at hk; subst hk; exact ⟨h, rfl⟩

theorem waitOk_of_write {op : Op} (h : ∀ n, op.prim ≠ .wait n) : op.waitOk := fun n hn => absurd hn (h n)

theorem waitOk_ops {i : Instr} {p : Procedure} (hp : procedureOf i = some p) (s : State) : ∀ op ∈ p.ops s, op.waitOk := by
  have hw : ∀ {n}, 0 < n → ∀ op ∈ [waitOp n], op.waitOk := by
    intro n hn op ho; rw [List.mem_singleton] at ho; subst ho; exact waitOk_waitOp hn
  cases i <;> simp only [procedureOf, Option.some.injEq, reduceCtorEq] at hp <;> subst hp
  case construct =>
    intro op ho
    simp only [constructProcedure, initializerOps, List.mem_append] at ho
    rcases ho with (ho | ((((((ho | ho) | ho) | ho) | ho) | ho) | ho)) | ho
    · revert op
      simp only [configureOps, List.forall_mem_cons, List.not_mem_nil, false_imp_iff, implies_true, and_true]
      refine ⟨?_, ?_, ?_, ?_, ?_, ?_, ?_⟩ <;> exact waitOk_of_write (by simp)
    · exact waitOk_transmitOps _ _ _ ho
    · exact waitOk_thenLife _ _ (waitOk_transmitOps _ _) _ ho
    · exact waitOk_transmitOps _ _ _ ho
    · exact waitOk_transmitOps _ _ _ ho
    · exact waitOk_thenLife _ _ (waitOk_transmitOps _ _) _ ho
    · exact waitOk_transmitOps _ _ _ ho
    · exact waitOk_thenLife _ _ (hw (Nat.succ_pos _)) _ ho
    · revert op
      simp only [blinkOps, List.forall_mem_cons, List.not_mem_nil, false_imp_iff, implies_true, and_true]
      exact ⟨waitOk_of_write (by simp [backlightOp]), waitOk_waitOp (Nat.succ_pos _),
        waitOk_of_write (by simp [backlightOp]), waitOk_waitOp (Nat.succ_pos _),
        waitOk_of_write (by simp [backlightOp])⟩
  case xmit => exact waitOk_transmitOps _ _
  case clear =>
    intro op ho
    simp only [clearProcedure, List.mem_append] at ho
    rcases ho with ho | ho
    · exact waitOk_transmitOps _ _ _ ho
    · exact hw (Nat.succ_pos _) _ ho
  case home => exact waitOk_transmitOps _ _
  case setBacklight =>
    intro op ho
    simp only [setBacklightProcedure, List.mem_singleton] at ho
    subst ho; exact waitOk_of_write (by simp [backlightOp])
  case setCursor => exact waitOk_transmitOps _ _
  case setBlink => exact waitOk_transmitOps _ _
  case setDisplay v =>
    intro op ho
    simp only [setDisplayProcedure, List.mem_append] at ho
    rcases ho with ho | ho
    · exact waitOk_transmitOps _ _ _ ho
    · cases v <;> simp at ho
      subst ho; exact waitOk_of_write (by simp [backlightOp])
  case render =>
    intro op ho
    simp only [renderProcedure, streamOps, List.mem_append, List.mem_flatMap] at ho
    rcases ho with ho | ⟨c, -, ho⟩
    · exact waitOk_transmitOps _ _ _ ho
    · exact waitOk_transmitOps _ _ _ ho
  case release =>
    intro op ho
    simp only [releaseProcedure, List.mem_singleton] at ho
    subst ho; exact waitOk_of_write (by simp)

/-- No command begins with a wait. -/
theorem ops_first {i : Instr} {p : Procedure} (hp : procedureOf i = some p) (s : State) :
    ∃ op ops, p.ops s = op :: ops ∧ ∀ n, op.prim ≠ .wait n := by
  cases i <;> simp only [procedureOf, Option.some.injEq, reduceCtorEq] at hp <;> subst hp <;>
    exact ⟨_, _, rfl, fun n => by simp [writeOp, backlightOp]⟩

theorem ok_of_if {c : Prop} [Decidable c] {a b : Except DecodeError Instr} {i : Instr}
    (h : (if c then a else b) = .ok i) : a = .ok i ∨ b = .ok i := by
  by_cases hc : c
  · exact .inl (by rwa [if_pos hc] at h)
  · exact .inr (by rwa [if_neg hc] at h)

/-- A legal command word is one of the ten commands. -/
theorem procedureOf_of_decodeHost {w : Word} {i : Instr} (h : decodeHost w = .ok i) : ∃ p, procedureOf i = some p := by
  have hb : ∀ {x : Instr}, decodeBare w x = .ok i → x = i := fun h => by
    rcases ok_of_if h with h | h <;> cases h; rfl
  have hv : ∀ {f : Bool → Instr}, decodeBoolean w f = .ok i → ∃ v, f v = i := fun h => by
    rcases ok_of_if h with h | h <;> cases h; exact ⟨_, rfl⟩
  unfold decodeHost at h
  rcases ok_of_if h with h | h
  · cases hb h; exact ⟨_, rfl⟩
  rcases ok_of_if h with h | h
  · rcases ok_of_if h with h | h <;> cases h; exact ⟨_, rfl⟩
  rcases ok_of_if h with h | h
  · cases hb h; exact ⟨_, rfl⟩
  rcases ok_of_if h with h | h
  · cases hb h; exact ⟨_, rfl⟩
  rcases ok_of_if h with h | h
  · obtain ⟨v, rfl⟩ := hv h; exact ⟨_, rfl⟩
  rcases ok_of_if h with h | h
  · obtain ⟨v, rfl⟩ := hv h; exact ⟨_, rfl⟩
  rcases ok_of_if h with h | h
  · obtain ⟨v, rfl⟩ := hv h; exact ⟨_, rfl⟩
  rcases ok_of_if h with h | h
  · obtain ⟨v, rfl⟩ := hv h; exact ⟨_, rfl⟩
  rcases ok_of_if h with h | h
  · rcases ok_of_if h with h | h <;> cases h; exact ⟨_, rfl⟩
  rcases ok_of_if h with h | h
  · cases hb h; exact ⟨_, rfl⟩
  · cases h

/-- The register writes in front of a command's first action leave everything but `CFG` and `LINEBUF` alone. -/
theorem setup_eq {i : Instr} {p : Procedure} (hp : procedureOf i = some p) (s : State) :
    ∃ c b, p.setup s = { s with cfg := c, lineBuf := b } := by
  cases i <;> simp only [procedureOf, Option.some.injEq, reduceCtorEq] at hp <;> subst hp <;> exact ⟨_, _, rfl⟩

end Sys2Proof.Machine
end

