-- ==== Sys2Proof/Tests/Slice0.lean ====
section
/-! SUPPORT. Tests of the model against the spec's own words and vectors (95_test_vectors.md), and for every obligation
that has hypotheses a concrete state and operands that meet them. -/

namespace Sys2Proof.Tests

open Sys2Proof Sys2Proof.Machine

/-! ### WellFormed: an ill-formed term for its one check -/

theorem test_setddram_of_no_row_is_ill_formed : Instr.wellFormed (.lSetddram 0x01#7) = false := by decide

theorem test_setddram_of_the_rows_is_well_formed :
    [0x00#7, 0x40#7, 0x14#7, 0x54#7].all (fun a => Instr.wellFormed (.lSetddram a)) = true := by decide

/-! ### Decoding: words written out from the patterns of 30_encoding.md R72 and R82 -/

theorem test_decode_construct : decodeHost 0b0001000000000000#16 = .ok .construct := by decide

theorem test_decode_xmit : decodeHost 0b0010000110100101#16 = .ok (.xmit .data 0xA5#8) := by decide

theorem test_decode_xmit_command : decodeHost 0b0010000010000000#16 = .ok (.xmit .command 0x80#8) := by decide

theorem test_decode_clear : decodeHost 0b0011000000000000#16 = .ok .clear := by decide

theorem test_decode_home : decodeHost 0b0100000000000000#16 = .ok .home := by decide

theorem test_decode_setBacklight : decodeHost 0b0101000000000001#16 = .ok (.setBacklight true) := by decide

theorem test_decode_setCursor : decodeHost 0b0110000000000001#16 = .ok (.setCursor true) := by decide

theorem test_decode_setBlink : decodeHost 0b0111000000000000#16 = .ok (.setBlink false) := by decide

theorem test_decode_setDisplay : decodeHost 0b1000000000000000#16 = .ok (.setDisplay false) := by decide

theorem test_decode_render : decodeHost 0b1001001110010100#16 = .ok (.render .right 0x94#8) := by decide

theorem test_decode_render_no_variant : decodeHost 0b1001000010000000#16 = .ok (.render .noVariant 0x80#8) := by decide

theorem test_decode_release : decodeHost 0b1010000000000000#16 = .ok .release := by decide

theorem test_decode_lReset33 : decodeLcd 0b000110011#9 = .ok .lReset33 := by decide

theorem test_decode_lReset32 : decodeLcd 0b000110010#9 = .ok .lReset32 := by decide

theorem test_decode_lFuncset : decodeLcd 0b000101100#9 = .ok (.lFuncset false true true) := by decide

theorem test_decode_lDispctl : decodeLcd 0b000001101#9 = .ok (.lDispctl true false true) := by decide

theorem test_decode_lEntry : decodeLcd 0b000000110#9 = .ok (.lEntry true false) := by decide

theorem test_decode_lClear : decodeLcd 0b000000001#9 = .ok .lClear := by decide

theorem test_decode_lHome : decodeLcd 0b000000010#9 = .ok .lHome := by decide

theorem test_decode_lSetddram : decodeLcd 0b011010100#9 = .ok (.lSetddram 0x54#7) := by decide

theorem test_decode_lData : decodeLcd 0b101000001#9 = .ok (.lData 0x41#8) := by decide

/-- V67 to V76 of 95_test_vectors.md. -/
theorem test_illegal_words :
    [0x9A80#16, 0x9680#16, 0x0000#16, 0xB000#16, 0xF123#16, 0x1001#16, 0x2200#16, 0x3100#16, 0x5002#16, 0xA001#16].map
      (fun w => (decodeHost w).toOption) = List.replicate 10 none := by decide

theorem test_no_lcd_row : decodeLcd 0b000000011#9 = .error .noLcdRow := by
  rfl

theorem test_tableWord_host : decodeTableWord 16 0x2141 = some (.xmit .data 0x41#8) := by decide

theorem test_tableWord_lcd : decodeTableWord 16 0x141 = some (.lData 0x41#8) := by decide

theorem test_tableWord_lcd_low : decodeTableWord 16 0x001 = some .lClear := by decide

/-- The words of the pseudo-commands (30_encoding.md R92; 43_display_control.md R154 to R157). -/
theorem test_pseudo_commands :
    pseudoCommands.map (fun p => encode p.2) =
      [.host 0x5001#16, .host 0x5000#16, .host 0x6001#16, .host 0x6000#16, .host 0x7001#16, .host 0x7000#16,
       .host 0x8001#16, .host 0x8000#16] := by decide

/-! ### The flag encoder: V1 to V9 of 95_test_vectors.md -/

/-- The three composite bytes of a packed `CFG`. -/
def composites (v : BitVec 9) : List Byte :=
  [functionSetByte (Cfg.unpack v), displayControlByte (Cfg.unpack v), entryModeByte (Cfg.unpack v)]

theorem test_encoder_v1_to_v9 :
    [0x0A2#9, 0x000#9, 0x1FF#9, 0x0A3#9, 0x0BB#9, 0x040#9, 0x100#9, 0x004#9, 0x082#9].map composites =
      [[0x28#8, 0x0C#8, 0x06#8], [0x20#8, 0x08#8, 0x04#8], [0x3C#8, 0x0F#8, 0x07#8], [0x28#8, 0x0C#8, 0x06#8],
       [0x28#8, 0x0F#8, 0x06#8], [0x30#8, 0x08#8, 0x04#8], [0x24#8, 0x08#8, 0x04#8], [0x20#8, 0x08#8, 0x05#8],
       [0x28#8, 0x08#8, 0x06#8]] := by decide

/-! ### Helpers -/

/-- Text lanes: the given characters, then zeros. -/
def lanes (cs : List Nat) : Row := Vector.ofFn fun i : Fin 20 => BitVec.ofNat 8 (cs.getD i.val 0)

/-- The state after a successful `CONSTRUCT` (`S_READY` of 95_test_vectors.md), with the text operand latched. -/
def ready (len : BitVec 8) (cs : List Nat) : State :=
  { State.reset with
    cfg := { cfgReset with backlight := true }, life := .cleared, oe := Lines.all true,
    pin := { rs := false, e := false, d4 := true, d5 := false, d6 := false, d7 := false, bl := true },
    tr := constructEvents cfgReset, cmdl := { word := 0#16, len := len, chars := lanes cs } }

/-- `S_READY` with no text. -/
def plainReady : State := ready 0#8 []

/-- A command word with no text. -/
def bare (w : Word) : Command := { word := w, len := 0#8, chars := lanes [] }

/-- The state an instruction leaves. -/
def after (i : Instr) (s : State) : State :=
  match exec i s with
  | .next t => t
  | .fault _ => s
  | .refused _ => s

/-- The seven levels in pin id order. -/
def levels (l : Lines) : List Bool := [l.rs, l.e, l.d4, l.d5, l.d6, l.d7, l.bl]

/-- `io_fault` at the k-th pin action of a command, from 0. -/
def failAt (k : Nat) (s : State) : State := { s with ioFault := List.replicate k false ++ [true] }

/-! ### One instruction at a time, with the values of 95_test_vectors.md -/

/-- V20: the end state. -/
theorem test_construct_is_ready :
    (after .construct State.reset).life = .cleared ∧ (after .construct State.reset).cfg.pack = 0x0A3#9 ∧
      levels (after .construct State.reset).pin = [false, false, true, false, false, false, true] ∧
      (after .construct State.reset).tr.length = 141 := by decide +kernel

/-- V20: the latched nibbles. -/
theorem test_construct_latched :
    (latched (after .construct State.reset).tr).map (fun p => p.2.toNat) = [3, 3, 3, 2, 2, 8, 0, 0xC, 0, 6, 0, 1] := by
  decide +kernel

/-- V12: the whole trace of `Transmit(0xA5, Data)`. -/
theorem test_xmit_trace :
    (after (.xmit .data 0xA5#8) { plainReady with tr := [] }).tr =
      [Event.w .rs true, Event.w .d4 false, Event.w .d5 false, Event.w .d6 false, Event.w .d7 false, Event.w .d5 true,
       Event.w .d7 true, Event.z Config.eDelay, Event.w .e true, Event.z Config.ePulse, Event.w .e false,
       Event.z Config.eDelay, Event.w .d4 false, Event.w .d5 false, Event.w .d6 false, Event.w .d7 false,
       Event.w .d4 true, Event.w .d6 true, Event.z Config.eDelay, Event.w .e true, Event.z Config.ePulse,
       Event.w .e false, Event.z Config.eDelay] := by rfl

/-- V14: the pins. -/
theorem test_xmit_pins :
    levels (after (.xmit .command 0x80#8) plainReady).pin = [false, false, false, false, false, false, true] := by
  decide +kernel

/-- V30: the clear byte, then the settling wait. -/
theorem test_clear_ends_with_its_wait :
    (after .clear { plainReady with tr := [] }).tr.drop 18 =
      [Event.w .e false, Event.z Config.eDelay, Event.z Config.clearSettle] := by rfl

/-- V31. -/
theorem test_home_sends_0x02 : bytes (after .home { plainReady with tr := [] }).tr = [(false, 0x02#8)] := by
  decide +kernel

/-- V32. -/
theorem test_setBacklight_writes_flag_and_pin :
    (after (.setBacklight false) plainReady).cfg.pack = 0x0A2#9 ∧
      (after (.setBacklight false) { plainReady with tr := [] }).tr = [Event.w .bl false] := by decide +kernel

/-- V34. -/
theorem test_setCursor_sends_0x0E :
    bytes (after (.setCursor true) { plainReady with tr := [] }).tr = [(false, 0x0E#8)] ∧
      (after (.setCursor true) plainReady).cfg.pack = 0x0B3#9 := by decide +kernel

/-- V35. -/
theorem test_setBlink_sends_0x0D :
    bytes (after (.setBlink true) { plainReady with tr := [] }).tr = [(false, 0x0D#8)] ∧
      (after (.setBlink true) plainReady).cfg.pack = 0x0AB#9 := by decide +kernel

/-- V36: the byte first, the pin last, both flags off. -/
theorem test_setDisplay_off_forces_the_backlight_off :
    (after (.setDisplay false) { plainReady with tr := [] }).tr.getLast? = some (.w .bl false) ∧
      bytes (after (.setDisplay false) { plainReady with tr := [] }).tr = [(false, 0x08#8)] ∧
      (after (.setDisplay false) plainReady).cfg.pack = 0x082#9 := by decide +kernel

/-- V38: the backlight stays off. -/
theorem test_setDisplay_on_forces_nothing :
    (after (.setDisplay true) (after (.setDisplay false) plainReady)).cfg.pack = 0x0A2#9 := by decide +kernel

/-- V40: an odd padding, the extra space on the right. -/
theorem test_render_center_odd :
    (after (.render .center 0x94#8) (ready 1#8 [0x41])).lineBuf.toList =
      List.replicate 9 0x20#8 ++ [0x41#8] ++ List.replicate 10 0x20#8 := by decide +kernel

/-- V57: bytes pass unchanged; the address first. -/
theorem test_render_bytes :
    (bytes (after (.render .left 0x80#8) { ready 2#8 [0x00, 0xFF] with tr := [] }).tr).take 4 =
      [(false, 0x80#8), (true, 0x00#8), (true, 0xFF#8), (true, 0x20#8)] := by decide +kernel

/-- V23. -/
theorem test_release :
    (after .release plainReady).life = .released ∧ levels (after .release plainReady).oe = List.replicate 7 false ∧
      levels (after .release plainReady).pin = [false, false, true, false, false, false, true] := by decide +kernel

/-- V25. -/
theorem test_release_twice :
    (after .release (after .release plainReady)).rspStatus = .validation ∧
      (after .release (after .release plainReady)).rspCause = 5#3 := by decide +kernel

/-- The bytes of the nine LCD-bus instructions (30_encoding.md R82 to R87). -/
theorem test_lcd_instructions_send_their_bytes :
    [Instr.lReset33, .lReset32, .lFuncset false true false, .lDispctl true false false, .lEntry true false, .lClear,
     .lHome, .lSetddram 0x40#7, .lData 0x41#8].map (fun i => bytes (after i { plainReady with tr := [] }).tr) =
      [[(false, 0x33#8)], [(false, 0x32#8)], [(false, 0x28#8)], [(false, 0x0C#8)], [(false, 0x06#8)], [(false, 0x01#8)],
       [(false, 0x02#8)], [(false, 0xC0#8)], [(true, 0x41#8)]] := by decide +kernel

/-- V60 to V66: the first failing check is the one reported. -/
theorem test_render_validation :
    [(Justify.center, 0x80#8, 21#8), (.center, 0x80#8, 255#8), (.noVariant, 0x80#8, 2#8), (.center, 0x00#8, 2#8),
     (.center, 0x81#8, 2#8), (.noVariant, 0x00#8, 21#8), (.noVariant, 0x00#8, 3#8)].map
      (fun c => ((after (.render c.1 c.2.1) (ready c.2.2 [])).rspCause.toNat,
                 (after (.render c.1 c.2.1) (ready c.2.2 [])).rspStatus)) =
      [(1, .validation), (1, .validation), (2, .validation), (3, .validation), (3, .validation), (1, .validation),
       (2, .validation)] := by decide +kernel

/-- V80: a failing configuration of `D5`. -/
theorem test_fault_in_a_configuration :
    (after .construct (failAt 3 State.reset)).tr = [Event.cfg .rs, Event.cfg .e, Event.cfg .d4, Event.cf .d5] ∧
      levels (after .construct (failAt 3 State.reset)).oe = [true, true, true, false, false, false, false] ∧
      (after .construct (failAt 3 State.reset)).rspStatus = .resource ∧
      (after .construct (failAt 3 State.reset)).rspCause = 3#3 ∧
      (after .construct (failAt 3 State.reset)).life = .faulted := by decide +kernel

/-- V83: the third byte never starts. -/
theorem test_fault_in_a_byte :
    bytes (after .construct (failAt 40 State.reset)).tr = [(false, 0x33#8), (false, 0x32#8)] ∧
      (after .construct (failAt 40 State.reset)).tr.length = 53 ∧
      (after .construct (failAt 40 State.reset)).rspStatus = .transmission := by decide +kernel

/-- V87: the field is written before the first failing write. -/
theorem test_fault_after_the_field_write :
    (after (.setDisplay false) (failAt 0 { plainReady with tr := [] })).tr = [Event.wf .rs false] ∧
      (after (.setDisplay false) (failAt 0 plainReady)).cfg.pack = 0x083#9 := by decide +kernel

/-- V88: both fields are written before the last write fails. -/
theorem test_fault_of_the_backlight_pin :
    (after (.setDisplay false) (failAt 14 plainReady)).cfg.pack = 0x082#9 ∧
      (after (.setDisplay false) (failAt 14 plainReady)).rspCause = 6#3 := by decide +kernel

/-- V95, V96: reset from a faulted block. -/
theorem test_reset_of_a_faulted_block :
    step { after .construct (failAt 3 State.reset) with inputs := [.reset] } = .next State.reset := by rfl

/-- The state a step leaves. -/
def stepped (s : State) : State :=
  match step s with
  | .next t => t
  | .fault _ => s
  | .refused _ => s

/-- V24: a `RELEASE` before any `CONSTRUCT` is admitted, and the `CONSTRUCT` after it is not. -/
theorem test_responses_of_release_then_construct :
    responses 2 { State.reset with inputs := [.command (bare 0xA000#16), .command (bare 0x1000#16)] } =
      [(.ok, 0#3), (.validation, 5#3)] := by decide +kernel

/-- The placed instruction is the one the next step runs. -/
theorem test_withFetchWord_host :
    (stepped (State.reset.withFetchWord 16 0x1000)).life = .cleared ∧
      (stepped (State.reset.withFetchWord 16 0x1000)).cmdl.word = 0x1000#16 := by decide +kernel

theorem test_withFetchWord_lcd :
    bytes (stepped ({ plainReady with tr := [] }.withFetchWord 16 0x141)).tr = [(true, 0x41#8)] := by decide +kernel

/-- No pin write before the pins are claimed, after `RELEASE`, or after a fatal error (41_transmit.md R116;
60_exceptions.md R199; log 3). -/
theorem test_lcd_instruction_outside_cleared_does_nothing :
    after (.lData 0x41#8) State.reset = State.reset ∧
      after (.lData 0x41#8) (after .release plainReady) = after .release plainReady ∧
      after (.lData 0x41#8) (after .construct (failAt 3 State.reset)) = after .construct (failAt 3 State.reset) :=
  ⟨rfl, rfl, rfl⟩

/-- A failing write of an LCD-bus instruction by itself does all of 60_exceptions.md R197 (log 3). -/
theorem test_fault_in_an_lcd_instruction :
    (after .lClear (failAt 0 { plainReady with tr := [] })).tr = [Event.wf .rs false] ∧
      (after .lClear (failAt 0 plainReady)).life = .faulted ∧
      (after .lClear (failAt 0 plainReady)).rspValid = true ∧
      (after .lClear (failAt 0 plainReady)).rspStatus = .transmission := by decide +kernel

/-- V80 in ticks: the failing configuration takes its own tick, the response the next (70_reset_and_hazards.md R240). -/
theorem test_fatal_error_is_answered_in_the_next_tick :
    (ticks 4 (failAt 3 { State.reset with cmdl := bare 0x1000#16, busy := true })).tr.getLast? = some (.cf .d5) ∧
      (ticks 4 (failAt 3 { State.reset with cmdl := bare 0x1000#16, busy := true })).busy = true ∧
      (ticks 4 (failAt 3 { State.reset with cmdl := bare 0x1000#16, busy := true })).rspValid = false ∧
      (ticks 5 (failAt 3 { State.reset with cmdl := bare 0x1000#16, busy := true })).rspValid = true ∧
      (ticks 5 (failAt 3 { State.reset with cmdl := bare 0x1000#16, busy := true })).rspCause = 3#3 := by
  decide +kernel

/-! ### Witnesses: for each obligation with hypotheses, a state and operands that meet them all -/

/-- `S_READY` with a command presented. -/
def readyWith (w : Word) : State := { plainReady with inputs := [.command (bare w)] }

/-- `S_RESET` with a command presented. -/
def resetWithCommand (w : Word) : State := { State.reset with inputs := [.command (bare w)] }

/-- A block in `CONSTRUCT`, one tick after its acceptance. -/
def constructing : State := { State.reset with cmdl := bare 0x1000#16, busy := true }

/-- A block that has met a Resource error at pin `RS`. -/
def faulted : State :=
  { State.reset with life := .faulted, fkind := .resource, tr := [.cf .rs],
                     inputs := [.command (bare 0x3000#16), .command (bare 0xA000#16)] }

theorem sound_plainReady : SoundPins plainReady := by decide

/-- `S_READY` is quiet. -/
theorem quiet_plainReady :
    clean plainReady.tr = true ∧ replay (Lines.all false) plainReady.tr = plainReady.pin ∧ plainReady.pin.e = false ∧
      (latched plainReady.tr).length % 2 = 0 ∧ plainReady.pin.bl = blLevel plainReady.cfg.backlight := by
  decide +kernel

theorem inv_readyWith (w : Word) : IdleInv (readyWith w) where
  idle := ⟨rfl, rfl, rfl, rfl⟩
  settled := ⟨nofun, nofun⟩
  faultKnown := ⟨nofun, fun h => absurd rfl h⟩
  response := rfl
  untouched := nofun
  claimed := ⟨fun _ => rfl, nofun⟩
  quiet := fun _ => quiet_plainReady
  fatal := fun h => absurd rfl h

/-- The invariant does not look at `io_fault`. -/
theorem inv_failing (w : Word) : IdleInv (failAt 0 (readyWith w)) :=
  have h := inv_readyWith w
  ⟨h.idle, h.settled, h.faultKnown, h.response, h.untouched, h.claimed, h.quiet, h.fatal⟩

theorem inv_faulted : IdleInv faulted := by
  refine ⟨by decide, by decide, by decide, by decide, by decide, by decide, by decide, fun _ => ?_⟩
  exact ⟨[], .cf .rs, by decide, by decide, .inl ⟨by decide, by decide⟩⟩

theorem witness_EncodeOfDecodeIsTheWord :
    decode (.host 0x93D4#16) = .ok (.render .right 0xD4#8) ∧ decode (.lcd 0x1FF#9) = .ok (.lData 0xFF#8) := by decide

/-- The codes next to the ten, the ends of the range, and the highest and lowest reserved bits. -/
theorem witness_IllegalWordsAreAnsweredIllegalOp :
    (∀ w, (readyWith w).busy = false ∧ (readyWith w).inputs = [.command (bare w)] ∧ (bare w).word = w) ∧
    [0x0000#16, 0x0FFF#16, 0xB000#16, 0xFFFF#16, 0x1001#16, 0x1800#16, 0x2200#16, 0x5002#16, 0x8800#16, 0x9400#16,
      0xAFFF#16].all illegalWord = true ∧
    [0x1000#16, 0x21FF#16, 0x8001#16, 0x93FF#16, 0xA000#16].any illegalWord = false ∧
    plainReady.life = .cleared ∧ 0x81#8 ∉ [0x80#8, 0xC0#8, 0x94#8, 0xD4#8] :=
  ⟨fun _ => ⟨rfl, rfl, rfl⟩, by decide, by decide, rfl, by decide⟩

theorem witness_TransmitActionCounts : SoundPins State.reset := by decide

theorem witness_TransmitIsLatchedAsItsByte :
    SoundPins plainReady ∧ clean plainReady.tr = true ∧ (latched plainReady.tr).length % 2 = 0 := by decide +kernel

theorem witness_FailedPinActionsLeaveThis :
    (failAt 0 plainReady).ioFault = [true] ∧ Pin.bl ≠ Pin.rs := by decide

/-- The rise or the fall of `E` in the first nibble phase of `XMIT 0x00, CMD` fails: whatever the free value is, one of
the two leaves `E` high. -/
theorem witness_EnableIsLowUnlessItsOwnWriteFailed :
    ∃ k ∈ [5, 6], (failAt k plainReady).pin.e = false ∧
      exec (.xmit .command 0x00#8) (failAt k plainReady) = .next (after (.xmit .command 0x00#8) (failAt k plainReady)) ∧
      (after (.xmit .command 0x00#8) (failAt k plainReady)).pin.e = true := by
  have h5 : (after (.xmit .command 0x00#8) (failAt 5 plainReady)).pin.e =
      if Config.failedWriteLands 0 then true else false := by rfl
  have h6 : (after (.xmit .command 0x00#8) (failAt 6 plainReady)).pin.e =
      if Config.failedWriteLands 0 then false else true := by rfl
  rcases h : Config.failedWriteLands 0 with _ | _
  · exact ⟨6, by decide, rfl, rfl, by rw [h6, h]; rfl⟩
  · exact ⟨5, by decide, rfl, rfl, by rw [h5, h]; rfl⟩

theorem witness_XmitCompletes : plainReady.life = .cleared ∧ SoundPins plainReady := by decide

/-- Both clauses: Cleared, and the lifecycle values around it. -/
theorem witness_LcdInstructionsTransmitTheirByte :
    encode (.lSetddram 0x7F#7) = .lcd 0x0FF#9 ∧ encode (.lData 0x00#8) = .lcd 0x100#9 ∧
      plainReady.life = .cleared ∧ SoundPins plainReady ∧ State.reset.life ≠ .cleared ∧
      (after .release plainReady).life ≠ .cleared ∧ faulted.life ≠ .cleared := by
  decide

theorem witness_ConstructCompletes : State.reset.life = .uninitialized ∧ SoundPins State.reset := by decide

/-- Every value of `SEQ` from 0 to 141 is met, so each of the four cases is, at both ends of its range. -/
theorem witness_ConstructStepsThroughItsLifecycle :
    (constructing.cmdl.word = 0x1000#16 ∧ constructing.busy = true ∧ constructing.seq = 0 ∧ constructing.dly = 0 ∧
      constructing.raising = none ∧ constructing.inputs = [] ∧ constructing.life = .uninitialized ∧ SoundPins constructing) ∧
    ∀ n ≤ 141, ∃ k, (ticks k constructing).busy = true ∧ (ticks k constructing).seq = n := by
  refine ⟨by decide, fun n hn => ?_⟩
  rcases n with _ | n
  · exact ⟨0, rfl, rfl⟩
  have h1 : ∃ s1, ticks 1 constructing = s1 ∧ Running .construct constructProcedure (constructProcedure.ops s1) s1 ∧
      s1.dly = 0 ∧ SoundPins s1 ∧ s1.seq = 1 :=
    ⟨_, rfl, ⟨by decide +kernel, by decide +kernel, by decide +kernel, by decide +kernel, rfl, rfl, by decide +kernel⟩,
      by decide +kernel, by decide +kernel, by decide +kernel⟩
  obtain ⟨s1, e1, hR, hd, hs, hseq⟩ := h1
  have hlen : (constructProcedure.ops s1).length = 141 := by rw [← e1]; decide +kernel
  obtain ⟨k, k1, k2⟩ := ticks_reaches _ s1 hR hd hs rfl
    (fun o ho => waitOk_ops (i := .construct) rfl s1 o (List.mem_of_mem_drop ho)) n
    (by rw [List.length_drop, hlen, hseq]; omega)
  exact ⟨1 + k, by rw [ticks_add, e1]; exact k1, by rw [ticks_add, e1, k2, hseq]; omega⟩

theorem witness_FailedConfigurationIsAResourceError :
    State.reset.life = .uninitialized ∧ State.reset.oe = Lines.all false ∧
      (failAt 0 State.reset).ioFault = List.replicate Pin.rs.id.toNat false ++ [true] ∧
      (failAt 6 State.reset).ioFault = List.replicate Pin.bl.id.toNat false ++ [true] := by decide

theorem witness_ReleaseCompletes :
    State.reset.life = .uninitialized ∧ plainReady.life = .cleared ∧ faulted.life = .faulted ∧
      (after .release plainReady).life = .released ∧ (exec .release plainReady = .next (after .release plainReady)) := by
  exact ⟨rfl, rfl, rfl, rfl, rfl⟩

theorem witness_AdmissionByLifecycle :
    encode .construct = .host 0x1000#16 ∧ plainReady.life ∉ admittedIn .construct ∧
      State.reset.life ∈ admittedIn .construct ∧ faulted.life ∈ admittedIn .release ∧
      encode (.xmit .data 0xFF#8) = .host 0x21FF#16 ∧ faulted.life ∉ admittedIn (.xmit .data 0xFF#8) := by decide

theorem witness_ClearCompletes : plainReady.life = .cleared ∧ SoundPins plainReady := by decide

theorem witness_HomeCompletes : plainReady.life = .cleared ∧ SoundPins plainReady := by decide

theorem witness_SetBacklightCompletes : plainReady.life = .cleared ∧ SoundPins plainReady := by decide

theorem witness_CursorAndBlinkTogglesComplete : plainReady.life = .cleared ∧ SoundPins plainReady := by decide

theorem witness_SetDisplayCompletes : plainReady.life = .cleared ∧ SoundPins plainReady := by decide

/-- The two ends of the length. -/
theorem witness_RenderCompletes :
    ∀ len ∈ [0#8, 20#8], (ready len [0x48]).life = .cleared ∧ SoundPins (ready len [0x48]) ∧
      (ready len [0x48]).cmdl.len.toNat ≤ 20 ∧ Justify.center ≠ .noVariant ∧
      0xD4#8 ∈ [0x80#8, 0xC0#8, 0x94#8, 0xD4#8] := by decide

theorem witness_RenderSendsAddressThenCells :
    clean plainReady.tr = true ∧ (latched plainReady.tr).length % 2 = 0 ∧
      exec (.render .left 0xC0#8) plainReady = .next (after (.render .left 0xC0#8) plainReady) ∧
      (after (.render .left 0xC0#8) plainReady).rspStatus = .ok :=
  ⟨by decide +kernel, by decide +kernel, rfl, by decide +kernel⟩

theorem witness_PaddedLineHoldsTheText : 0 ≤ 20 ∧ 20 ≤ 20 ∧ Justify.right ≠ .noVariant := by decide

/-- The three clauses: lengths 21 and 255; length 20 with no variant; length 20 with a line next to a legal one. -/
theorem witness_RenderValidation :
    (∀ len ∈ [21#8, 255#8], (ready len []).life = .cleared ∧ 20 < (ready len []).cmdl.len.toNat) ∧
    (ready 20#8 []).life = .cleared ∧ (ready 20#8 []).cmdl.len.toNat ≤ 20 ∧ Justify.left ≠ .noVariant ∧
    0x81#8 ∉ [0x80#8, 0xC0#8, 0x94#8, 0xD4#8] := by decide

/-- V56: the lanes after the third differ. -/
theorem witness_LanesBeyondTheLengthHaveNoEffect :
    (∀ (k : Nat) (h : k < 20), k < (ready 3#8 [0x41, 0x42, 0x43]).cmdl.len.toNat →
      (lanes [0x41, 0x42, 0x43, 0xFF])[k] = (ready 3#8 [0x41, 0x42, 0x43]).cmdl.chars[k]) ∧
    lanes [0x41, 0x42, 0x43, 0xFF] ≠ (ready 3#8 [0x41, 0x42, 0x43]).cmdl.chars := by decide

theorem witness_ActionListsAreBounded :
    0xD4#8 ∈ [0x80#8, 0xC0#8, 0x94#8, 0xD4#8] ∧ procedureOf .construct = some constructProcedure ∧
      constructProcedure.check State.reset = none := ⟨by decide, rfl, by decide⟩

theorem witness_StepRunsTheDecodedInstruction :
    ((readyWith 0x4000#16).busy = false ∧ (readyWith 0x4000#16).inputs = [.command (bare 0x4000#16)] ∧
      decodeHost (bare 0x4000#16).word = .ok .home) ∧
    plainReady.busy = false ∧ ({ plainReady with inputs := [.transmit 0x002#9] }).inputs = [.transmit 0x002#9] ∧
      decodeLcd 0x002#9 = .ok .lHome := by decide

theorem witness_ResetWinsOverEverything :
    ({ constructing with inputs := [.reset] }).inputs = [.reset] ∧ constructing.busy = true := by decide

theorem witness_StepsKeepTheIdleInvariant :
    IdleInv (readyWith 0x6001#16) ∧ (∃ t, step (readyWith 0x6001#16) = .next t) ∧
      IdleInv faulted ∧ ∃ t, step faulted = .next t :=
  ⟨inv_readyWith _, ⟨_, rfl⟩, inv_faulted, ⟨_, rfl⟩⟩

theorem witness_AFatalErrorIsForGood :
    IdleInv faulted ∧ faulted.fkind ≠ .none ∧ (∀ x ∈ faulted.inputs, x ≠ .reset) ∧
      encode .release = .host 0xA000#16 :=
  ⟨inv_faulted, by decide, by decide, by decide⟩

/-- A first fatal error, and a step after one. -/
theorem witness_NoSecondFatalError :
    IdleInv (failAt 0 (readyWith 0x3000#16)) ∧
      (∃ t, step (failAt 0 (readyWith 0x3000#16)) = .next t ∧ t.rspValid = true ∧ t.rspStatus = .transmission) ∧
      IdleInv faulted ∧ faulted.fkind ≠ .none ∧ (∀ rest, faulted.inputs ≠ .reset :: rest) ∧
      ∃ t, step faulted = .next t :=
  ⟨inv_failing _, ⟨_, rfl, by decide +kernel, by decide +kernel⟩, inv_faulted, by decide,
    fun rest h => by simp [faulted] at h, ⟨_, rfl⟩⟩

theorem witness_SoundPinsMeetNoFatalError :
    SoundPins (readyWith 0x3000#16) ∧ (readyWith 0x3000#16).fkind = .none ∧ (readyWith 0x3000#16).raising = none ∧
      ∃ t, step (readyWith 0x3000#16) = .next t := ⟨by decide, by decide, by decide, ⟨_, rfl⟩⟩

theorem witness_InstructionFrames :
    exec (.setCursor true) plainReady = .next (after (.setCursor true) plainReady) ∧
      (after (.setCursor true) plainReady).rspStatus = .ok ∧ encode (.setCursor true) = .host 0x6001#16 ∧
      writesBacklight (.setCursor true) = false ∧ writesBus (.setBacklight true) = false :=
  ⟨rfl, by decide +kernel, by decide, by decide, by decide⟩

theorem witness_FixedFieldsAreNeverWritten :
    (∀ rest, (readyWith 0x8000#16).inputs ≠ .reset :: rest) ∧ ∃ t, step (readyWith 0x8000#16) = .next t :=
  ⟨fun rest h => by simp [readyWith] at h, ⟨_, rfl⟩⟩

theorem construct_trace : (constructProcedure.run State.reset).tr = constructEvents cfgReset := by
  rw [run_of_sound (p := constructProcedure) rfl (by decide)]
  simp only [constructProcedure, id, succeedAll_eq, eventsOf_construct, State.respondOk, endCommand_tr]
  rfl

/-- The first and the last configuration, the first write and the last write of `CONSTRUCT`. -/
theorem witness_AFaultCutsTheInstructionAtItsAction :
    exec .construct { State.reset with ioFault := [] } = .next (constructProcedure.run State.reset) ∧
      (constructProcedure.run State.reset).tr = State.reset.tr ++ constructEvents cfgReset ∧
      (∀ k ∈ [0, 6, 7, 101], k < pinActions (constructEvents cfgReset)) ∧ State.reset.fkind = .none :=
  ⟨rfl, construct_trace, by decide +kernel, rfl⟩

theorem witness_DisplayByteFollowsTheConfiguration :
    IdleInv (readyWith 0x6001#16) ∧ DisplayByteCurrent (readyWith 0x6001#16) ∧
      [Input.reset, .command (bare 0x6001#16), .command (bare 0x2007#16), .command (bare 0x2010#16), .transmit 0x007#9,
        .transmit 0x010#9].any Input.sendsRawDisplayControl = false ∧ ∃ t, step (readyWith 0x6001#16) = .next t :=
  ⟨inv_readyWith _, fun _ => by decide +kernel, by decide, ⟨_, rfl⟩⟩

theorem witness_TicksRunTheStep :
    (resetWithCommand 0x1000#16).busy = false ∧ (resetWithCommand 0x1000#16).dly = 0 ∧
      (resetWithCommand 0x1000#16).inputs = [.command (bare 0x1000#16)] := by decide

theorem witness_StepFinishesARunningCommand :
    (resetWithCommand 0x1000#16).busy = false ∧ (resetWithCommand 0x1000#16).dly = 0 ∧
      (resetWithCommand 0x1000#16).inputs = .command (bare 0x1000#16) :: [] ∧
      (∀ rest' : List Input, [] ≠ Input.reset :: rest') ∧
      ∀ j, 0 < j → j ≤ 3 → (ticks j (resetWithCommand 0x1000#16)).busy = true := by
  refine ⟨by decide, by decide, rfl, by simp, fun j h0 h3 => ?_⟩
  obtain rfl | rfl | rfl : j = 1 ∨ j = 2 ∨ j = 3 := by omega
  all_goals decide +kernel

theorem witness_BusyBlockLeavesThePortAlone : constructing.busy = true ∧ State.reset.busy = false := by decide

/-- An idle tick and the tick of a `RELEASE` (V90). -/
theorem witness_IoFaultMattersOnlyAtPinActions :
    (∀ e, (tick false true State.reset).tr = State.reset.tr ++ [e] → e.isPinAction = false) ∧
    (∀ e, (tick false true { constructing with cmdl := bare 0xA000#16 }).tr = State.reset.tr ++ [e] →
      e.isPinAction = false) := by
  refine ⟨fun e h => ?_, fun e h => ?_⟩
  · have h0 : (tick false true State.reset).tr = [] := rfl
    rw [h0] at h; exact absurd h (by simp [State.reset, State.resetWith])
  · have h0 : (tick false true { constructing with cmdl := bare 0xA000#16 }).tr = [Event.rel] := rfl
    rw [h0] at h
    have : Event.rel = e := by simpa [State.reset, State.resetWith] using h
    rw [← this]; rfl

theorem witness_CommandDurations :
    encode .home = .host 0x4000#16 ∧ exec .home plainReady = .next (after .home plainReady) ∧
      (after .home plainReady).rspStatus = .ok ∧ (after .home State.reset).rspStatus = .validation ∧
      (resetWithCommand 0x1001#16).busy = false ∧ illegalWord 0x1001#16 = true :=
  ⟨by decide, rfl, by decide +kernel, by decide +kernel, by decide, by decide⟩

end Sys2Proof.Tests
end

/-! SUPPORT. What a command's list of actions sends and touches, what it is admitted in, and what a step of an idle block
can do, each said once. -/

namespace Sys2Proof.Machine

/-! ### What a list of actions sends -/

/-- The two nibbles the controller latches for a byte, high half first (41_transmit.md R126). -/
def nibblesOf (p : Bool × Byte) : List (Bool × Nibble) := [(p.1, hiNibble p.2), (p.1, loNibble p.2)]

theorem pairUp_nibbles (bs : List (Bool × Byte)) : pairUp (bs.flatMap nibblesOf) = bs := by
  induction bs with
  | nil => rfl
  | cons b bs ih => simp [nibblesOf, pairUp, hi_append_lo, ih]

theorem length_nibbles (bs : List (Bool × Byte)) : (bs.flatMap nibblesOf).length = 2 * bs.length := by
  induction bs with
  | nil => rfl
  | cons b bs ih => simp [nibblesOf, ih]; omega

theorem clean_eventsOf (ops : List Op) : clean (eventsOf ops) = true := by
  induction ops with
  | nil => rfl
  | cons op ops ih =>
    rcases op with ⟨_, prim, _⟩
    cases prim <;> simpa [clean_cons, Prim.event, Event.isFailure] using ih

/-- From any pin levels, the list makes the controller latch exactly the given bytes, leaves `E` low and keeps the
backlight flag and pin `BL` in agreement (41_transmit.md R126, R127; 40_flag_encoder.md R108). -/
structure Sends (ops : List Op) (bs : List (Bool × Byte)) : Prop where
  latch : ∀ l, latchedFrom l (eventsOf ops) = bs.flatMap nibblesOf
  low : ∀ l, l.e = false → (replay l (eventsOf ops)).e = false
  backlight : ∀ l v, l.bl = blLevel v → (replay l (eventsOf ops)).bl = blLevel (backlightAfter v ops)

theorem Sends.nil : Sends [] [] := ⟨fun _ => rfl, fun _ h => h, fun _ _ h => h⟩

theorem Sends.append {xs ys : List Op} {bs cs : List (Bool × Byte)} (hx : Sends xs bs) (hy : Sends ys cs) :
    Sends (xs ++ ys) (bs ++ cs) where
  latch l := by rw [eventsOf_append, latchedFrom_append _ _ _ (clean_eventsOf xs), hx.latch, hy.latch,
    List.flatMap_append]
  low l h := by rw [eventsOf_append, replay_append]; exact hy.low _ (hx.low l h)
  backlight l v h := by
    rw [eventsOf_append, replay_append, backlightAfter_append]; exact hy.backlight _ _ (hx.backlight l v h)

theorem Sends.flatMap {α : Type} (f : α → List Op) (g : α → Bool × Byte) (h : ∀ a, Sends (f a) [g a]) (as : List α) :
    Sends (as.flatMap f) (as.map g) := by
  induction as with
  | nil => exact Sends.nil
  | cons a as ih => exact (h a).append ih

/-- A `LIFE` write after the last action sends nothing. -/
theorem Sends.thenLife {ops : List Op} {bs : List (Bool × Byte)} (h : Sends ops bs) (l : Life) :
    Sends (thenLife l ops) bs := by
  refine ⟨?_, ?_, ?_⟩
  · simpa using h.latch
  · simpa using h.low
  · simpa using h.backlight

theorem sends_transmitOps (b : Byte) (m : Mode) : Sends (transmitOps b m) [(rsLevel m, b)] where
  latch l := by simp [nibblesOf]
  low l _ := by simp [levelsAfter]
  backlight l v h := by simpa [levelsAfter] using h

theorem sends_waitOp (n : Nat) : Sends [waitOp n] [] := ⟨fun _ => rfl, fun _ h => h, fun _ _ h => h⟩

theorem sends_backlightOp (v : Bool) : Sends [backlightOp v] [] :=
  ⟨fun _ => rfl, fun _ h => h, fun _ _ _ => rfl⟩

theorem sends_configureOps : Sends configureOps [] := ⟨fun _ => rfl, fun _ h => h, fun _ _ h => h⟩

theorem sends_blinkOps : Sends blinkOps [] :=
  (sends_backlightOp true).append <| (sends_waitOp _).append <| (sends_backlightOp false).append <|
    (sends_waitOp _).append (sends_backlightOp true)

theorem sends_initializerOps (c : Cfg) : Sends (initializerOps c) ((initializerBytes c).map (false, ·)) :=
  ((((((sends_transmitOps _ _).append ((sends_transmitOps _ _).thenLife _)).append (sends_transmitOps _ _)).append
    (sends_transmitOps _ _)).append ((sends_transmitOps _ _).thenLife _)).append (sends_transmitOps _ _)).append
    ((sends_waitOp _).thenLife _)

/-- The bytes of a host command that runs to its end, from the state after its register writes; an LCD-bus instruction
has no procedure and stands here with none. -/
def commandBytes (i : Instr) (s : State) : List (Bool × Byte) :=
  match i with
  | .construct => (initializerBytes s.cfg).map (false, ·)
  | .xmit m b => [(rsLevel m, b)]
  | .clear => [(false, clearByte)]
  | .home => [(false, homeByte)]
  | .setBacklight _ => []
  | .setCursor _ => [(false, displayControlByte s.cfg)]
  | .setBlink _ => [(false, displayControlByte s.cfg)]
  | .setDisplay _ => [(false, displayControlByte s.cfg)]
  | .render _ line => (false, line) :: s.lineBuf.toList.map (true, ·)
  | .release => []
  | _ => []

theorem sends_ops {i : Instr} {p : Procedure} (hp : procedureOf i = some p) (s : State) :
    Sends (p.ops s) (commandBytes i s) := by
  cases i <;> simp only [procedureOf, Option.some.injEq, reduceCtorEq] at hp <;> subst hp
  case construct =>
    have h := (sends_configureOps.append (sends_initializerOps s.cfg)).append sends_blinkOps
    rwa [List.nil_append, List.append_nil] at h
  case xmit m b => exact sends_transmitOps b m
  case clear => exact (sends_transmitOps clearByte .command).append (sends_waitOp _)
  case home => exact sends_transmitOps homeByte .command
  case setBacklight v => exact sends_backlightOp v
  case setCursor | setBlink => exact sends_transmitOps _ .command
  case setDisplay v =>
    have htail : Sends (if v then [] else [backlightOp false]) [] := by
      cases v
      · exact sends_backlightOp false
      · exact Sends.nil
    exact (sends_transmitOps _ .command).append htail
  case render j line =>
    exact (sends_transmitOps line .command).append
      (Sends.flatMap _ (true, ·) (fun c => sends_transmitOps c .data) s.lineBuf.toList)
  case release => exact ⟨fun _ => rfl, fun _ h => h, fun _ _ h => h⟩

/-! ### The actions of a command by kind -/

/-- Every command but `CONSTRUCT` and `RELEASE` transmits, waits and switches the backlight, and does only those of the
first and the last that it may (10_state.md R23; 20_memory.md R60). -/
theorem mem_ops {i : Instr} {p : Procedure} (hp : procedureOf i = some p) (hc : i ≠ .construct) (hr : i ≠ .release)
    {s : State} {op : Op} (h : op ∈ p.ops s) :
    (writesBus i = true ∧ ∃ b m, op ∈ transmitOps b m) ∨ (∃ n, op = waitOp n) ∨
      (writesBacklight i = true ∧ ∃ v, op = backlightOp v) := by
  cases i <;> simp only [procedureOf, Option.some.injEq, reduceCtorEq] at hp <;> subst hp
  case construct => exact absurd rfl hc
  case release => exact absurd rfl hr
  case xmit | home | setCursor | setBlink => exact .inl ⟨rfl, _, _, h⟩
  case clear =>
    rcases List.mem_append.1 h with h | h
    · exact .inl ⟨rfl, _, _, h⟩
    · exact .inr (.inl ⟨_, List.mem_singleton.1 h⟩)
  case setBacklight v => exact .inr (.inr ⟨rfl, v, List.mem_singleton.1 h⟩)
  case setDisplay v =>
    rcases List.mem_append.1 h with h | h
    · exact .inl ⟨rfl, _, _, h⟩
    · cases v
      · exact .inr (.inr ⟨rfl, false, List.mem_singleton.1 h⟩)
      · exact absurd h (List.not_mem_nil)
  case render j line =>
    simp only [renderProcedure, streamOps, List.mem_append, List.mem_flatMap] at h
    rcases h with h | ⟨c, -, h⟩
    · exact .inl ⟨rfl, _, _, h⟩
    · exact .inl ⟨rfl, _, _, h⟩

/-- An action that neither claims nor releases a pin and writes no `LIFE`. -/
def Op.keepsClaims (op : Op) : Prop :=
  op.life = none ∧ (∀ p, op.prim ≠ .configure p) ∧ op.prim ≠ .releaseAll

theorem keepsClaims_transmitOps {b : Byte} {m : Mode} {op : Op} (h : op ∈ transmitOps b m) : op.keepsClaims := by
  rcases mem_transmitOps h with ⟨p, v, rfl, -⟩ | rfl | rfl <;> exact ⟨rfl, nofun, nofun⟩

theorem keepsClaims_ops {i : Instr} {p : Procedure} (hp : procedureOf i = some p) (hc : i ≠ .construct)
    (hr : i ≠ .release) (s : State) : ∀ op ∈ p.ops s, op.keepsClaims := by
  intro op h
  rcases mem_ops hp hc hr h with ⟨-, b, m, h⟩ | ⟨n, rfl⟩ | ⟨-, v, rfl⟩
  · exact keepsClaims_transmitOps h
  · exact ⟨rfl, nofun, nofun⟩
  · exact ⟨rfl, nofun, nofun⟩

/-! ### Admission and the register writes in front of the first action -/

theorem admitted_of_check {i : Instr} {p : Procedure} (hp : procedureOf i = some p) {s : State}
    (h : p.check s = none) : s.life ∈ admittedIn i := by
  cases i <;> simp only [procedureOf, Option.some.injEq, reduceCtorEq] at hp <;> subst hp
  case render j line =>
    rcases hw : whenCleared s with _ | cause
    · simpa [admittedIn] using whenCleared_eq_none.1 hw
    · simp [renderProcedure, checkRender, hw] at h
  all_goals exact admitIn_eq_none.1 h

/-- The setup of a command writes `CFG.cursor`, `CFG.blink`, `CFG.display` and `LINEBUF`, and nothing else. -/
theorem setup_fields {i : Instr} {p : Procedure} (hp : procedureOf i = some p) (s : State) :
    ∃ cur bl d buf, p.setup s =
      { s with cfg := { s.cfg with cursor := cur, blink := bl, display := d }, lineBuf := buf } := by
  cases i <;> simp only [procedureOf, Option.some.injEq, reduceCtorEq] at hp <;> subst hp <;>
    exact ⟨_, _, _, _, rfl⟩

/-! ### LCD-bus instructions -/

/-- The byte and mode an LCD-bus instruction is transmitted with. -/
def lcdByte : Instr → Option (Byte × Mode)
  | .lReset33 => some (resetByte33, .command)
  | .lReset32 => some (resetByte32, .command)
  | .lFuncset w n f => some (composeFunctionSet w n f, .command)
  | .lDispctl d c b => some (composeDisplayControl d c b, .command)
  | .lEntry i s => some (composeEntryMode i s, .command)
  | .lClear => some (clearByte, .command)
  | .lHome => some (homeByte, .command)
  | .lSetddram a => some (setDdramByte a, .command)
  | .lData c => some (c, .data)
  | _ => none

theorem exec_of_lcdByte {i : Instr} {b : Byte} {m : Mode} (h : lcdByte i = some (b, m)) (s : State) :
    exec i s = .next (transmitAlone b m s) := by
  cases i <;> cases h <;> rfl

/-- A decoded LCD-bus instruction is sent as the nine bits it was decoded from (30_encoding.md R81, R82). -/
theorem lcdByte_of_decodeLcd {w : LcdWord} {i : Instr} (h : decodeLcd w = .ok i) :
    lcdByte i = some (w.extractLsb' 0 8, Mode.ofBit (w.getLsbD 8)) := by
  have key : ∀ w : LcdWord, (decodeLcd w).toOption.all
      (fun i => lcdByte i = some (w.extractLsb' 0 8, Mode.ofBit (w.getLsbD 8))) = true := by decide
  have := key w
  rw [h] at this
  simpa [Except.toOption] using this

/-- Nine bits handed to the transmitter are sent as they stand, row of the table or not (log 3). -/
theorem takeTransmit_eq (w : LcdWord) (s : State) :
    State.takeTransmit w s = .next (transmitAlone (w.extractLsb' 0 8) (Mode.ofBit (w.getLsbD 8)) s) := by
  unfold State.takeTransmit
  cases h : decodeLcd w with
  | ok i => exact exec_of_lcdByte (lcdByte_of_decodeLcd h) s
  | error e => rfl

/-! ### What a step of an idle block can do -/

/-- The command in `CMDL` of a block that has just accepted it, run to its end (30_encoding.md R75, R80). -/
theorem finish_accept_cases (c : Command) (s : State) :
    ((∃ e, decodeHost c.word = .error e) ∧
      (s.accept c).finish = .next ((s.accept c).raiseValidation .illegalOp)) ∨
    ∃ i p, decodeHost c.word = .ok i ∧ procedureOf i = some p ∧ (s.accept c).finish = .next (p.run (s.accept c)) := by
  have hf : (s.accept c).finish = (s.accept c).finishCommand := rfl
  rw [hf, State.finishCommand, accept_cmdl]
  cases h : decodeHost c.word with
  | error e => exact .inl ⟨⟨e, rfl⟩, rfl⟩
  | ok i =>
    obtain ⟨p, hp⟩ := procedureOf_of_decodeHost h
    exact .inr ⟨i, p, rfl, hp, by simpa using exec_of_procedureOf hp _⟩

theorem step_reset {s : State} {rest : List Input} (hi : s.inputs = .reset :: rest) :
    step s = .next (State.blockReset { s with inputs := rest }) := by
  simp [step, State.advance, hi]

theorem step_busy {s : State} (hb : s.busy = true) (hr : ∀ rest, s.inputs ≠ .reset :: rest) : step s = s.finish := by
  rcases hi : s.inputs with _ | ⟨x, rest⟩
  · simp [step, State.advance, hi, hb]
  · cases x with
    | reset => exact absurd hi (hr rest)
    | command c => simp [step, State.advance, hi, hb]
    | transmit w => simp [step, State.advance, hi, hb]

theorem step_nothing {s : State} (hb : s.busy = false) (hi : s.inputs = []) : step s = .next s.idle := by
  simp [step, State.advance, hi, hb]

theorem step_command {s : State} {c : Command} {rest : List Input} (hb : s.busy = false)
    (hi : s.inputs = .command c :: rest) : step s = (State.accept c { s with inputs := rest }).finish := by
  simp [step, State.advance, hi, hb]

theorem step_transmit {s : State} {w : LcdWord} {rest : List Input} (hb : s.busy = false)
    (hi : s.inputs = .transmit w :: rest) :
    step s = .next (transmitAlone (w.extractLsb' 0 8) (Mode.ofBit (w.getLsbD 8))
      { s with inputs := rest, rspValid := false }) := by
  rw [← takeTransmit_eq]
  simp [step, State.advance, hi, hb]

/-- One step of an idle block, by what is presented to it. -/
theorem step_idle_cases {s t : State} (hb : s.busy = false) (h : step s = .next t) :
    (∃ rest, s.inputs = .reset :: rest ∧ t = State.blockReset { s with inputs := rest }) ∨
    (s.inputs = [] ∧ t = s.idle) ∨
    (∃ c rest, s.inputs = .command c :: rest ∧
      t = (State.accept c { s with inputs := rest }).raiseValidation .illegalOp) ∨
    (∃ c rest i p, s.inputs = .command c :: rest ∧ decodeHost c.word = .ok i ∧ procedureOf i = some p ∧
      t = p.run (State.accept c { s with inputs := rest })) ∨
    (∃ w rest, s.inputs = .transmit w :: rest ∧ t =
      transmitAlone (w.extractLsb' 0 8) (Mode.ofBit (w.getLsbD 8)) { s with inputs := rest, rspValid := false }) := by
  rcases hi : s.inputs with _ | ⟨x, rest⟩
  · cases (step_nothing hb hi).symm.trans h
    exact .inr (.inl ⟨rfl, rfl⟩)
  cases x with
  | reset =>
    cases (step_reset hi).symm.trans h
    exact .inl ⟨rest, rfl, rfl⟩
  | command c =>
    have hs := (step_command hb hi).symm.trans h
    rcases finish_accept_cases c { s with inputs := rest } with ⟨-, hf⟩ | ⟨i, p, hd, hp, hf⟩
    · cases hf.symm.trans hs
      exact .inr (.inr (.inl ⟨c, rest, rfl, rfl⟩))
    · cases hf.symm.trans hs
      exact .inr (.inr (.inr (.inl ⟨c, rest, i, p, rfl, hd, hp, rfl⟩)))
  | transmit w =>
    cases (step_transmit hb hi).symm.trans h
    exact .inr (.inr (.inr (.inr ⟨w, rest, rfl, rfl⟩)))

end Sys2Proof.Machine

/-! PROOFS. The invariant of an idle block (70_reset_and_hazards.md R225): it holds at reset and every step keeps it. -/

namespace Sys2Proof.Machine

/-! ### The part of the invariant that does not speak of an idle block -/

/-- Without a fatal error: `TR` has no failed action, the latches are what it says, `E` is low, whole bytes have been
latched, and flag and pin of the backlight agree (the field `quiet` of `IdleInv`). -/
def Quiet (s : State) : Prop :=
  clean s.tr = true ∧ replay (Lines.all false) s.tr = s.pin ∧ s.pin.e = false ∧
    (latched s.tr).length % 2 = 0 ∧ s.pin.bl = blLevel s.cfg.backlight

/-- After a fatal error `TR` ends with the failed action, then at most one `Rel` (the field `fatal` of `IdleInv`). -/
def EndsFatally (s : State) : Prop :=
  ∃ es e, clean es = true ∧ e.isFailure = true ∧
    ((s.life = .faulted ∧ s.tr = es ++ [e]) ∨ (s.life = .released ∧ s.tr = es ++ [e, .rel]))

/-- `IdleInv` without its fields on the idle registers and on the response registers: what a command needs of the state
it finds after its acceptance, and what it gives back. -/
structure Lawful (s : State) : Prop where
  settled : s.life ≠ .busReset ∧ s.life ≠ .configured
  faultKnown : (s.life = .faulted → s.fkind ≠ .none) ∧ (s.fkind ≠ .none → s.life = .faulted ∨ s.life = .released)
  untouched : s.life = .uninitialized → s.tr = [] ∧ s.pin = Lines.all false ∧ s.oe = Lines.all false
  claimed : (s.life = .cleared → s.oe = Lines.all true) ∧ (s.life = .released → s.oe = Lines.all false)
  quiet : s.fkind = .none → Quiet s
  fatal : s.fkind ≠ .none → EndsFatally s

/-- `BUSY`, `SEQ`, `DLY` and `raising` of an idle block (the field `idle` of `IdleInv`). -/
def AtRest (s : State) : Prop := s.busy = false ∧ s.seq = 0 ∧ s.dly = 0 ∧ s.raising = none

theorem idleInv_iff {s : State} : IdleInv s ↔ AtRest s ∧ causeLegal s.rspStatus s.rspCause = true ∧ Lawful s := by
  constructor
  · rintro ⟨hidle, hsettled, hknown, hresp, huntouched, hclaimed, hquiet, hfatal⟩
    exact ⟨hidle, hresp, hsettled, hknown, huntouched, hclaimed, hquiet, hfatal⟩
  · rintro ⟨hidle, hresp, hsettled, hknown, huntouched, hclaimed, hquiet, hfatal⟩
    exact ⟨hidle, hsettled, hknown, hresp, huntouched, hclaimed, hquiet, hfatal⟩

/-- `Lawful` looks at six parts of the state only. -/
theorem Lawful.congr {s t : State} (h : Lawful s) (hlife : t.life = s.life) (hfkind : t.fkind = s.fkind)
    (htr : t.tr = s.tr) (hpin : t.pin = s.pin) (hoe : t.oe = s.oe) (hbl : t.cfg.backlight = s.cfg.backlight) :
    Lawful t := by
  obtain ⟨hsettled, hknown, huntouched, hclaimed, hquiet, hfatal⟩ := h
  unfold Quiet at hquiet
  unfold EndsFatally at hfatal
  constructor
  case quiet => unfold Quiet; rwa [hfkind, htr, hpin, hbl]
  case fatal => unfold EndsFatally; rwa [hfkind, htr, hlife]
  all_goals simpa only [hlife, hfkind, htr, hpin, hoe]

/-- The setup of a command keeps the invariant: it writes no field the invariant looks at. -/
theorem Lawful.setup {i : Instr} {p : Procedure} (hp : procedureOf i = some p) {s : State} (h : Lawful s) :
    Lawful (p.setup s) := by
  obtain ⟨_, _, _, _, he⟩ := setup_fields hp s
  rw [he]
  exact h.congr rfl rfl rfl rfl rfl rfl

theorem Lawful.no_error {s : State} (h : Lawful s) (hf : s.life ≠ .faulted) (hr : s.life ≠ .released) :
    s.fkind = .none := by
  by_contra hne
  rcases h.faultKnown.2 hne with hl | hl
  · exact hf hl
  · exact hr hl

/-! ### Lists of actions that all succeed -/

theorem succeedAll_life (ops : List Op) (s : State) : (succeedAll ops s).life = lifeAfter s.life ops := by
  rw [succeedAll_eq]

theorem succeedAll_fkind (ops : List Op) (s : State) : (succeedAll ops s).fkind = s.fkind := by
  rw [succeedAll_eq]

theorem succeedAll_cfg (ops : List Op) (s : State) :
    (succeedAll ops s).cfg = { s.cfg with backlight := backlightAfter s.cfg.backlight ops } := by
  rw [succeedAll_eq]

theorem succeedAll_tr (ops : List Op) (s : State) : (succeedAll ops s).tr = s.tr ++ eventsOf ops := by
  rw [succeedAll_eq]

theorem succeedAll_oe (ops : List Op) (s : State) : (succeedAll ops s).oe = enables s.oe (eventsOf ops) := by
  rw [succeedAll_eq]

theorem Sends.quiet {ops : List Op} {bs : List (Bool × Byte)} (h : Sends ops bs) {s : State} (hq : Quiet s) :
    Quiet (succeedAll ops s) := by
  obtain ⟨hclean, hreplay, hlow, heven, hbl⟩ := hq
  rw [succeedAll_eq]
  refine ⟨?_, ?_, h.low _ hlow, ?_, h.backlight _ _ hbl⟩
  · simp [hclean, clean_eventsOf]
  · simp only [replay_append, hreplay]
  · rw [latched_append _ _ hclean, h.latch, List.length_append, length_nibbles]
    omega

/-- What a list of actions sends, it sends after what was sent before. -/
theorem Sends.bytes {ops : List Op} {bs : List (Bool × Byte)} (h : Sends ops bs) {s : State} (hq : Quiet s) :
    bytes (succeedAll ops s).tr = bytes s.tr ++ bs := by
  obtain ⟨hclean, -, -, heven, -⟩ := hq
  rw [succeedAll_tr, Machine.bytes, latched_append _ _ hclean, h.latch, pairUp_append _ _ heven, pairUp_nibbles]
  rfl

/-- A list that ends in Cleared with all pins claimed, from a block without an error. -/
theorem Lawful.succeed_into_cleared {ops : List Op} {bs : List (Bool × Byte)} (hs : Sends ops bs) {s : State}
    (h : Lawful s) (hf : s.fkind = .none) (hlife : (succeedAll ops s).life = .cleared)
    (hoe : (succeedAll ops s).oe = Lines.all true) : Lawful (succeedAll ops s) := by
  have hf' : (succeedAll ops s).fkind = .none := by rw [succeedAll_fkind, hf]
  constructor
  case quiet => exact fun _ => hs.quiet (h.quiet hf)
  case fatal => exact fun hne => absurd hf' hne
  all_goals simp [hlife, hf', hoe]

/-- A list without claims and releases in Cleared. -/
theorem Lawful.succeed_in_cleared {ops : List Op} {bs : List (Bool × Byte)} (hs : Sends ops bs)
    (hk : ∀ op ∈ ops, op.keepsClaims) {s : State} (h : Lawful s) (hl : s.life = .cleared) :
    Lawful (succeedAll ops s) := by
  have hf : s.fkind = .none := h.no_error (by simp [hl]) (by simp [hl])
  refine h.succeed_into_cleared hs hf ?_ ?_
  · rw [succeedAll_life, lifeAfter_of_plain _ _ fun op ho => (hk op ho).1, hl]
  · rw [(Shape.succeedAll ops s).oe (fun op ho => (hk op ho).2.1) fun op ho => (hk op ho).2.2, h.claimed.1 hl]

/-- `CONSTRUCT`, to its end (42_init_release.md R141). -/
theorem Lawful.succeed_construct {s : State} (h : Lawful s) (hl : s.life = .uninitialized) :
    Lawful (succeedAll (constructProcedure.ops s) s) := by
  refine h.succeed_into_cleared (sends_ops (i := .construct) rfl s) (h.no_error (by simp [hl]) (by simp [hl])) ?_ ?_
  · rw [succeedAll_life]
    exact lifeAfter_construct _ _
  · rw [succeedAll_oe]
    exact (congrArg _ (eventsOf_construct s.cfg)).trans (enables_construct _ _)

/-- `RELEASE`, to its end, from a block that is not released (42_init_release.md R143). -/
theorem Lawful.succeed_release {s : State} (h : Lawful s) (hl : s.life ≠ .released) :
    Lawful (succeedAll (releaseProcedure.ops s) s) := by
  have hlife : (succeedAll (releaseProcedure.ops s) s).life = .released := succeedAll_life _ _
  have hoe : (succeedAll (releaseProcedure.ops s) s).oe = Lines.all false := succeedAll_oe _ _
  have htr : (succeedAll (releaseProcedure.ops s) s).tr = s.tr ++ [.rel] := succeedAll_tr _ _
  constructor
  case quiet => exact fun hf => (sends_ops (i := .release) rfl s).quiet (h.quiet ((succeedAll_fkind _ s).symm.trans hf))
  case fatal =>
    intro hne
    rw [succeedAll_fkind] at hne
    obtain ⟨es, e, hclean, hfail, ⟨-, heq⟩ | ⟨hr, -⟩⟩ := h.fatal hne
    · exact ⟨es, e, hclean, hfail, .inr ⟨hlife, by rw [htr, heq]; simp⟩⟩
    · exact absurd hr hl
  all_goals simp [hlife, hoe]

/-! ### A list of actions cut by a fault -/

theorem raise_fkind_ne_none (r : Raise) (s : State) : (s.raise r).fkind ≠ .none := by
  cases r with
  | transmission p =>
    change (s.raiseTransmission p).fkind ≠ .none
    rw [raiseTransmission_fkind]
    split_ifs with h
    · nofun
    · exact h
  | resource p => nofun

theorem causeLegal_raise (r : Raise) (s : State) : causeLegal (s.raise r).rspStatus (s.raise r).rspCause = true := by
  rcases r with p | p <;> cases p <;> rfl

theorem Op.isFailure_failed {op : Op} (hp : op.prim.event.isPinAction = true) :
    op.prim.event.failed.isFailure = true := by
  rcases op with ⟨_, prim, _⟩
  cases prim with
  | configure p | write p v => rfl
  | wait n | releaseAll => cases hp

theorem Op.fail_tr {op : Op} (hp : op.prim.event.isPinAction = true) (s : State) :
    (op.fail s).tr = s.tr ++ [op.prim.event.failed] := by
  obtain ⟨pin, draws, hc⟩ := Op.cut_eq hp s
  simp [Op.fail, hc]

/-- A first fatal error leaves a lawful block (60_exceptions.md R199). -/
theorem Lawful.fail {s : State} (h : Lawful s) (hf : s.fkind = .none) (done : List Op) {op : Op}
    (hp : op.prim.event.isPinAction = true) : Lawful (op.fail (succeedAll done s)) := by
  have hlife : (op.fail (succeedAll done s)).life = .faulted := raise_life _ _
  have hne : (op.fail (succeedAll done s)).fkind ≠ .none := raise_fkind_ne_none _ _
  constructor
  case quiet => exact fun h0 => absurd h0 hne
  case fatal =>
    refine fun _ => ⟨s.tr ++ eventsOf done, _, ?_, Op.isFailure_failed hp, .inl ⟨hlife, ?_⟩⟩
    · simp [(h.quiet hf).1, clean_eventsOf]
    · rw [Op.fail_tr hp, succeedAll_tr]
  all_goals simp [hlife, hne]

/-! ### Whole commands -/

theorem isPinAction_of_release {op : Op} {done rest : List Op} {s : State}
    (h : releaseProcedure.ops s = done ++ op :: rest) : op.prim.event.isPinAction = false := by
  have hm : op ∈ releaseProcedure.ops s := by rw [h]; simp
  rw [List.mem_singleton.1 hm]
  rfl

theorem mem_admittedIn_release {l : Life} :
    l ∈ admittedIn .release ↔ l = .uninitialized ∨ l = .cleared ∨ l = .faulted := by
  simp [admittedIn]

theorem cleared_of_admitted {i : Instr} (hc : i ≠ .construct) (hr : i ≠ .release) {l : Life} (h : l ∈ admittedIn i) :
    l = .cleared := by
  cases i
  case construct => exact absurd rfl hc
  case release => exact absurd rfl hr
  all_goals exact List.mem_singleton.1 h

theorem setup_life {i : Instr} {p : Procedure} (hp : procedureOf i = some p) (s : State) :
    (p.setup s).life = s.life := by
  obtain ⟨_, _, he⟩ := setup_eq hp s
  rw [he]

/-- A command keeps the invariant, whatever `io_fault` does. -/
theorem Lawful.run {i : Instr} {p : Procedure} (hp : procedureOf i = some p) {s : State} (h : Lawful s) :
    Lawful (p.run s) := by
  rcases run_cases p s with ⟨cause, -, he⟩ | ⟨hc, he⟩ | ⟨hc, done, op, rest, hops, hpin, -, he⟩
  · rw [he]
    exact h.congr rfl rfl rfl rfl rfl rfl
  · have hadm := admitted_of_check hp hc
    suffices hsucc : Lawful (succeedAll (p.ops (p.setup s)) (p.setup s)) by
      rw [he]
      exact hsucc.congr rfl rfl rfl rfl rfl rfl
    rcases eq_or_ne i .construct with rfl | hcon
    · cases hp
      exact h.succeed_construct (List.mem_singleton.1 hadm)
    rcases eq_or_ne i .release with rfl | hrel
    · cases hp
      refine h.succeed_release fun hl => ?_
      simp [mem_admittedIn_release, hl] at hadm
    · exact (h.setup hp).succeed_in_cleared (sends_ops hp _) (keepsClaims_ops hp hcon hrel _)
        ((setup_life hp s).trans (cleared_of_admitted hcon hrel hadm))
  · have hadm := admitted_of_check hp hc
    rw [he]
    refine (h.setup hp).fail ((h.setup hp).no_error ?_ ?_) done hpin
    all_goals
      rw [setup_life hp]
      intro hl
      rcases eq_or_ne i .release with rfl | hrel
      · cases hp
        rw [isPinAction_of_release hops] at hpin
        cases hpin
      rcases eq_or_ne i .construct with rfl | hcon
      · cases hl.symm.trans (List.mem_singleton.1 hadm)
      · cases hl.symm.trans (cleared_of_admitted hcon hrel hadm)

/-- An LCD-bus instruction by itself keeps the invariant, whatever `io_fault` does. -/
theorem Lawful.transmitAlone {s : State} (h : Lawful s) (b : Byte) (m : Mode) : Lawful (transmitAlone b m s) := by
  rcases transmitAlone_cases b m s with ⟨-, he⟩ | ⟨hl, he⟩ | ⟨hl, done, op, rest, -, hpin, -, he⟩
  · rwa [he]
  · rw [he]
    exact h.succeed_in_cleared (sends_transmitOps b m) (fun op ho => keepsClaims_transmitOps ho) hl
  · rw [he]
    exact h.fail (h.no_error (by simp [hl]) (by simp [hl])) done hpin

/-! ### The idle registers and the response -/

theorem succeedAll_dly {ops : List Op} {s : State} (hd : s.dly = 0) : (succeedAll ops s).dly = 0 := by
  rw [succeedAll_eq]
  simp [hd]

theorem succeedAll_raising (ops : List Op) (s : State) : (succeedAll ops s).raising = s.raising := by
  rw [succeedAll_eq]

theorem Op.fail_atRest {op : Op} (hp : op.prim.event.isPinAction = true) {s : State} (hd : s.dly = 0)
    (hr : s.raising = none) : AtRest (op.fail s) := by
  obtain ⟨pin, draws, hc⟩ := Op.cut_eq hp s
  refine ⟨raise_busy _ _, raise_seq _ _, ?_, ?_⟩
  · simp [Op.fail, hc, Op.before_eq, hd]
  · simp [Op.fail, hc, Op.before_eq, hr]

/-- Every end of a command leaves the block at rest with a legal response (30_encoding.md R79, R80). -/
theorem run_atRest {i : Instr} {p : Procedure} (hp : procedureOf i = some p) {s : State} (hd : s.dly = 0)
    (hr : s.raising = none) : AtRest (p.run s) ∧ causeLegal (p.run s).rspStatus (p.run s).rspCause = true := by
  obtain ⟨_, _, hset⟩ := setup_eq hp s
  have hd' : (p.setup s).dly = 0 := by rw [hset, hd]
  have hr' : (p.setup s).raising = none := by rw [hset, hr]
  rcases run_cases p s with ⟨cause, -, he⟩ | ⟨-, he⟩ | ⟨-, done, op, rest, -, hpin, -, he⟩
  · rw [he]
    exact ⟨⟨rfl, rfl, hd, hr⟩, by cases cause <;> rfl⟩
  · rw [he]
    exact ⟨⟨rfl, rfl, succeedAll_dly hd', (succeedAll_raising _ _).trans hr'⟩, rfl⟩
  · rw [he]
    exact ⟨Op.fail_atRest hpin (succeedAll_dly hd') ((succeedAll_raising _ _).trans hr'), causeLegal_raise _ _⟩

theorem transmitAlone_atRest {s : State} (h : AtRest s) (hc : causeLegal s.rspStatus s.rspCause = true) (b : Byte)
    (m : Mode) : AtRest (transmitAlone b m s) ∧
      causeLegal (transmitAlone b m s).rspStatus (transmitAlone b m s).rspCause = true := by
  obtain ⟨hb, hs, hd, hr⟩ := h
  rcases transmitAlone_cases b m s with ⟨-, he⟩ | ⟨-, he⟩ | ⟨-, done, op, rest, -, hpin, -, he⟩
  · rw [he]
    exact ⟨⟨hb, hs, hd, hr⟩, hc⟩
  · rw [he, succeedAll_transmitOps]
    exact ⟨⟨hb, by simp [hb, hs], rfl, hr⟩, hc⟩
  · rw [he]
    exact ⟨Op.fail_atRest hpin (succeedAll_dly hd) ((succeedAll_raising _ _).trans hr), causeLegal_raise _ _⟩

/-! ### The invariant of an idle block -/

/-- The state after reset, whatever the outside world presents, meets the invariant (70_reset_and_hazards.md R225). -/
theorem idleInv_blockReset (s : State) : IdleInv s.blockReset where
  idle := ⟨rfl, rfl, rfl, rfl⟩
  settled := ⟨nofun, nofun⟩
  faultKnown := ⟨nofun, fun h => absurd rfl h⟩
  response := rfl
  untouched := fun _ => ⟨rfl, rfl, rfl⟩
  claimed := ⟨nofun, nofun⟩
  quiet := fun _ => ⟨rfl, rfl, rfl, rfl, rfl⟩
  fatal := fun h => absurd rfl h

/-- One step keeps the invariant. -/
theorem IdleInv.step {s t : State} (h : IdleInv s) (hst : step s = .next t) : IdleInv t := by
  obtain ⟨hrest, hresp, hlaw⟩ := idleInv_iff.1 h
  obtain ⟨hb, hseq, hd, hr⟩ := hrest
  rcases step_idle_cases hb hst with ⟨rest, -, rfl⟩ | ⟨-, rfl⟩ | ⟨c, rest, -, rfl⟩ | ⟨c, rest, i, p, -, -, hp, rfl⟩ |
    ⟨w, rest, -, rfl⟩
  · exact idleInv_blockReset _
  · exact idleInv_iff.2 ⟨⟨hb, hseq, hd, hr⟩, hresp, hlaw.congr rfl rfl rfl rfl rfl rfl⟩
  · exact idleInv_iff.2 ⟨⟨rfl, rfl, hd, rfl⟩, rfl, hlaw.congr rfl rfl rfl rfl rfl rfl⟩
  · have hacc : Lawful (State.accept c { s with inputs := rest }) := hlaw.congr rfl rfl rfl rfl rfl rfl
    obtain ⟨hrest', hresp'⟩ := run_atRest hp (s := State.accept c { s with inputs := rest }) hd rfl
    exact idleInv_iff.2 ⟨hrest', hresp', hacc.run hp⟩
  · have hlaw' : Lawful { s with inputs := rest, rspValid := false } := hlaw.congr rfl rfl rfl rfl rfl rfl
    obtain ⟨hrest', hresp'⟩ := transmitAlone_atRest (s := { s with inputs := rest, rspValid := false })
      ⟨hb, hseq, hd, hr⟩ hresp (w.extractLsb' 0 8) (Mode.ofBit (w.getLsbD 8))
    exact idleInv_iff.2 ⟨hrest', hresp', hlaw'.transmitAlone _ _⟩

/-- Settles O37: by what a step of an idle block can do, each of whose five cases keeps the invariant. -/
theorem stepsKeepTheIdleInvariant : Obligations.StepsKeepTheIdleInvariant :=
  fun _ _ h hst => h.step hst

/-- Settles O36: reset is the reset of a block, whatever state it was in. -/
theorem resetMeetsTheIdleInvariant : Obligations.ResetMeetsTheIdleInvariant :=
  idleInv_blockReset State.reset

end Sys2Proof.Machine

/-! PROOFS. The last display-control byte sent is that of `CFG` (10_state.md R23; 43_display_control.md R152). -/

namespace Sys2Proof.Machine

/-! ### The last display-control byte of a list of bytes -/

theorem lastDisplayControl_append (bs cs : List (Bool × Byte)) :
    lastDisplayControl (bs ++ cs) = (lastDisplayControl cs).or (lastDisplayControl bs) := by
  simp [lastDisplayControl, List.getLast?_append, Option.map_or]

theorem lastDisplayControl_cons (b : Bool × Byte) (bs : List (Bool × Byte)) :
    lastDisplayControl (b :: bs) = (lastDisplayControl bs).or (lastDisplayControl [b]) :=
  lastDisplayControl_append [b] bs

theorem lastDisplayControl_data (bs : List Byte) : lastDisplayControl (bs.map (true, ·)) = none := by
  simp [lastDisplayControl]

theorem lastDisplayControl_of_ne {b : Byte} (h : b.extractLsb' 3 5 ≠ 1#5) (r : Bool) :
    lastDisplayControl [(r, b)] = none := by
  simp [lastDisplayControl, h]

@[simp] theorem lastDisplayControl_displayControlByte (c : Cfg) :
    lastDisplayControl [(false, displayControlByte c)] = some (displayControlByte c) := by
  have h : (displayControlByte c).extractLsb' 3 5 = 1#5 := by
    unfold displayControlByte
    cases c.display <;> cases c.cursor <;> cases c.blink <;> rfl
  simp [lastDisplayControl, h]

@[simp] theorem lastDisplayControl_entryModeByte (c : Cfg) : lastDisplayControl [(false, entryModeByte c)] = none := by
  refine lastDisplayControl_of_ne ?_ _
  unfold entryModeByte
  cases c.entryDirection.isLeft <;> cases c.entryShift.isIncrement <;> decide

@[simp] theorem lastDisplayControl_clearByte : lastDisplayControl [(false, clearByte)] = none := by decide

/-- `CONSTRUCT` ends with the display-control byte of `CFG` as the last one sent (42_init_release.md R138). -/
theorem lastDisplayControl_initializerBytes (c : Cfg) :
    lastDisplayControl ((initializerBytes c).map (false, ·)) = some (displayControlByte c) := by
  have h : (initializerBytes c).map (false, ·) =
      [(false, 0x33#8), (false, 0x32#8), (false, functionSetByte c)] ++
        ([(false, displayControlByte c)] ++ ([(false, entryModeByte c)] ++ [(false, clearByte)])) := rfl
  rw [h, lastDisplayControl_append, lastDisplayControl_append, lastDisplayControl_append]
  simp

theorem isLineAddress_of_check {j : Justify} {line : Byte} {s : State} (h : (renderProcedure j line).check s = none) :
    isLineAddress line = true := by
  by_contra hne
  rw [Bool.not_eq_true] at hne
  simp only [renderProcedure, checkRender, renderCheck, hne, Bool.false_eq_true, if_false] at h
  split at h
  · cases h
  · split_ifs at h

/-- A `RENDER` sends a set-address byte, then characters (44_text_render.md R178). -/
theorem lastDisplayControl_commandBytes_render {line : Byte} (h : isLineAddress line = true) (j : Justify) (s : State) :
    lastDisplayControl (commandBytes (.render j line) s) = none := by
  have hline : line.extractLsb' 3 5 ≠ 1#5 := by
    simp only [isLineAddress, lineAddresses, List.contains_iff_mem, List.mem_cons, List.not_mem_nil, or_false] at h
    rcases h with rfl | rfl | rfl | rfl <;> decide
  rw [commandBytes, lastDisplayControl_cons, lastDisplayControl_data, lastDisplayControl_of_ne hline]
  rfl

/-! ### What sends a raw display-control byte -/

theorem eq_of_decodeBare {w : Word} {i i' : Instr} (h : decodeBare w i = .ok i') : i' = i := by
  unfold decodeBare at h
  split_ifs at h
  cases h
  rfl

theorem eq_of_decodeBoolean {w : Word} {f : Bool → Instr} {i : Instr} (h : decodeBoolean w f = .ok i) :
    ∃ v, i = f v := by
  unfold decodeBoolean at h
  split_ifs at h
  cases h
  exact ⟨_, rfl⟩

theorem eq_of_decodeRender {w : Word} {i : Instr} (h : decodeRender w = .ok i) : ∃ j line, i = .render j line := by
  unfold decodeRender at h
  split_ifs at h
  cases h
  exact ⟨_, _, rfl⟩

/-- Only `op` 0x2 is an `XMIT` (30_encoding.md R72). -/
theorem decodeHost_xmit {w : Word} {m : Mode} {b : Byte} (h : decodeHost w = .ok (.xmit m b)) :
    opField w = 0x2#4 ∧ decodeXmit w = .ok (.xmit m b) := by
  by_cases hop : opField w = 0x2#4
  · exact ⟨hop, by simpa [decodeHost, hop] using h⟩
  exfalso
  unfold decodeHost at h
  rw [if_neg hop] at h
  rcases ok_of_if h with h | h
  · cases eq_of_decodeBare h
  rcases ok_of_if h with h | h
  · cases eq_of_decodeBare h
  rcases ok_of_if h with h | h
  · cases eq_of_decodeBare h
  rcases ok_of_if h with h | h
  · obtain ⟨_, ⟨⟩⟩ := eq_of_decodeBoolean h
  rcases ok_of_if h with h | h
  · obtain ⟨_, ⟨⟩⟩ := eq_of_decodeBoolean h
  rcases ok_of_if h with h | h
  · obtain ⟨_, ⟨⟩⟩ := eq_of_decodeBoolean h
  rcases ok_of_if h with h | h
  · obtain ⟨_, ⟨⟩⟩ := eq_of_decodeBoolean h
  rcases ok_of_if h with h | h
  · obtain ⟨_, _, ⟨⟩⟩ := eq_of_decodeRender h
  rcases ok_of_if h with h | h
  · cases eq_of_decodeBare h
  · cases h

/-- The word of an `XMIT` of a Command (30_encoding.md R72, R73). -/
theorem toNat_of_decodeHost_xmit {w : Word} {b : Byte} (h : decodeHost w = .ok (.xmit .command b)) :
    w.toNat = 0x2000 + b.toNat := by
  obtain ⟨hop, hx⟩ := decodeHost_xmit h
  unfold decodeXmit at hx
  split_ifs at hx with haux
  simp only [Except.ok.injEq, Instr.xmit.injEq] at hx
  obtain ⟨hmode, rfl⟩ := hx
  have hbit : (auxField w).getLsbD 0 = false := by
    cases hb : (auxField w).getLsbD 0
    · rfl
    · rw [hb] at hmode
      cases hmode
  have hop' := congrArg BitVec.toNat hop
  have haux' := congrArg BitVec.toNat haux
  simp only [opField, auxField, immField, BitVec.extractLsb'_toNat, BitVec.getLsbD, Nat.testBit_zero,
    decide_eq_false_iff_not, Nat.shiftRight_eq_div_pow, BitVec.toNat_ofNat] at hop' haux' hbit ⊢
  omega

/-- A byte in the row of `L.DISPCTL` is one of 0x08 to 0x0F (30_encoding.md R84). -/
theorem toNat_of_displayControl {b : Byte} (h : b.extractLsb' 3 5 = 1#5) : 0x08 ≤ b.toNat ∧ b.toNat ≤ 0x0F := by
  have h' := congrArg BitVec.toNat h
  simp only [BitVec.extractLsb'_toNat, Nat.shiftRight_eq_div_pow, BitVec.toNat_ofNat] at h'
  omega

theorem xmit_sends_no_displayControl {c : Command} (hx : (Input.command c).sendsRawDisplayControl = false) {m : Mode}
    {b : Byte} (h : decodeHost c.word = .ok (.xmit m b)) : lastDisplayControl [(rsLevel m, b)] = none := by
  cases m with
  | data => exact lastDisplayControl_data [b]
  | command =>
    refine lastDisplayControl_of_ne (fun hb => ?_) _
    have hw := toNat_of_decodeHost_xmit h
    obtain ⟨hlo, hhi⟩ := toNat_of_displayControl hb
    simp [Input.sendsRawDisplayControl, hw] at hx
    omega

theorem transmit_sends_no_displayControl {w : LcdWord} (hx : (Input.transmit w).sendsRawDisplayControl = false) :
    lastDisplayControl [(rsLevel (Mode.ofBit (w.getLsbD 8)), w.extractLsb' 0 8)] = none := by
  cases hm : w.getLsbD 8 with
  | true => exact lastDisplayControl_data [_]
  | false =>
    refine lastDisplayControl_of_ne (fun hb => ?_) _
    obtain ⟨hlo, hhi⟩ := toNat_of_displayControl hb
    have hlt := w.isLt
    simp only [BitVec.getLsbD, Nat.testBit_eq_decide_div_mod_eq, decide_eq_false_iff_not] at hm
    simp only [BitVec.extractLsb'_toNat, Nat.shiftRight_eq_div_pow] at hlo hhi
    simp [Input.sendsRawDisplayControl] at hx
    omega

/-! ### Every command leaves the display-control byte current -/

/-- What a command sends ends with the display-control byte of `CFG`, or has none and `CFG` is not written. -/
theorem displayControl_of_command {i : Instr} {p : Procedure} (hp : procedureOf i = some p)
    (hx : ∀ m b, i = .xmit m b → lastDisplayControl [(rsLevel m, b)] = none) {s : State} (hc : p.check s = none) :
    lastDisplayControl (commandBytes i (p.setup s)) = some (displayControlByte (p.setup s).cfg) ∨
      (lastDisplayControl (commandBytes i (p.setup s)) = none ∧ (p.setup s).cfg = s.cfg) := by
  cases i <;> simp only [procedureOf, Option.some.injEq, reduceCtorEq] at hp <;> subst hp
  case construct => exact .inl (lastDisplayControl_initializerBytes s.cfg)
  case setCursor | setBlink | setDisplay => exact .inl (lastDisplayControl_displayControlByte _)
  case xmit m b => exact .inr ⟨hx m b rfl, rfl⟩
  case clear => exact .inr ⟨lastDisplayControl_clearByte, rfl⟩
  case home => exact .inr ⟨lastDisplayControl_of_ne (by decide) _, rfl⟩
  case setBacklight | release => exact .inr ⟨rfl, rfl⟩
  case render j line =>
    have hcfg : (fillLineBuf j s).cfg = s.cfg := by rw [fillLineBuf_eq]
    exact .inr ⟨lastDisplayControl_commandBytes_render (isLineAddress_of_check hc) j _, hcfg⟩

theorem displayControlByte_succeedAll (ops : List Op) (s : State) :
    displayControlByte (succeedAll ops s).cfg = displayControlByte s.cfg := by
  rw [succeedAll_cfg]
  rfl

/-- Where a command can leave the block Cleared: `CONSTRUCT`, or one that found it Cleared. -/
theorem construct_or_cleared {i : Instr} {p : Procedure} (hp : procedureOf i = some p) {s : State}
    (hc : p.check s = none) (hl : (succeedAll (p.ops (p.setup s)) (p.setup s)).life = .cleared) :
    (i = .construct ∧ s.life = .uninitialized) ∨ s.life = .cleared := by
  have hadm := admitted_of_check hp hc
  rcases eq_or_ne i .construct with rfl | hcon
  · exact .inl ⟨rfl, List.mem_singleton.1 hadm⟩
  rcases eq_or_ne i .release with rfl | hrel
  · cases hp
    rw [succeedAll_life] at hl
    cases hl
  · exact .inr (cleared_of_admitted hcon hrel hadm)

theorem DisplayByteCurrent.run {i : Instr} {p : Procedure} (hp : procedureOf i = some p)
    (hx : ∀ m b, i = .xmit m b → lastDisplayControl [(rsLevel m, b)] = none) {s : State} (hlaw : Lawful s)
    (h : DisplayByteCurrent s) : DisplayByteCurrent (p.run s) := by
  rcases run_cases p s with ⟨cause, -, he⟩ | ⟨hc, he⟩ | ⟨-, done, op, rest, -, -, -, he⟩
  · rw [he]
    exact h
  · rw [he]
    intro hl
    change lastDisplayControl (bytes (succeedAll (p.ops (p.setup s)) (p.setup s)).tr) =
      some (displayControlByte (succeedAll (p.ops (p.setup s)) (p.setup s)).cfg)
    have hlife := construct_or_cleared hp hc hl
    have hf : (p.setup s).fkind = .none := by
      refine (hlaw.setup hp).no_error ?_ ?_ <;> rw [setup_life hp] <;> rcases hlife with ⟨-, hl⟩ | hl <;> simp [hl]
    rw [(sends_ops hp _).bytes ((hlaw.setup hp).quiet hf), lastDisplayControl_append, displayControlByte_succeedAll]
    rcases displayControl_of_command hp hx hc with hsent | ⟨hnone, hcfg⟩
    · rw [hsent]
      rfl
    · rcases hlife with ⟨rfl, -⟩ | hcl
      · cases hp
        exact absurd hnone (by simp [commandBytes, lastDisplayControl_initializerBytes])
      · obtain ⟨_, _, hset⟩ := setup_eq hp s
        have htr : (p.setup s).tr = s.tr := by rw [hset]
        rw [hnone, hcfg, htr, h hcl]
        rfl
  · intro hl
    rw [he] at hl
    cases (raise_life _ _).symm.trans hl

theorem DisplayByteCurrent.transmitAlone {s : State} (hlaw : Lawful s) (h : DisplayByteCurrent s) {b : Byte} {m : Mode}
    (hx : lastDisplayControl [(rsLevel m, b)] = none) : DisplayByteCurrent (transmitAlone b m s) := by
  rcases transmitAlone_cases b m s with ⟨-, he⟩ | ⟨hcl, he⟩ | ⟨-, done, op, rest, -, -, -, he⟩
  · rwa [he]
  · have hf : s.fkind = .none := hlaw.no_error (by simp [hcl]) (by simp [hcl])
    intro _
    rw [he, (sends_transmitOps b m).bytes (hlaw.quiet hf), lastDisplayControl_append, displayControlByte_succeedAll, hx,
      h hcl]
    rfl
  · intro hl
    rw [he] at hl
    cases (raise_life _ _).symm.trans hl

/-- Settles O44: by what a step of an idle block can do; what a command appends is known byte by byte (`sends_ops`). -/
theorem displayByteFollowsTheConfiguration : Obligations.DisplayByteFollowsTheConfiguration := by
  intro s t hinv hcur hraw hst
  obtain ⟨⟨hb, -⟩, -, hlaw⟩ := idleInv_iff.1 hinv
  rcases step_idle_cases hb hst with ⟨rest, -, rfl⟩ | ⟨-, rfl⟩ | ⟨c, rest, -, rfl⟩ |
    ⟨c, rest, i, p, hi, hd, hp, rfl⟩ | ⟨w, rest, hi, rfl⟩
  · exact nofun
  · exact hcur
  · exact hcur
  · refine DisplayByteCurrent.run hp ?_ (hlaw.congr rfl rfl rfl rfl rfl rfl) hcur
    rintro m b rfl
    exact xmit_sends_no_displayControl (hraw _ _ hi) hd
  · have hlaw' : Lawful { s with inputs := rest, rspValid := false } := hlaw.congr rfl rfl rfl rfl rfl rfl
    exact DisplayByteCurrent.transmitAlone hlaw' hcur (transmit_sends_no_displayControl (hraw _ _ hi))

end Sys2Proof.Machine

/-! PROOFS. The packing of `CFG` (10_state.md R22) and the lengths of the lists of actions (10_state.md R33). -/

namespace Sys2Proof.Machine

/-! ### Packing `CFG` -/

theorem getLsbD_append_ofBool_zero {n : Nat} (x : BitVec n) (b : Bool) : (x ++ BitVec.ofBool b).getLsbD 0 = b := by
  simp [BitVec.getElem_append]

theorem getLsbD_append_ofBool_succ {n : Nat} (x : BitVec n) (b : Bool) (k : Nat) :
    (x ++ BitVec.ofBool b).getLsbD (k + 1) = x.getLsbD k := by
  simp [BitVec.getLsbD_append]

/-- The nine bits of a packed `CFG`, one for each field (10_state.md R22). -/
theorem pack_bits (c : Cfg) :
    c.pack.getLsbD 0 = c.backlight ∧ c.pack.getLsbD 1 = c.entryDirection.isLeft ∧
      c.pack.getLsbD 2 = c.entryShift.isIncrement ∧ c.pack.getLsbD 3 = c.blink ∧ c.pack.getLsbD 4 = c.cursor ∧
      c.pack.getLsbD 5 = c.display ∧ c.pack.getLsbD 6 = c.busWidth.isEight ∧ c.pack.getLsbD 7 = c.lineCount.isTwo ∧
      c.pack.getLsbD 8 = c.font.is5x10 := by
  refine ⟨?_, ?_, ?_, ?_, ?_, ?_, ?_, ?_, ?_⟩ <;>
    simp only [Cfg.pack, getLsbD_append_ofBool_zero, getLsbD_append_ofBool_succ, BitVec.getLsbD_ofBool]
  · rfl

theorem unpack_pack (c : Cfg) : Cfg.unpack c.pack = c := by
  obtain ⟨h0, h1, h2, h3, h4, h5, h6, h7, h8⟩ := pack_bits c
  rw [Cfg.unpack, h0, h1, h2, h3, h4, h5, h6, h7, h8]
  rcases c with ⟨_, direction, shift, _, _, _, width, lines, font⟩
  congr 1
  · cases direction <;> rfl
  · cases shift <;> rfl
  · cases width <;> rfl
  · cases lines <;> rfl
  · cases font <;> rfl

theorem pack_unpack (v : BitVec 9) : (Cfg.unpack v).pack = v := by
  obtain ⟨h0, h1, h2, h3, h4, h5, h6, h7, h8⟩ := pack_bits (Cfg.unpack v)
  apply BitVec.eq_of_getLsbD_eq
  intro k hk
  interval_cases k
  · exact h0
  · rw [h1, Cfg.unpack]; cases v.getLsbD 1 <;> rfl
  · rw [h2, Cfg.unpack]; cases v.getLsbD 2 <;> rfl
  · exact h3
  · exact h4
  · exact h5
  · rw [h6, Cfg.unpack]; cases v.getLsbD 6 <;> rfl
  · rw [h7, Cfg.unpack]; cases v.getLsbD 7 <;> rfl
  · rw [h8, Cfg.unpack]; cases v.getLsbD 8 <;> rfl

/-- Settles O7: the two directions of the packing, and the value of `CFG_RESET` by evaluation. -/
theorem packedConfiguration : Obligations.PackedConfiguration :=
  ⟨unpack_pack, pack_unpack, by decide, by decide, by decide, by decide⟩

/-! ### The lengths of the lists of actions -/

theorem length_eventsOf (ops : List Op) : (eventsOf ops).length = ops.length := List.length_map _

theorem length_renderEvents (line : Byte) (cells : Row) :
    (renderEvents line cells).length = 19 + popcount line + (cells.toList.map fun c => 19 + popcount c).sum := by
  simp [renderEvents, length_transmitEvents, List.length_flatMap]

/-- A line address has one to four 1 bits (20_memory.md R54). -/
theorem popcount_lineAddress {line : Byte} (h : line ∈ lineAddresses) : 1 ≤ popcount line ∧ popcount line ≤ 4 := by
  simp only [lineAddresses, List.mem_cons, List.not_mem_nil, or_false] at h
  rcases h with rfl | rfl | rfl | rfl <;> decide

theorem length_renderEvents_bounds {line : Byte} (h : line ∈ lineAddresses) (cells : Row) :
    400 ≤ (renderEvents line cells).length ∧ (renderEvents line cells).length ≤ 563 := by
  obtain ⟨hlo, hhi⟩ := popcount_lineAddress h
  have hmin := List.card_nsmul_le_sum (cells.toList.map fun c => 19 + popcount c) 19 (by simp)
  have hmax := List.sum_le_card_nsmul (cells.toList.map fun c => 19 + popcount c) 27 (by
    simp only [List.mem_map, forall_exists_index, and_imp, forall_apply_eq_imp_iff₂]
    intro c _
    have := popcount_le c
    omega)
  simp only [List.length_map, Vector.length_toList, smul_eq_mul] at hmin hmax
  rw [length_renderEvents]
  omega

theorem length_constructEvents (c : Cfg) :
    (constructEvents c).length = 127 + ((initializerBytes c).map popcount).sum := by
  simp [constructEvents, configureEvents, blinkEvents, initializerBytes, length_transmitEvents]
  omega

/-- No admitted command is longer than the longest `RENDER` (10_state.md R33). -/
theorem length_ops_le {i : Instr} {p : Procedure} (hp : procedureOf i = some p) {s : State} (hc : p.check s = none) :
    (p.ops (p.setup s)).length ≤ 563 := by
  have htransmit (b : Byte) (m : Mode) : (transmitOps b m).length ≤ 27 := by
    have := popcount_le b
    rw [length_transmitOps]
    omega
  cases i <;> simp only [procedureOf, Option.some.injEq, reduceCtorEq] at hp <;> subst hp
  case construct =>
    have hlen := congrArg List.length (eventsOf_construct s.cfg)
    rw [length_eventsOf, length_constructEvents] at hlen
    have hsum := List.sum_le_card_nsmul ((initializerBytes s.cfg).map popcount) 8 (by
      simp only [List.mem_map, forall_exists_index, and_imp, forall_apply_eq_imp_iff₂]
      exact fun b _ => popcount_le b)
    simp only [List.length_map, smul_eq_mul] at hsum
    change _ ≤ 6 * 8 at hsum
    change (configureOps ++ initializerOps s.cfg ++ blinkOps).length ≤ 563
    omega
  case xmit | home | setCursor | setBlink => exact (htransmit _ _).trans (by decide)
  case clear =>
    have := htransmit clearByte .command
    simp only [clearProcedure, List.length_append, List.length_singleton]
    omega
  case setBacklight | release => exact Nat.le_of_ble_eq_true rfl
  case setDisplay v =>
    have hb := htransmit (displayControlByte ((setDisplayProcedure v).setup s).cfg) .command
    have htail : (if v then ([] : List Op) else [backlightOp false]).length ≤ 1 := by cases v <;> decide
    simp only [setDisplayProcedure, displayControlOps, List.length_append] at hb ⊢
    omega
  case render j line =>
    have hline : line ∈ lineAddresses := List.contains_iff_mem.1 (isLineAddress_of_check hc)
    have hlen (u : State) : ((renderProcedure j line).ops u).length = (renderEvents line u.lineBuf).length := by
      rw [← eventsOf_streamOps, length_eventsOf]
      rfl
    rw [hlen]
    exact (length_renderEvents_bounds hline _).2

/-- Settles O32: by the popcounts of the line addresses and of a byte. -/
theorem actionListsAreBounded : Obligations.ActionListsAreBounded :=
  ⟨fun line cells hline => ⟨length_renderEvents line cells, length_renderEvents_bounds hline cells⟩,
    fun _ _ _ hp hc => length_ops_le hp hc⟩

end Sys2Proof.Machine

/-! PROOFS. What each instruction and each step leaves unchanged (10_state.md R23; 20_memory.md R60, R64). -/

namespace Sys2Proof.Machine

/-! ### Any run of a list, with the end of its command -/

/-- `Shape` looks at none of the registers that the end of a command writes. -/
theorem Shape.endCommand {ops : List Op} {s t : State} (h : Shape ops s t) (st : Status) (c : BitVec 3) :
    Shape ops s (t.endCommand st c) :=
  ⟨h.cmdl, h.inputs, h.lineBuf, h.raising, h.tr, h.cfg, h.backlight, h.pin, h.oe, h.life⟩

theorem Shape.refl (ops : List Op) (s : State) : Shape ops s s :=
  ⟨rfl, rfl, rfl, rfl, ⟨[], by simp⟩, ⟨s.cfg.backlight, rfl⟩, fun _ => rfl, fun _ _ => rfl, fun _ _ => rfl,
    fun _ => .inl rfl⟩

theorem shape_respond (ops : List Op) (s : State) : Shape ops s (runOps ops s).respond := by
  rcases runOps_shape ops s with ⟨he, hs⟩ | ⟨r, u, he, hs⟩
  · rw [he]
    exact hs.endCommand _ _
  · rw [he]
    exact hs

theorem shape_transmitAlone (b : Byte) (m : Mode) (s : State) : Shape (transmitOps b m) s (transmitAlone b m s) := by
  unfold transmitAlone
  split
  · exact Shape.refl _ s
  · rcases runOps_shape (transmitOps b m) s with ⟨he, hs⟩ | ⟨r, u, he, hs⟩
    · rw [he]
      exact hs
    · rw [he]
      exact hs

/-! ### What each instruction's register writes and actions may touch -/

/-- The register writes in front of an instruction's first action: `u` is `s`, but for the field the instruction sets
and, for a `RENDER`, `LINEBUF` (10_state.md R23, R28). -/
structure Prepared (i : Instr) (s u : State) : Prop where
  rest : ∃ cur bl d buf,
    u = { s with cfg := { s.cfg with cursor := cur, blink := bl, display := d }, lineBuf := buf }
  cursor : (∀ v, i ≠ .setCursor v) → u.cfg.cursor = s.cfg.cursor
  blink : (∀ v, i ≠ .setBlink v) → u.cfg.blink = s.cfg.blink
  display : (∀ v, i ≠ .setDisplay v) → u.cfg.display = s.cfg.display
  lineBuf : (∀ j line, i ≠ .render j line) → u.lineBuf = s.lineBuf

theorem Prepared.refl (i : Instr) (s : State) : Prepared i s s :=
  ⟨⟨_, _, _, _, rfl⟩, fun _ => rfl, fun _ => rfl, fun _ => rfl, fun _ => rfl⟩

theorem prepared_setup {i : Instr} {p : Procedure} (hp : procedureOf i = some p) (s : State) :
    Prepared i s (p.setup s) := by
  cases i <;> simp only [procedureOf, Option.some.injEq, reduceCtorEq] at hp <;> subst hp
  case setCursor v => exact ⟨⟨_, _, _, _, rfl⟩, fun h => absurd rfl (h v), fun _ => rfl, fun _ => rfl, fun _ => rfl⟩
  case setBlink v => exact ⟨⟨_, _, _, _, rfl⟩, fun _ => rfl, fun h => absurd rfl (h v), fun _ => rfl, fun _ => rfl⟩
  case setDisplay v => exact ⟨⟨_, _, _, _, rfl⟩, fun _ => rfl, fun _ => rfl, fun h => absurd rfl (h v), fun _ => rfl⟩
  case render j line =>
    exact ⟨⟨_, _, _, _, rfl⟩, fun _ => rfl, fun _ => rfl, fun _ => rfl, fun h => absurd rfl (h j line)⟩
  all_goals exact Prepared.refl _ s

/-- The actions of an instruction touch only what it may write (10_state.md R23; 20_memory.md R60;
40_flag_encoder.md R108). -/
structure Confined (i : Instr) (ops : List Op) : Prop where
  backlight : writesBacklight i = false → ∀ op ∈ ops, op.backlight = none ∧ ∀ v, op.prim ≠ .write .bl v
  bus : writesBus i = false → ∀ p, p ≠ .bl → ∀ op ∈ ops, ∀ v, op.prim ≠ .write p v
  claims : i ≠ .construct → i ≠ .release → ∀ op ∈ ops, op.keepsClaims

theorem transmitOps_leave_backlight {b : Byte} {m : Mode} {op : Op} (h : op ∈ transmitOps b m) :
    op.backlight = none ∧ ∀ v, op.prim ≠ .write .bl v := by
  rcases mem_transmitOps h with ⟨p, x, rfl, hp⟩ | rfl | rfl
  · refine ⟨rfl, fun v hv => hp ?_⟩
    simp only [writeOp, Prim.write.injEq] at hv
    exact hv.1
  · exact ⟨rfl, nofun⟩
  · exact ⟨rfl, nofun⟩

theorem confined_transmitOps {i : Instr} (hbus : writesBus i = true) (b : Byte) (m : Mode) :
    Confined i (transmitOps b m) where
  backlight _ _ h := transmitOps_leave_backlight h
  bus hno := absurd hbus (by simp [hno])
  claims _ _ _ h := keepsClaims_transmitOps h

theorem confined_ops {i : Instr} {p : Procedure} (hp : procedureOf i = some p) (s : State) : Confined i (p.ops s) := by
  rcases eq_or_ne i .construct with rfl | hcon
  · exact ⟨nofun, nofun, fun h => absurd rfl h⟩
  rcases eq_or_ne i .release with rfl | hrel
  · cases hp
    refine ⟨fun _ op h => ?_, fun _ q _ op h => ?_, fun _ h => absurd rfl h⟩
    · rw [List.mem_singleton.1 h]
      exact ⟨rfl, nofun⟩
    · rw [List.mem_singleton.1 h]
      nofun
  refine ⟨fun hno op h => ?_, fun hno q hq op h => ?_, fun _ _ => keepsClaims_ops hp hcon hrel s⟩
  · rcases mem_ops hp hcon hrel h with ⟨-, b, m, h⟩ | ⟨n, rfl⟩ | ⟨hbl, -⟩
    · exact transmitOps_leave_backlight h
    · exact ⟨rfl, nofun⟩
    · exact absurd hbl (by simp [hno])
  · rcases mem_ops hp hcon hrel h with ⟨hbus, -⟩ | ⟨n, rfl⟩ | ⟨-, v, rfl⟩
    · exact absurd hbus (by simp [hno])
    · nofun
    · intro x hx
      simp only [backlightOp, Prim.write.injEq] at hx
      exact hq hx.1.symm

theorem procedureOf_or_lcdByte (i : Instr) :
    (∃ p, procedureOf i = some p) ∨ (writesBus i = true ∧ ∃ b m, lcdByte i = some (b, m)) := by
  cases i
  case lReset33 | lReset32 | lFuncset | lDispctl | lEntry | lClear | lHome | lSetddram | lData =>
    exact .inr ⟨rfl, _, _, rfl⟩
  all_goals exact .inl ⟨_, rfl⟩

/-- Every instruction is some register writes, then some run of a list of actions, whatever `io_fault` does. -/
theorem exec_shape {i : Instr} {s t : State} (h : exec i s = .next t) :
    ∃ u ops, Prepared i s u ∧ Confined i ops ∧ Shape ops u t := by
  rcases procedureOf_or_lcdByte i with ⟨p, hp⟩ | ⟨hbus, b, m, hlcd⟩
  · cases (exec_of_procedureOf hp s).symm.trans h
    rcases hc : p.check s with _ | cause
    · refine ⟨p.setup s, p.ops (p.setup s), prepared_setup hp s, confined_ops hp _, ?_⟩
      simp only [Procedure.run, hc]
      exact shape_respond _ _
    · refine ⟨s, p.ops s, Prepared.refl i s, confined_ops hp s, ?_⟩
      rw [run_of_check hc]
      exact (Shape.refl _ s).endCommand _ _
  · cases (exec_of_lcdByte hlcd s).symm.trans h
    exact ⟨s, _, Prepared.refl i s, confined_transmitOps hbus b m, shape_transmitAlone b m s⟩

/-- A command that is not answered with a fatal status records no error (60_exceptions.md R195, R196). -/
theorem run_records_no_error {i : Instr} {p : Procedure} (hp : procedureOf i = some p) {s : State}
    (h : (p.run s).rspStatus = .ok ∨ (p.run s).rspStatus = .validation) :
    (p.run s).fkind = s.fkind ∧ (p.run s).fpin = s.fpin := by
  rcases run_cases p s with ⟨cause, -, he⟩ | ⟨-, he⟩ | ⟨-, done, op, rest, -, -, -, he⟩
  · rw [he]
    exact ⟨rfl, rfl⟩
  · obtain ⟨_, _, hset⟩ := setup_eq hp s
    rw [he, hset, State.respondOk, succeedAll_eq]
    exact ⟨rfl, rfl⟩
  · rw [he] at h
    rcases raise_rspStatus op.raises (op.cut (succeedAll done (p.setup s))) with hr | hr <;>
      rw [Op.fail, hr] at h <;> simp at h

/-! ### The five fields without a setter -/

/-- Two values of `CFG` that agree in the five fields without a setter (10_state.md R23). -/
def Cfg.SameFixed (c c' : Cfg) : Prop :=
  c'.entryDirection = c.entryDirection ∧ c'.entryShift = c.entryShift ∧ c'.busWidth = c.busWidth ∧
    c'.lineCount = c.lineCount ∧ c'.font = c.font

theorem Cfg.SameFixed.refl (c : Cfg) : Cfg.SameFixed c c := ⟨rfl, rfl, rfl, rfl, rfl⟩

theorem Shape.sameFixed {ops : List Op} {s t : State} (h : Shape ops s t) : Cfg.SameFixed s.cfg t.cfg := by
  obtain ⟨b, hb⟩ := h.cfg
  rw [hb]
  exact ⟨rfl, rfl, rfl, rfl, rfl⟩

theorem exec_sameFixed {i : Instr} {s t : State} (h : exec i s = .next t) : Cfg.SameFixed s.cfg t.cfg := by
  obtain ⟨u, ops, ⟨⟨_, _, _, _, rfl⟩, -⟩, -, hshape⟩ := exec_shape h
  exact hshape.sameFixed

/-- Finishing a running command, from wherever it stands, writes none of the five. -/
theorem finish_sameFixed {s t : State} (h : s.finish = .next t) : Cfg.SameFixed s.cfg t.cfg := by
  unfold State.finish at h
  split at h
  · cases h
    rw [raise_cfg]
    exact Cfg.SameFixed.refl _
  · unfold State.finishCommand at h
    split at h
    · cases h
      exact Cfg.SameFixed.refl _
    · split_ifs at h
      · exact exec_sameFixed h
      · split at h
        · exact exec_sameFixed h
        · cases h
          exact (shape_respond _ { s with dly := 0 }).sameFixed

theorem step_sameFixed {s t : State} (hr : ∀ rest, s.inputs ≠ .reset :: rest) (h : step s = .next t) :
    Cfg.SameFixed s.cfg t.cfg := by
  cases hb : s.busy with
  | true => exact finish_sameFixed ((step_busy hb hr).symm.trans h)
  | false =>
    rcases step_idle_cases hb h with ⟨rest, hi, -⟩ | ⟨-, rfl⟩ | ⟨c, rest, -, rfl⟩ | ⟨c, rest, i, p, -, -, hp, rfl⟩ |
      ⟨w, rest, -, rfl⟩
    · exact absurd hi (hr rest)
    · exact Cfg.SameFixed.refl _
    · exact Cfg.SameFixed.refl _
    · exact exec_sameFixed (s := State.accept c { s with inputs := rest }) (exec_of_procedureOf hp _)
    · exact (shape_transmitAlone _ _ { s with inputs := rest, rspValid := false }).sameFixed

/-- Settles O41: an instruction is register writes of its own, then a run of a list that touches only what it may. -/
theorem instructionFrames : Obligations.InstructionFrames := by
  intro i s t h
  obtain ⟨hdir, hshift, hwidth, hlines, hfont⟩ := exec_sameFixed h
  obtain ⟨u, ops, hprep, hconf, hshape⟩ := exec_shape h
  obtain ⟨b, hcfg⟩ := hshape.cfg
  have hcursor : t.cfg.cursor = u.cfg.cursor := by rw [hcfg]
  have hblink : t.cfg.blink = u.cfg.blink := by rw [hcfg]
  have hdisplay : t.cfg.display = u.cfg.display := by rw [hcfg]
  obtain ⟨_, _, _, _, rfl⟩ := hprep.rest
  refine ⟨hshape.cmdl, hshape.inputs, hshape.raising, hshape.tr, hdir, hshift, hwidth, hlines, hfont,
    fun hi => hcursor.trans (hprep.cursor hi), fun hi => hblink.trans (hprep.blink hi),
    fun hi => hdisplay.trans (hprep.display hi), fun hi => ?_, fun hi p hp => hshape.pin p (hconf.bus hi p hp),
    fun hc hr => ?_, fun hi => hshape.lineBuf.trans (hprep.lineBuf hi), fun hst henc => ?_⟩
  · have hops := hconf.backlight hi
    exact ⟨hshape.backlight fun op ho => (hops op ho).1, hshape.pin .bl fun op ho => (hops op ho).2⟩
  · have hops := hconf.claims hc hr
    exact ⟨hshape.oe (fun op ho => (hops op ho).2.1) fun op ho => (hops op ho).2.2,
      hshape.life fun op ho => (hops op ho).1⟩
  · obtain ⟨w, hw⟩ := henc
    rcases procedureOf_or_lcdByte i with ⟨p, hp⟩ | ⟨-, b', m, hlcd⟩
    · cases (exec_of_procedureOf hp s).symm.trans h
      exact run_records_no_error hp hst
    · cases i <;> cases hlcd <;> cases hw

/-- Settles O42: a step finishes a command or takes an instruction, and neither writes one of the five. -/
theorem fixedFieldsAreNeverWritten : Obligations.FixedFieldsAreNeverWritten :=
  fun _ _ hr h => step_sameFixed hr h

end Sys2Proof.Machine

/-! PROOFS. A command from its acceptance, tick by tick, and finishing it from any of its ticks
(30_encoding.md R80; 70_reset_and_hazards.md R240). -/

namespace Sys2Proof.Machine

/-! ### One tick, case by case -/

theorem tick_busy {s : State} (hb : s.busy = true) (v : Bool) : tick false v s = s.tickBusy := by simp [tick, hb]

theorem tick_idle {s : State} (hb : s.busy = false) (v : Bool) : tick false v s = s.tickIdle v := by simp [tick, hb]

theorem tickBusy_of_none {s : State} (h : s.raising = none) : s.tickBusy = s.tickCommand := by
  simp [State.tickBusy, h]

theorem tickBusy_of_some {s : State} {r : Raise} (h : s.raising = some r) :
    s.tickBusy = State.raise r { s with raising := none } := by
  simp [State.tickBusy, h]

/-- One tick of a legal command is one of its procedure. -/
theorem tickCommand_of_ok {s : State} {i : Instr} {p : Procedure} (hw : decodeHost s.cmdl.word = .ok i)
    (hp : procedureOf i = some p) : s.tickCommand = p.tick s := by
  simp [State.tickCommand, hw, hp]

theorem tickCommand_of_error {s : State} {e : DecodeError} (hw : decodeHost s.cmdl.word = .error e) :
    s.tickCommand = s.raiseValidation .illegalOp := by
  simp [State.tickCommand, hw]

/-! ### A command from its acceptance, tick by tick -/

/-- From `a`, in the middle of a command, `t` is reached in the ticks of the events that are appended and the tick of
the response, and finishing the command from any tick before gives `t` too (70_reset_and_hazards.md R240). -/
def EndsInTicks (a t : State) : Prop :=
  ∃ es, t.tr = a.tr ++ es ∧ t.busy = false ∧ ticks (duration es + 1) a = t ∧
    ∀ k < duration es + 1, Mid a.inputs t (ticks k a)

/-- A block that has accepted a command and not yet begun it (30_encoding.md R70, R80). -/
structure Accepted (a : State) : Prop where
  busy : a.busy = true
  quiet : a.rspValid = false
  calm : a.raising = none
  start : a.seq = 0
  dly : a.dly = 0

theorem Accepted.setup {i : Instr} {p : Procedure} (hp : procedureOf i = some p) {a : State} (h : Accepted a) :
    Accepted (p.setup a) := by
  obtain ⟨_, _, hset⟩ := setup_eq hp a
  rw [hset]
  exact ⟨h.busy, h.quiet, h.calm, h.start, h.dly⟩

theorem Accepted.tick {a : State} (h : Accepted a) (v : Bool) : tick false v a = a.tickCommand := by
  rw [tick_busy h.busy, tickBusy_of_none h.calm]

theorem Accepted.finish {a : State} (h : Accepted a) : a.finish = a.finishCommand := by
  simp [State.finish, h.calm]

theorem Op.tick_of_not_wait {op : Op} (h : ∀ n, op.prim ≠ .wait n) (s : State) : op.tick s = (op.perform s).held := by
  rcases op with ⟨_, prim, _⟩
  cases prim with
  | wait n => exact absurd rfl (h n)
  | configure p | write p v | releaseAll => rfl

theorem Op.ticks_of_not_wait {op : Op} (h : ∀ n, op.prim ≠ .wait n) : op.prim.event.ticks = 1 := by
  rcases op with ⟨_, prim, _⟩
  cases prim with
  | wait n => exact absurd rfl (h n)
  | configure p | write p v | releaseAll => rfl

theorem Op.succeed_dly (op : Op) {s : State} (h : s.dly = 0) : (op.succeed s).dly = 0 := by
  simp [Op.succeed, h]

/-- A command that performs no action is answered in its first tick. -/
theorem Accepted.endsInTicks_of_answer {a t : State} (h : Accepted a) (hf : a.finish = .next t)
    (ht : Machine.tick false true a = t) (htr : t.tr = a.tr) (htb : t.busy = false) : EndsInTicks a t := by
  refine ⟨[], by simp [htr], htb, ht, fun k hk => ?_⟩
  obtain rfl : k = 0 := Nat.lt_one_iff.1 hk
  exact ⟨h.busy, h.quiet, rfl, hf⟩

/-- A first action that succeeds, then the rest of the command. -/
theorem Accepted.endsInTicks_of_first {i : Instr} {p : Procedure} {a u : State} {op : Op} {ops : List Op}
    (ha : Accepted a) (hu : Accepted u) (hin : a.inputs = u.inputs) (htr : a.tr = u.tr) (hL : p.ops u = op :: ops)
    (hn : ∀ n, op.prim ≠ .wait n) (hrun : Running i p (p.ops u) (op.succeed u)) (hseq : (op.succeed u).seq = 1)
    (ht : Machine.tick false true a = op.succeed u) (hf : a.finish = .next (p.runRest (op.succeed u))) :
    EndsInTicks a (p.runRest (op.succeed u)) := by
  obtain ⟨t, es, rfl, htr', htb, hticks, hmid⟩ := ticks_rest ops _ hrun (op.succeed_dly hu.dly)
    (by rw [hseq, hL]; rfl) fun o ho => waitOk_ops hrun.proc u o (by rw [hL]; simp [ho])
  have hdur : duration (op.prim.event :: es) + 1 = duration es + 1 + 1 := by
    rw [duration_cons, Op.ticks_of_not_wait hn]
    omega
  refine ⟨op.prim.event :: es, ?_, htb, ?_, fun k hk => ?_⟩
  · rw [htr', htr]
    simp [Op.succeed]
  · rw [hdur, ticks, ht]
    exact hticks
  · rcases k with _ | k
    · exact ⟨ha.busy, ha.quiet, rfl, hf⟩
    · rw [ticks, ht, hin]
      exact hmid k (by omega)

/-- A command that passes its checks: its first action fails, or the rest follows. -/
theorem Accepted.endsInTicks_of_check {i : Instr} {p : Procedure} (hp : procedureOf i = some p) {a : State}
    (h : Accepted a) (hw : decodeHost a.cmdl.word = .ok i) (hc : p.check a = none)
    (hf : a.finish = .next (p.run a)) (ht : Machine.tick false true a = p.tick a) : EndsInTicks a (p.run a) := by
  have hu := h.setup hp
  have hrun : p.run a = (runOps (p.ops (p.setup a)) (p.setup a)).respond := by simp only [Procedure.run, hc]
  have htick : Machine.tick false true a = tickList (p.ops (p.setup a)) (p.setup a) := by
    simp only [ht, Procedure.tick, h.start, if_true, hc]
  obtain ⟨_, _, hset⟩ := setup_eq hp a
  have hin : a.inputs = (p.setup a).inputs := by rw [hset]
  have htr : a.tr = (p.setup a).tr := by rw [hset]
  have huw : decodeHost (p.setup a).cmdl.word = .ok i := by rw [hset]; exact hw
  clear hset
  generalize p.setup a = u at *
  obtain ⟨op, ops, hL, hn⟩ := ops_first hp u
  have hfirst : Machine.tick false true a = (op.perform u).held := by
    simp only [htick, tickList, hu.start, hL, List.getElem?_cons_zero, Op.tick_of_not_wait hn]
  cases hfault : op.prim.event.isPinAction && u.ioFaultNow with
  | true =>
    have hperf : op.perform u = .failed op.raises (op.cut u) := by rw [Op.perform_eq, if_pos hfault]
    have hfail : p.run a = op.fail u := by
      rw [hrun, hL, runOps, hperf]
      rfl
    rw [Bool.and_eq_true] at hfault
    obtain ⟨ev, hev, hdur, hticks, hmid⟩ := ticks_fail hfault.1 hu.busy hu.quiet hu.calm ⟨h.busy, h.quiet, hin⟩
      (by rw [hfirst, hperf]; rfl) (by rw [hf, hfail])
    rw [hfail]
    refine ⟨[ev], by rw [hev, htr], raise_busy _ _, by rw [hdur]; exact hticks, ?_⟩
    rw [hdur, hin]
    exact hmid
  | false =>
    have hperf : op.perform u = .going (op.succeed u) := by
      rw [Op.perform_eq, hfault]
      rfl
    have hseq : (op.succeed u).seq = 1 := by simp [Op.succeed, State.seqNext, hu.busy, hu.start]
    have hlist : p.ops (op.succeed u) = p.ops u := ops_congr hp ⟨_, rfl, rfl⟩
    have hrest : p.run a = p.runRest (op.succeed u) := by
      rw [hrun, hL, runOps, hperf, Procedure.runRest, hlist, hL, State.eta_dly _ (op.succeed_dly hu.dly), hseq]
      rfl
    rw [hrest]
    exact h.endsInTicks_of_first hu hin htr hL hn
      ⟨hu.busy, hu.quiet, hu.calm, huw, hp, hlist, by rw [hseq]; exact Nat.one_pos⟩ hseq
      (by rw [hfirst, hperf]; rfl) (by rw [hf, hrest])

/-- A whole command from the tick of its acceptance (30_encoding.md R80; 70_reset_and_hazards.md R240). -/
theorem Accepted.endsInTicks {a : State} (h : Accepted a) : ∃ t, a.finish = .next t ∧ EndsInTicks a t := by
  cases hw : decodeHost a.cmdl.word with
  | error e =>
    have hf : a.finish = .next (a.raiseValidation .illegalOp) := by simp [h.finish, State.finishCommand, hw]
    exact ⟨_, hf, h.endsInTicks_of_answer hf ((h.tick true).trans (tickCommand_of_error hw)) rfl rfl⟩
  | ok i =>
    obtain ⟨p, hp⟩ := procedureOf_of_decodeHost hw
    have hf : a.finish = .next (p.run a) := by
      simp [h.finish, State.finishCommand, hw, h.start, exec_of_procedureOf hp]
    have htick : Machine.tick false true a = p.tick a := (h.tick true).trans (tickCommand_of_ok hw hp)
    refine ⟨_, hf, ?_⟩
    rcases hc : p.check a with _ | cause
    · exact h.endsInTicks_of_check hp hw hc hf htick
    · rw [run_of_check hc] at hf ⊢
      exact h.endsInTicks_of_answer hf (by simp [htick, Procedure.tick, h.start, hc]) rfl rfl

theorem accepted_accept (c : Command) {s : State} (hd : s.dly = 0) : Accepted (s.accept c) := ⟨rfl, rfl, rfl, rfl, hd⟩

theorem ticks_accept {s : State} {c : Command} {rest : List Input} (hb : s.busy = false)
    (hi : s.inputs = .command c :: rest) (n : Nat) :
    ticks (n + 1) s = ticks n (State.accept c { s with inputs := rest }) := by
  simp [ticks, tick, hb, State.tickIdle, hi]

/-- Settles O46: every tick of the command before its response is one from which finishing it gives the same. -/
theorem stepFinishesARunningCommand : Obligations.StepFinishesARunningCommand := by
  intro s c rest k hb hd hi hrest hk hbusy
  obtain ⟨t, hf, es, -, htb, hend, hmid⟩ := (accepted_accept c (s := { s with inputs := rest }) hd).endsInTicks
  obtain ⟨j, rfl⟩ : ∃ j, k = j + 1 := ⟨k - 1, by omega⟩
  have hlt : j < duration es + 1 := by
    by_contra hge
    have hlast := hbusy (duration es + 1 + 1) (by omega) (by omega)
    rw [ticks_accept hb hi, hend, htb] at hlast
    cases hlast
  obtain ⟨hjb, -, hji, hjf⟩ := hmid j hlt
  rw [ticks_accept hb hi, step_busy hjb (by rw [hji]; exact hrest), hjf, step_command hb hi, hf]

end Sys2Proof.Machine

/-! PROOFS. A running command and the command port (20_memory.md R61, R66; 10_state.md R30, R31). -/

namespace Sys2Proof.Machine

/-! ### A running command and the port -/

/-- The block with other inputs presented. -/
def State.withInputs (ins : List Input) (s : State) : State := { s with inputs := ins }

/-- What a tick computes does not depend on what stands on the port, and it leaves port and command latch alone
(20_memory.md R61; 10_state.md R31). -/
structure LeavesPort (f : State → State) : Prop where
  port : ∀ s ins, f (s.withInputs ins) = (f s).withInputs ins
  latch : ∀ s, (f s).cmdl = s.cmdl

theorem LeavesPort.inputs {f : State → State} (h : LeavesPort f) (s : State) : (f s).inputs = s.inputs := by
  have hs : f s = (f s).withInputs s.inputs := h.port s s.inputs
  rw [hs]
  rfl

theorem leavesPort_raise (r : Raise) : LeavesPort (State.raise r) := by
  cases r <;> exact ⟨fun _ _ => rfl, fun _ => rfl⟩

/-- The tick of a pin action or a release: it fails and leaves its `raise` to the next tick, or it succeeds. -/
theorem Op.held_perform (op : Op) (s : State) : (op.perform s).held =
    if op.prim.event.isPinAction && s.ioFaultNow then { op.cut s with raising := some op.raises } else op.succeed s := by
  rw [Op.perform_eq]
  split_ifs <;> rfl

theorem leavesPort_cut (op : Op) : LeavesPort op.cut := by
  rcases op with ⟨backlight, prim, _⟩
  cases backlight <;> cases prim <;> exact ⟨fun _ _ => rfl, fun _ => rfl⟩

theorem leavesPort_held (op : Op) : LeavesPort fun s => (op.perform s).held where
  port s ins := by
    have hnow : (s.withInputs ins).ioFaultNow = s.ioFaultNow := rfl
    simp only [Op.held_perform, hnow]
    split_ifs
    · rw [(leavesPort_cut op).port]
      rfl
    · rfl
  latch s := by
    simp only [Op.held_perform]
    split_ifs
    · exact (leavesPort_cut op).latch s
    · rfl

/-- One tick of a wait, its register writes said out. -/
theorem State.tickWait_eq (n : Nat) (op : Op) (s : State) :
    s.tickWait n op =
      let c := if s.dly = 0 then { s.cfg with backlight := op.backlightOr s.cfg.backlight } else s.cfg
      let d := if s.dly = 0 then n else s.dly
      if d ≤ 1 then
        { s with cfg := c, life := op.life.getD s.life, dly := 0, tr := s.tr ++ [.z n], seq := s.seqNext }
      else { s with cfg := c, dly := d - 1 } := by
  unfold State.tickWait
  by_cases hd : s.dly = 0
  · simp [hd, Op.before_eq, Op.after_eq, State.seqNext]
  · simp [hd, Op.after_eq, State.seqNext]

theorem leavesPort_tickWait (n : Nat) (op : Op) : LeavesPort fun s => s.tickWait n op where
  port s ins := by
    have hdly : (s.withInputs ins).dly = s.dly := rfl
    simp only [State.tickWait_eq, hdly]
    split_ifs <;> rfl
  latch s := by
    simp only [State.tickWait_eq]
    split_ifs <;> rfl

theorem leavesPort_op (op : Op) : LeavesPort op.tick := by
  by_cases h : ∃ n, op.prim = .wait n
  · obtain ⟨n, hn⟩ := h
    have he : op.tick = fun s => s.tickWait n op := by
      funext s
      simp [Op.tick, hn]
    rw [he]
    exact leavesPort_tickWait n op
  · have he : op.tick = fun s => (op.perform s).held :=
      funext fun s => Op.tick_of_not_wait (fun n hn => h ⟨n, hn⟩) s
    rw [he]
    exact leavesPort_held op

theorem leavesPort_tickList (ops : List Op) : LeavesPort (tickList ops) where
  port s ins := by
    have hseq : (s.withInputs ins).seq = s.seq := rfl
    unfold tickList
    rw [hseq]
    cases ops[s.seq]? with
    | none => rfl
    | some op => exact (leavesPort_op op).port s ins
  latch s := by
    unfold tickList
    cases ops[s.seq]? with
    | none => rfl
    | some op => exact (leavesPort_op op).latch s

theorem leavesPort_setup {i : Instr} {p : Procedure} (hp : procedureOf i = some p) : LeavesPort p.setup where
  port s ins := by
    cases i <;> simp only [procedureOf, Option.some.injEq, reduceCtorEq] at hp <;> subst hp
    case render j line =>
      simp only [renderProcedure]
      rw [fillLineBuf_eq, fillLineBuf_eq]
      rfl
    all_goals rfl
  latch s := by
    obtain ⟨_, _, hset⟩ := setup_eq hp s
    rw [hset]

theorem check_withInputs {i : Instr} {p : Procedure} (hp : procedureOf i = some p) (s : State) (ins : List Input) :
    p.check (s.withInputs ins) = p.check s := by
  cases i <;> simp only [procedureOf, Option.some.injEq, reduceCtorEq] at hp <;> subst hp <;> rfl

theorem ops_withInputs {i : Instr} {p : Procedure} (hp : procedureOf i = some p) (s : State) (ins : List Input) :
    p.ops (s.withInputs ins) = p.ops s :=
  ops_congr hp ⟨s.cfg.backlight, rfl, rfl⟩

theorem leavesPort_procedure {i : Instr} {p : Procedure} (hp : procedureOf i = some p) : LeavesPort p.tick where
  port s ins := by
    have hseq : (s.withInputs ins).seq = s.seq := rfl
    unfold Procedure.tick
    rw [hseq, check_withInputs hp, (leavesPort_setup hp).port, ops_withInputs hp, ops_withInputs hp,
      (leavesPort_tickList _).port, (leavesPort_tickList _).port]
    by_cases h0 : s.seq = 0
    · rw [if_pos h0, if_pos h0]
      cases p.check s <;> rfl
    · rw [if_neg h0, if_neg h0]
  latch s := by
    unfold Procedure.tick
    split_ifs
    · split
      · rfl
      · rw [(leavesPort_tickList _).latch, (leavesPort_setup hp).latch]
    · exact (leavesPort_tickList _).latch s

theorem leavesPort_tickCommand : LeavesPort State.tickCommand where
  port s ins := by
    cases hw : decodeHost s.cmdl.word with
    | error e =>
      rw [tickCommand_of_error hw, tickCommand_of_error (s := s.withInputs ins) hw]
      rfl
    | ok i =>
      obtain ⟨p, hp⟩ := procedureOf_of_decodeHost hw
      rw [tickCommand_of_ok hw hp, tickCommand_of_ok (s := s.withInputs ins) hw hp]
      exact (leavesPort_procedure hp).port s ins
  latch s := by
    cases hw : decodeHost s.cmdl.word with
    | error e =>
      rw [tickCommand_of_error hw]
      rfl
    | ok i =>
      obtain ⟨p, hp⟩ := procedureOf_of_decodeHost hw
      rw [tickCommand_of_ok hw hp]
      exact (leavesPort_procedure hp).latch s

theorem leavesPort_tickBusy : LeavesPort State.tickBusy where
  port s ins := by
    cases hr : s.raising with
    | none =>
      rw [tickBusy_of_none hr, tickBusy_of_none (s := s.withInputs ins) hr]
      exact leavesPort_tickCommand.port s ins
    | some r =>
      rw [tickBusy_of_some hr, tickBusy_of_some (s := s.withInputs ins) hr]
      exact (leavesPort_raise r).port { s with raising := none } ins
  latch s := by
    cases hr : s.raising with
    | none =>
      rw [tickBusy_of_none hr]
      exact leavesPort_tickCommand.latch s
    | some r =>
      rw [tickBusy_of_some hr]
      exact raise_cmdl _ _

/-- A tick of an idle block drops `RSP_VALID` and keeps the answer (10_state.md R30). -/
theorem tickIdle_response (v : Bool) (s : State) :
    (s.tickIdle v).rspValid = false ∧ (s.tickIdle v).rspStatus = s.rspStatus ∧
      (s.tickIdle v).rspCause = s.rspCause := by
  unfold State.tickIdle
  split <;> exact ⟨rfl, rfl, rfl⟩

/-- Settles O47: a busy tick leaves the port alone (`leavesPort_tickBusy`), whatever `cmd_valid` is. -/
theorem busyBlockLeavesThePortAlone : Obligations.BusyBlockLeavesThePortAlone := by
  intro s v
  refine ⟨fun hb => ?_, fun hb => ?_⟩
  · rw [tick_busy hb]
    refine ⟨leavesPort_tickBusy.inputs s, leavesPort_tickBusy.latch s, fun ins => ?_⟩
    rw [tick_busy (s := { s with inputs := ins }) hb]
    exact leavesPort_tickBusy.port s ins
  · rw [tick_idle hb]
    exact tickIdle_response v s

end Sys2Proof.Machine

/-! PROOFS. `LIFE` while `CONSTRUCT` runs (10_state.md R25; 42_init_release.md R137, R138). -/

namespace Sys2Proof.Machine

/-! ### `LIFE` inside a list of actions -/

theorem lifeAfter_take_of_plain (l : Life) {ops : List Op} (h : ∀ op ∈ ops, op.life = none) (n : Nat) :
    lifeAfter l (ops.take n) = l :=
  lifeAfter_of_plain l _ fun op ho => h op (List.mem_of_mem_take ho)

/-- A `LIFE` write after the last of some actions is made when all of them have completed. -/
theorem lifeAfter_take_thenLife (l l' : Life) {ops : List Op} (h : ∀ op ∈ ops, op.life = none) (hne : ops ≠ [])
    (n : Nat) : lifeAfter l ((thenLife l' ops).take n) = if n < ops.length then l else l' := by
  induction ops generalizing n with
  | nil => exact absurd rfl hne
  | cons op ops ih =>
    have hop : op.life = none := h op (by simp)
    rcases n with _ | n
    · simp [lifeAfter]
    rcases ops with _ | ⟨op', ops⟩
    · simp [thenLife, lifeAfter]
    · have hrest := ih (fun o ho => h o (List.mem_cons_of_mem _ ho)) (by simp) n
      have hcons : lifeAfter l ((thenLife l' (op :: op' :: ops)).take (n + 1)) =
          lifeAfter l ((thenLife l' (op' :: ops)).take n) := by
        simp [thenLife, lifeAfter, hop]
      rw [hcons, hrest]
      simp

theorem thenLife_append (l : Life) (xs : List Op) {ys : List Op} (h : ys ≠ []) :
    xs ++ thenLife l ys = thenLife l (xs ++ ys) := by
  induction xs with
  | nil => rfl
  | cons x xs ih =>
    rcases hxy : xs ++ ys with _ | ⟨z, zs⟩
    · exact absurd (List.append_eq_nil_iff.1 hxy).2 h
    · rw [List.cons_append, ih, List.cons_append, hxy]
      rfl

/-- The actions of `CONSTRUCT` before it is BusReset: the seven pins and the two reset bytes (42_init_release.md R137). -/
def busResetPhase : List Op :=
  configureOps ++ transmitOps resetByte33 .command ++ transmitOps resetByte32 .command

/-- From there to Configured: the three composite bytes (42_init_release.md R138). -/
def configuredPhase (c : Cfg) : List Op :=
  transmitOps (functionSetByte c) .command ++ transmitOps (displayControlByte c) .command ++
    transmitOps (entryModeByte c) .command

/-- From there to Cleared: the clear-display byte and the wait (42_init_release.md R138). -/
def clearedPhase : List Op := transmitOps clearByte .command ++ [waitOp Config.eDelay]

theorem plain_busResetPhase : ∀ op ∈ busResetPhase, op.life = none := by
  intro op h
  simp only [busResetPhase, List.mem_append] at h
  rcases h with (h | h) | h
  · revert op
    decide
  · exact (plain_transmitOps _ _ op h).2
  · exact (plain_transmitOps _ _ op h).2

theorem plain_configuredPhase (c : Cfg) : ∀ op ∈ configuredPhase c, op.life = none := by
  intro op h
  simp only [configuredPhase, List.mem_append] at h
  rcases h with (h | h) | h <;> exact (plain_transmitOps _ _ op h).2

theorem plain_clearedPhase : ∀ op ∈ clearedPhase, op.life = none := by
  intro op h
  rcases List.mem_append.1 h with h | h
  · exact (plain_transmitOps _ _ op h).2
  · rw [List.mem_singleton.1 h]
    rfl

theorem plain_blinkOps : ∀ op ∈ blinkOps, op.life = none := by
  intro op h
  simp only [blinkOps, List.mem_cons, List.not_mem_nil, or_false] at h
  rcases h with rfl | rfl | rfl | rfl | rfl <;> rfl

/-- The three phases of `CONSTRUCT`, each with its `LIFE` write at its end, then the blink. -/
theorem construct_ops_phases (s : State) :
    constructProcedure.ops s = thenLife .busReset busResetPhase ++ thenLife .configured (configuredPhase s.cfg) ++
      thenLife .cleared clearedPhase ++ blinkOps := by
  have hcleared : transmitOps clearByte .command ++ thenLife .cleared [waitOp Config.eDelay] =
      thenLife .cleared clearedPhase := thenLife_append _ _ (List.cons_ne_nil _ _)
  rw [busResetPhase, configuredPhase, ← thenLife_append _ _ (transmitOps_ne_nil _ _),
    ← thenLife_append _ _ (transmitOps_ne_nil _ _), ← hcleared]
  simp [constructProcedure, initializerOps]

theorem length_busResetPhase : busResetPhase.length = 52 := by
  simp only [busResetPhase, List.length_append, length_transmitOps]
  rfl

theorem length_configuredPhase (c : Cfg) : (configuredPhase c).length =
    57 + (popcount (functionSetByte c) + popcount (displayControlByte c) + popcount (entryModeByte c)) := by
  simp only [configuredPhase, List.length_append, length_transmitOps]
  omega

theorem length_clearedPhase : clearedPhase.length = 21 := by
  simp only [clearedPhase, List.length_append, length_transmitOps]
  rfl

/-- `LIFE` after the first n actions of `CONSTRUCT` (10_state.md R25; 42_init_release.md R138). -/
theorem lifeAfter_take_construct (s : State) (n : Nat) :
    let p := popcount (functionSetByte s.cfg) + popcount (displayControlByte s.cfg) + popcount (entryModeByte s.cfg)
    lifeAfter .uninitialized ((constructProcedure.ops s).take n) =
      if n < 52 then .uninitialized
      else if n < 109 + p then .busReset
      else if n < 130 + p then .configured
      else .cleared := by
  intro p
  have hlen : (configuredPhase s.cfg).length = 57 + p := length_configuredPhase s.cfg
  have hne {l : List Op} {k : Nat} (h : l.length = k + 1) : l ≠ [] := List.ne_nil_of_length_eq_add_one h
  rw [construct_ops_phases, List.take_append, List.take_append, List.take_append, lifeAfter_append, lifeAfter_append,
    lifeAfter_append, lifeAfter_take_of_plain _ plain_blinkOps,
    lifeAfter_take_thenLife _ _ plain_busResetPhase (hne length_busResetPhase),
    lifeAfter_take_thenLife _ _ (plain_configuredPhase _) (hne (hlen.trans (Nat.add_comm _ _))),
    lifeAfter_take_thenLife _ _ plain_clearedPhase (hne length_clearedPhase)]
  simp only [List.length_append, length_thenLife, length_busResetPhase, length_clearedPhase, hlen]
  grind

/-! ### `CONSTRUCT` in ticks -/

/-- Without `io_fault` a tick of an action completes it, or counts down in its wait. -/
theorem Op.tick_of_sound {op : Op} (hw : op.waitOk) {s : State} (hs : SoundPins s) :
    op.tick s = op.succeed s ∨ ∃ d, op.tick s = { s with dly := d } := by
  by_cases h : ∃ n, op.prim = .wait n
  · obtain ⟨n, hn⟩ := h
    obtain ⟨hpos, hbl⟩ := hw n hn
    by_cases hlast : s.dly = 1 ∨ s.dly = 0 ∧ n = 1
    · have := Op.tick_wait_last hn hbl s s.dly hlast
      rw [State.eta_dly s rfl] at this
      exact .inl this
    by_cases hfirst : s.dly = 0
    · exact .inr ⟨_, Op.tick_wait_first hn hbl s hfirst (by omega)⟩
    · have := Op.tick_wait_more hn s s.dly (by omega)
      rw [State.eta_dly s rfl] at this
      exact .inr ⟨_, this⟩
  · rw [Op.tick_of_not_wait (fun n hn => h ⟨n, hn⟩), Op.held_perform, hs.now, Bool.and_false]
    exact .inl rfl

/-- A block in `CONSTRUCT`, with the list of actions `L` and nothing more presented, that meets no fault: `LIFE` is
what the completed actions have made of it. -/
structure Constructing (L : List Op) (s : State) : Prop where
  busy : s.busy = true
  calm : s.raising = none
  word : s.cmdl.word = 0x1000#16
  inputs : s.inputs = []
  sound : SoundPins s
  list : constructProcedure.ops s = L
  life : s.life = lifeAfter .uninitialized (L.take s.seq)

theorem Constructing.tick {L : List Op} {s : State} (h : Constructing L s) : tick false true s = tickList L s := by
  have hw : decodeHost s.cmdl.word = .ok .construct := by
    rw [h.word]
    decide
  have hcheck : s.seq = 0 → constructProcedure.check s = none := fun h0 =>
    admitIn_eq_none.2 (by rw [h.life, h0]; exact List.mem_singleton.2 rfl)
  rw [tick_busy h.busy, tickBusy_of_none h.calm, tickCommand_of_ok hw rfl, Procedure.tick]
  split_ifs with h0
  · rw [hcheck h0, ← h.list]
    rfl
  · rw [h.list]

theorem Constructing.succeed {L : List Op} {s : State} (h : Constructing L s) {op : Op} (hop : L[s.seq]? = some op) :
    Constructing L (op.succeed s) where
  busy := h.busy
  calm := h.calm
  word := h.word
  inputs := h.inputs
  sound := h.sound.succeed op
  list := (ops_congr (i := .construct) rfl ⟨_, rfl, rfl⟩).trans h.list
  life := by
    have hseq : (op.succeed s).seq = s.seq + 1 := by simp [Op.succeed, State.seqNext, h.busy]
    rw [hseq, List.take_add_one, hop, lifeAfter_append, ← h.life]
    rfl

/-- One tick of `CONSTRUCT`: it goes on, or it has been answered. -/
theorem Constructing.next {L : List Op} {s : State} (h : Constructing L s) :
    Constructing L (Machine.tick false true s) ∨
      ((Machine.tick false true s).busy = false ∧ (Machine.tick false true s).inputs = []) := by
  rw [h.tick, tickList]
  cases hop : L[s.seq]? with
  | none => exact .inr ⟨rfl, h.inputs⟩
  | some op =>
    have hwait : op.waitOk :=
      waitOk_ops (i := .construct) rfl s op (by rw [h.list]; exact List.mem_of_getElem? hop)
    refine .inl ?_
    rcases Op.tick_of_sound hwait h.sound with ht | ⟨d, ht⟩
    · simp only [ht]
      exact h.succeed hop
    · simp only [ht]
      exact ⟨h.busy, h.calm, h.word, h.inputs, h.sound, h.list, h.life⟩

theorem idle_ticks {s : State} (hb : s.busy = false) (hi : s.inputs = []) (k : Nat) : (ticks k s).busy = false := by
  induction k generalizing s with
  | zero => exact hb
  | succ k ih =>
    have ht : tick false true s = s.idle := by
      rw [tick_idle hb]
      simp [State.tickIdle, hi]
    rw [ticks, ht]
    exact ih hb hi

/-- While `CONSTRUCT` runs it stays in its invariant. -/
theorem Constructing.ticks {L : List Op} {s : State} (h : Constructing L s) (k : Nat)
    (hb : (ticks k s).busy = true) : Constructing L (ticks k s) := by
  induction k generalizing s with
  | zero => exact h
  | succ k ih =>
    rcases h.next with hnext | ⟨hidle, hin⟩
    · exact ih hnext hb
    · cases (idle_ticks hidle hin k).symm.trans hb

/-- Settles O17: `LIFE` is at every tick what the completed actions have made of it, and the three `LIFE` writes of the
list stand after its actions 52, 109 + p and 130 + p. -/
theorem constructStepsThroughItsLifecycle : Obligations.ConstructStepsThroughItsLifecycle := by
  intro s k hword hbusy hseq _ hcalm hin hlife hsound hb
  have hstart : Constructing (constructProcedure.ops s) s :=
    ⟨hbusy, hcalm, hword, hin, hsound, rfl, by rw [hlife, hseq]; rfl⟩
  exact (hstart.ticks k hb).life.trans (lifeAfter_take_construct s _)

end Sys2Proof.Machine

/-! PROOFS. The text lanes that a `RENDER` does not read, and what a step runs (20_memory.md R52, R66;
44_text_render.md R182). -/

namespace Sys2Proof.Machine

/-! ### Lanes at and beyond the length -/

/-- The block with other text lanes in its command latch. -/
def State.withLanes (chars : Row) (s : State) : State := { s with cmdl := { s.cmdl with chars := chars } }

/-- The padded line reads only the lanes below the length (44_text_render.md R176, R182). -/
theorem padLine_congr {len : Nat} {chars chars' : Row}
    (h : ∀ (k : Nat) (hk : k < 20), k < len → chars[k] = chars'[k]) (j : Justify) :
    padLine len j chars = padLine len j chars' := by
  refine Vector.ext fun i hi => ?_
  rw [padLine_getElem, padLine_getElem]
  split_ifs with hcell
  · exact h _ _ (by omega)
  · rfl

theorem raise_withLanes (r : Raise) (chars : Row) (s : State) :
    (s.withLanes chars).raise r = (s.raise r).withLanes chars := by
  cases r <;> rfl

theorem Op.cut_withLanes (op : Op) (chars : Row) (s : State) :
    op.cut (s.withLanes chars) = (op.cut s).withLanes chars := by
  rcases op with ⟨backlight, prim, _⟩
  cases backlight <;> cases prim <;> rfl

/-- No action reads the lanes: a list runs to the same end, or fails at the same action, whatever they hold. -/
theorem respond_runOps_withLanes (ops : List Op) (chars : Row) (s : State) :
    (runOps ops (s.withLanes chars)).respond = (runOps ops s).respond.withLanes chars := by
  induction ops generalizing s with
  | nil => rfl
  | cons op ops ih =>
    have hnow : (s.withLanes chars).ioFaultNow = s.ioFaultNow := rfl
    rw [runOps, runOps, Op.perform_eq, Op.perform_eq, hnow]
    split_ifs
    · simp only [Flow.respond, Op.cut_withLanes, raise_withLanes]
    · exact ih (op.succeed s)

theorem fillLineBuf_withLanes {chars : Row} {s : State}
    (h : ∀ (k : Nat) (hk : k < 20), k < s.cmdl.len.toNat → chars[k] = s.cmdl.chars[k]) (j : Justify) :
    fillLineBuf j (s.withLanes chars) = (fillLineBuf j s).withLanes chars := by
  rw [fillLineBuf_eq, fillLineBuf_eq, ← padLine_congr h]
  rfl

/-- A `RENDER` with other lanes at and beyond the length: the checks do not read them, the padded line is the same, and
then no action reads a lane. -/
theorem run_render_withLanes {chars : Row} {s : State}
    (h : ∀ (k : Nat) (hk : k < 20), k < s.cmdl.len.toNat → chars[k] = s.cmdl.chars[k]) (j : Justify) (line : Byte) :
    (renderProcedure j line).run (s.withLanes chars) = ((renderProcedure j line).run s).withLanes chars := by
  have hcheck : (renderProcedure j line).check (s.withLanes chars) = (renderProcedure j line).check s := rfl
  cases hc : (renderProcedure j line).check s with
  | some cause =>
    rw [run_of_check hc, run_of_check (hcheck.trans hc)]
    rfl
  | none =>
    simp only [Procedure.run, hcheck, hc]
    simp only [renderProcedure, fillLineBuf_withLanes h]
    exact respond_runOps_withLanes _ chars _

/-- Settles O31: the lanes that differ are read by neither the checks, nor stage 2, nor an action. -/
theorem lanesBeyondTheLengthHaveNoEffect : Obligations.LanesBeyondTheLengthHaveNoEffect := by
  intro j line s chars h
  have hexec := exec_of_procedureOf (i := .render j line) (p := renderProcedure j line) rfl
  exact ⟨_, hexec s, (hexec (s.withLanes chars)).trans (congrArg _ (run_render_withLanes h j line))⟩

/-! ### What a step runs -/

/-- A block that has just accepted a command runs the instruction its word decodes to. -/
theorem finish_accept_of_decodeHost {c : Command} {i : Instr} (h : decodeHost c.word = .ok i) (s : State) :
    (s.accept c).finish = exec i (s.accept c) := by
  have hf : (s.accept c).finish = (s.accept c).finishCommand := rfl
  rw [hf, State.finishCommand, accept_cmdl, h]
  exact if_pos rfl

/-- Settles O33: a step of an idle block is `finish` of the accepted command, or one `Transmit` of the nine bits
presented, which are those of the decoded instruction. -/
theorem stepRunsTheDecodedInstruction : Obligations.StepRunsTheDecodedInstruction := by
  refine ⟨fun s c rest i hb hi hd => ?_, fun s w rest i hb hi hd => ?_⟩
  · rw [step_command hb hi, finish_accept_of_decodeHost hd]
    rfl
  · rw [step_transmit hb hi, exec_of_lcdByte (lcdByte_of_decodeLcd hd)]

end Sys2Proof.Machine

/-! PROOFS. The two formats (30_encoding.md R71 to R90): a command word is its three fields, what each layout of them
decodes to, and that decoding and encoding undo each other. -/

namespace Sys2Proof.Machine

/-! ### A command word and its three fields -/

/-- The command word of an `op`, an `aux` and an `imm` field (30_encoding.md R71). -/
def hostWord (op aux : BitVec 4) (imm : Byte) : Word := op ++ aux ++ imm

section HostWord
variable (op aux : BitVec 4) (imm : Byte)

@[simp] theorem opField_hostWord : opField (hostWord op aux imm) = op :=
  (BitVec.extractLsb'_append_eq_of_le (by decide)).trans BitVec.extractLsb'_append_eq_left

@[simp] theorem auxField_hostWord : auxField (hostWord op aux imm) = aux :=
  (BitVec.extractLsb'_append_eq_of_le (by decide)).trans BitVec.extractLsb'_append_eq_right

@[simp] theorem immField_hostWord : immField (hostWord op aux imm) = imm := BitVec.extractLsb'_append_eq_right

end HostWord

@[simp] theorem hostWord_fields (w : Word) : hostWord (opField w) (auxField w) (immField w) = w := by
  have hhigh : opField w ++ auxField w = w.extractLsb' 8 8 := BitVec.extractLsb'_append_extractLsb'_eq_extractLsb' rfl
  rw [hostWord, hhigh]
  exact BitVec.extractLsb'_append_extractLsb'

/-- A bit of a word is the field of width 1 that stands there. -/
theorem ofBool_getLsbD {n : Nat} (x : BitVec n) (k : Nat) : BitVec.ofBool (x.getLsbD k) = x.extractLsb' k 1 := by
  rw [BitVec.getLsbD_eq_extractLsb']
  generalize x.extractLsb' k 1 = b
  revert b
  decide

/-- A field grows by the bit below it. -/
theorem extractLsb'_append_bit {n : Nat} (x : BitVec n) (k m : Nat) :
    x.extractLsb' (k + 1) m ++ BitVec.ofBool (x.getLsbD k) = x.extractLsb' k (m + 1) := by
  rw [ofBool_getLsbD]
  exact BitVec.extractLsb'_append_extractLsb'_eq_extractLsb' rfl

/-! ### Modes and justifications -/

@[simp] theorem Mode.ofBit_bit (m : Mode) : Mode.ofBit m.bit = m := by cases m <;> rfl

@[simp] theorem Mode.bit_ofBit (b : Bool) : (Mode.ofBit b).bit = b := by cases b <;> rfl

@[simp] theorem Justify.ofCode_code (j : Justify) : Justify.ofCode j.code = j := by cases j <;> rfl

@[simp] theorem Justify.code_ofCode (c : BitVec 2) : (Justify.ofCode c).code = c := by revert c; decide

/-! ### The encodings, field by field (30_encoding.md R72) -/

@[simp] theorem encode_xmit (m : Mode) (b : Byte) :
    encode (.xmit m b) = .host (hostWord 0x2#4 (0#3 ++ BitVec.ofBool m.bit) b) := by
  cases m <;> rfl

@[simp] theorem encode_setBacklight (v : Bool) :
    encode (.setBacklight v) = .host (hostWord 0x5#4 0#4 (0#7 ++ BitVec.ofBool v)) := by
  cases v <;> rfl

@[simp] theorem encode_setCursor (v : Bool) :
    encode (.setCursor v) = .host (hostWord 0x6#4 0#4 (0#7 ++ BitVec.ofBool v)) := by
  cases v <;> rfl

@[simp] theorem encode_setBlink (v : Bool) :
    encode (.setBlink v) = .host (hostWord 0x7#4 0#4 (0#7 ++ BitVec.ofBool v)) := by
  cases v <;> rfl

@[simp] theorem encode_setDisplay (v : Bool) :
    encode (.setDisplay v) = .host (hostWord 0x8#4 0#4 (0#7 ++ BitVec.ofBool v)) := by
  cases v <;> rfl

@[simp] theorem encode_render (j : Justify) (line : Byte) :
    encode (.render j line) = .host (hostWord 0x9#4 (0#2 ++ j.code) line) := by
  cases j <;> rfl

/-! ### The four layouts of format H: what a filled one decodes to, and what decodes fills it -/

@[simp] theorem decodeBare_hostWord (op : BitVec 4) (x : Instr) : decodeBare (hostWord op 0#4 0#8) x = .ok x := by
  simp [decodeBare]

@[simp] theorem decodeBoolean_hostWord (op : BitVec 4) (f : Bool → Instr) (v : Bool) :
    decodeBoolean (hostWord op 0#4 (0#7 ++ BitVec.ofBool v)) f = .ok (f v) := by
  rw [decodeBoolean, auxField_hostWord, immField_hostWord, getLsbD_append_ofBool_zero]
  exact if_pos ⟨rfl, BitVec.extractLsb'_append_eq_left⟩

@[simp] theorem decodeXmit_hostWord (op : BitVec 4) (m : Mode) (b : Byte) :
    decodeXmit (hostWord op (0#3 ++ BitVec.ofBool m.bit) b) = .ok (.xmit m b) := by
  rw [decodeXmit, auxField_hostWord, immField_hostWord, getLsbD_append_ofBool_zero, Mode.ofBit_bit]
  exact if_pos BitVec.extractLsb'_append_eq_left

@[simp] theorem decodeRender_hostWord (op : BitVec 4) (j : Justify) (line : Byte) :
    decodeRender (hostWord op (0#2 ++ j.code) line) = .ok (.render j line) := by
  rw [decodeRender, auxField_hostWord, immField_hostWord, BitVec.extractLsb'_append_eq_right, Justify.ofCode_code]
  exact if_pos BitVec.extractLsb'_append_eq_left

section Layouts
variable {w : Word} {op : BitVec 4}

/-- A word of a known `op` whose other fields are known is the word of the three. -/
theorem eq_hostWord {aux : BitVec 4} {imm : Byte} (hop : opField w = op) (haux : auxField w = aux)
    (himm : immField w = imm) : hostWord op aux imm = w := by
  rw [← hop, ← haux, ← himm, hostWord_fields]

theorem encode_of_decodeBare {x i : Instr} (h : decodeBare w x = .ok i) (hop : opField w = op)
    (hx : encode x = .host (hostWord op 0#4 0#8)) : encode i = .host w := by
  unfold decodeBare at h
  split_ifs at h with hzero
  cases h
  rw [hx, eq_hostWord hop hzero.1 hzero.2]

theorem encode_of_decodeBoolean {f : Bool → Instr} {i : Instr} (h : decodeBoolean w f = .ok i) (hop : opField w = op)
    (hf : ∀ v, encode (f v) = .host (hostWord op 0#4 (0#7 ++ BitVec.ofBool v))) : encode i = .host w := by
  unfold decodeBoolean at h
  split_ifs at h with hzero
  cases h
  have himm : immField w = 0#7 ++ BitVec.ofBool ((immField w).getLsbD 0) := by
    rw [← hzero.2, ofBool_getLsbD]
    exact (BitVec.extractLsb'_append_extractLsb' (w := 7) (len := 1)).symm
  rw [hf, eq_hostWord hop hzero.1 himm]

theorem encode_of_decodeXmit {i : Instr} (h : decodeXmit w = .ok i) (hop : opField w = 0x2#4) :
    encode i = .host w := by
  unfold decodeXmit at h
  split_ifs at h with hzero
  cases h
  have haux : auxField w = 0#3 ++ BitVec.ofBool ((auxField w).getLsbD 0) := by
    rw [← hzero, ofBool_getLsbD]
    exact (BitVec.extractLsb'_append_extractLsb' (w := 3) (len := 1)).symm
  rw [encode_xmit, Mode.bit_ofBit, eq_hostWord hop haux rfl]

theorem encode_of_decodeRender {i : Instr} (h : decodeRender w = .ok i) (hop : opField w = 0x9#4) :
    encode i = .host w := by
  unfold decodeRender at h
  split_ifs at h with hzero
  cases h
  have haux : auxField w = 0#2 ++ (auxField w).extractLsb' 0 2 := by
    rw [← hzero]
    exact (BitVec.extractLsb'_append_extractLsb' (w := 2) (len := 2)).symm
  rw [encode_render, Justify.code_ofCode, eq_hostWord hop haux rfl]

end Layouts

/-! ### Format H, both directions -/

/-- A command word that decodes is the encoding of the command (30_encoding.md R72). -/
theorem encode_of_decodeHost {w : Word} {i : Instr} (h : decodeHost w = .ok i) : encode i = .host w := by
  unfold decodeHost at h
  split_ifs at h with h1 h2 h3 h4 h5 h6 h7 h8 h9 h10
  · exact encode_of_decodeBare h h1 rfl
  · exact encode_of_decodeXmit h h2
  · exact encode_of_decodeBare h h3 rfl
  · exact encode_of_decodeBare h h4 rfl
  · exact encode_of_decodeBoolean h h5 encode_setBacklight
  · exact encode_of_decodeBoolean h h6 encode_setCursor
  · exact encode_of_decodeBoolean h h7 encode_setBlink
  · exact encode_of_decodeBoolean h h8 encode_setDisplay
  · exact encode_of_decodeRender h h9
  · exact encode_of_decodeBare h h10 rfl

/-! ### Format L, both directions -/

theorem decodeLcd_lData (c : Byte) : decodeLcd (1#1 ++ c) = .ok (.lData c) := by
  have hmode : (1#1 ++ c).getLsbD 8 = true := BitVec.getLsbD_append.trans rfl
  rw [decodeLcd, if_pos hmode, BitVec.extractLsb'_append_eq_right]

theorem decodeLcd_lSetddram (a : BitVec 7) : decodeLcd (0b01#2 ++ a) = .ok (.lSetddram a) := by
  have hmode : (0b01#2 ++ a).getLsbD 8 = false := BitVec.getLsbD_append.trans rfl
  have hrow : (0b01#2 ++ a).getLsbD 7 = true := BitVec.getLsbD_append.trans rfl
  rw [decodeLcd, hmode, if_neg Bool.false_ne_true, if_pos hrow, BitVec.extractLsb'_append_eq_right]

/-- Nine bits that decode are the encoding of the LCD-bus instruction (30_encoding.md R82). -/
theorem encode_of_decodeLcd {w : LcdWord} {i : Instr} (h : decodeLcd w = .ok i) : encode i = .lcd w := by
  have grow := extractLsb'_append_bit w
  unfold decodeLcd at h
  split_ifs at h with h1 h2 h3 h4 h5 h6 h7 h8 h9 <;> cases h
  · have hhigh : w.extractLsb' 8 1 = 1#1 := by rw [← ofBool_getLsbD, h1]; rfl
    rw [encode, ← hhigh]
    exact congrArg _ (BitVec.extractLsb'_append_extractLsb' (w := 1) (len := 8))
  · have hhigh : w.extractLsb' 7 2 = 0b01#2 := by
      rw [← grow 7 1, ← ofBool_getLsbD, eq_false_of_ne_true h1, h2]; rfl
    rw [encode, ← hhigh]
    exact congrArg _ (BitVec.extractLsb'_append_extractLsb' (w := 2) (len := 7))
  · rw [encode, h3]
  · rw [encode, h4]
  · rw [encode, ← h5.1, ← h5.2, grow 4 4, grow 3 5, grow 2 6]
    exact congrArg _ (BitVec.extractLsb'_append_extractLsb' (w := 7) (len := 2))
  · rw [encode, ← h6, grow 2 6, grow 1 7, grow 0 8]
    exact congrArg _ BitVec.extractLsb'_eq_self
  · rw [encode, ← h7, grow 1 7, grow 0 8]
    exact congrArg _ BitVec.extractLsb'_eq_self
  · rw [encode, h8]
  · rw [encode, h9]

/-! ### Decoding and encoding undo each other -/

/-- Settles O1: a command by its layout, an LCD-bus instruction by the bits that tell its row from those above it. -/
theorem decodeOfEncodeIsTheInstruction : Obligations.DecodeOfEncodeIsTheInstruction := by
  intro i
  cases i with
  | construct | clear | home | release => rfl
  | lReset33 | lReset32 | lClear | lHome => rfl
  | xmit | setBacklight | setCursor | setBlink | setDisplay | render => simp [decode, decodeHost]
  | lFuncset w n f => revert w n f; decide
  | lDispctl d c b => revert d c b; decide
  | lEntry i s => revert i s; decide
  | lSetddram a => exact decodeLcd_lSetddram a
  | lData c => exact decodeLcd_lData c

/-- Settles O2: each branch of the two decoders fixes every bit of the word. -/
theorem encodeOfDecodeIsTheWord : Obligations.EncodeOfDecodeIsTheWord := by
  intro e i h
  cases e with
  | host w => exact encode_of_decodeHost h
  | lcd w => exact encode_of_decodeLcd h

theorem decodeHost_of_encode {i : Instr} {w : Word} (h : encode i = .host w) : decodeHost w = .ok i := by
  have hd := decodeOfEncodeIsTheInstruction i
  rwa [h] at hd

theorem decodeLcd_of_encode {i : Instr} {w : LcdWord} (h : encode i = .lcd w) : decodeLcd w = .ok i := by
  have hd := decodeOfEncodeIsTheInstruction i
  rwa [h] at hd

/-! ### The composite bytes and some words -/

theorem composeFunctionSet_mem (w n f : Bool) :
    composeFunctionSet w n f ∈ [0x20#8, 0x24#8, 0x28#8, 0x2C#8, 0x30#8, 0x34#8, 0x38#8, 0x3C#8] := by
  revert w n f; decide

theorem composeDisplayControl_mem (d c b : Bool) :
    composeDisplayControl d c b ∈ [0x08#8, 0x09#8, 0x0A#8, 0x0B#8, 0x0C#8, 0x0D#8, 0x0E#8, 0x0F#8] := by
  revert d c b; decide

theorem composeEntryMode_mem (i s : Bool) : composeEntryMode i s ∈ [0x04#8, 0x05#8, 0x06#8, 0x07#8] := by
  revert i s; decide

/-- Settles O5: each byte is fixed by two or three bits of `CFG`. -/
theorem compositeBytesHaveNoOtherBits : Obligations.CompositeBytesHaveNoOtherBits :=
  fun _ => ⟨composeFunctionSet_mem _ _ _, composeDisplayControl_mem _ _ _, composeEntryMode_mem _ _⟩

/-- Settles O4: each word is the encoding of its instruction. -/
theorem sampleWordsDecode : Obligations.SampleWordsDecode :=
  ⟨decodeHost_of_encode rfl, decodeHost_of_encode rfl, decodeHost_of_encode rfl, decodeHost_of_encode rfl,
    decodeHost_of_encode rfl, decodeHost_of_encode rfl, decodeLcd_of_encode rfl, decodeLcd_of_encode rfl,
    decodeLcd_of_encode rfl, decodeLcd_of_encode rfl⟩

end Sys2Proof.Machine

/-! PROOFS. Illegal command words and how one is answered (30_encoding.md R74, R75). -/

namespace Sys2Proof.Machine

/-! ### The reserved bits of the four layouts (30_encoding.md R74) -/

/-- A mask below the `op` field misses a word when it misses the other two fields. -/
theorem and_mask_eq_zero (w : Word) (aux : BitVec 4) (imm : Byte) :
    w &&& hostWord 0#4 aux imm = 0#16 ↔ auxField w &&& aux = 0#4 ∧ immField w &&& imm = 0#8 := by
  have hand : w &&& hostWord 0#4 aux imm = hostWord 0#4 (auxField w &&& aux) (immField w &&& imm) := by
    conv_lhs => rw [← hostWord_fields w]
    rw [hostWord, hostWord, BitVec.and_append, BitVec.and_append, BitVec.and_zero]
    rfl
  have hzero : 0#16 = hostWord 0#4 0#4 0#8 := rfl
  rw [hand, hzero]
  refine ⟨fun h => ?_, fun ⟨haux, himm⟩ => by rw [haux, himm]⟩
  exact ⟨by simpa using congrArg auxField h, by simpa using congrArg immField h⟩

/-- A decoder with one check of reserved bits accepts exactly the words that pass it. -/
theorem exists_ok_iff {c : Prop} [Decidable c] (x : Instr) :
    (∃ i, (if c then Except.ok x else Except.error DecodeError.reservedBit) = .ok i) ↔ c := by
  by_cases h : c <;> simp [h]

theorem decodeBare_ok_iff (w : Word) (x : Instr) : (∃ i, decodeBare w x = .ok i) ↔ w &&& 0x0FFF#16 = 0#16 := by
  have haux : ∀ aux : BitVec 4, aux = 0#4 ↔ aux &&& 0xF#4 = 0#4 := by decide
  have himm : ∀ imm : Byte, imm = 0#8 ↔ imm &&& 0xFF#8 = 0#8 := by decide
  rw [decodeBare, exists_ok_iff, haux, himm]
  exact (and_mask_eq_zero w 0xF#4 0xFF#8).symm

theorem decodeBoolean_ok_iff (w : Word) (f : Bool → Instr) :
    (∃ i, decodeBoolean w f = .ok i) ↔ w &&& 0x0FFE#16 = 0#16 := by
  have haux : ∀ aux : BitVec 4, aux = 0#4 ↔ aux &&& 0xF#4 = 0#4 := by decide
  have himm : ∀ imm : Byte, imm.extractLsb' 1 7 = 0#7 ↔ imm &&& 0xFE#8 = 0#8 := by decide
  rw [decodeBoolean, exists_ok_iff, haux, himm]
  exact (and_mask_eq_zero w 0xF#4 0xFE#8).symm

theorem decodeXmit_ok_iff (w : Word) : (∃ i, decodeXmit w = .ok i) ↔ w &&& 0x0E00#16 = 0#16 := by
  have haux : ∀ aux : BitVec 4, aux.extractLsb' 1 3 = 0#3 ↔ aux &&& 0xE#4 = 0#4 := by decide
  rw [decodeXmit, exists_ok_iff, haux]
  exact (and_iff_left BitVec.and_zero).symm.trans (and_mask_eq_zero w 0xE#4 0x00#8).symm

theorem decodeRender_ok_iff (w : Word) : (∃ i, decodeRender w = .ok i) ↔ w &&& 0x0C00#16 = 0#16 := by
  have haux : ∀ aux : BitVec 4, aux.extractLsb' 2 2 = 0#2 ↔ aux &&& 0xC#4 = 0#4 := by decide
  rw [decodeRender, exists_ok_iff, haux]
  exact (and_iff_left BitVec.and_zero).symm.trans (and_mask_eq_zero w 0xC#4 0x00#8).symm

/-! ### Legal words are the words that decode -/

theorem toNat_opField (w : Word) : (opField w).toNat = w.toNat / 4096 := by
  have := w.isLt
  rw [opField, BitVec.extractLsb'_toNat, Nat.shiftRight_eq_div_pow]
  omega

/-- A word whose `op` is a command is legal when its reserved bits are clear. -/
theorem illegalWord_eq_false_iff {w : Word} {op : BitVec 4} {m : Word} (hop : opField w = op)
    (hm : reservedBits op.toNat = some m) : illegalWord w = false ↔ w &&& m = 0#16 := by
  rw [← hop, toNat_opField] at hm
  simp [illegalWord, hm]

theorem illegalWord_of_unknown_op {w : Word} (h : reservedBits (opField w).toNat = none) : illegalWord w = true := by
  rw [toNat_opField] at h
  simp [illegalWord, h]

/-- The decoder accepts exactly the legal command words (30_encoding.md R75). -/
theorem decodeHost_ok_iff (w : Word) : (∃ i, decodeHost w = .ok i) ↔ illegalWord w = false := by
  unfold decodeHost
  split_ifs with h1 h2 h3 h4 h5 h6 h7 h8 h9 h10
  · exact (decodeBare_ok_iff w _).trans (illegalWord_eq_false_iff h1 rfl).symm
  · exact (decodeXmit_ok_iff w).trans (illegalWord_eq_false_iff h2 rfl).symm
  · exact (decodeBare_ok_iff w _).trans (illegalWord_eq_false_iff h3 rfl).symm
  · exact (decodeBare_ok_iff w _).trans (illegalWord_eq_false_iff h4 rfl).symm
  · exact (decodeBoolean_ok_iff w _).trans (illegalWord_eq_false_iff h5 rfl).symm
  · exact (decodeBoolean_ok_iff w _).trans (illegalWord_eq_false_iff h6 rfl).symm
  · exact (decodeBoolean_ok_iff w _).trans (illegalWord_eq_false_iff h7 rfl).symm
  · exact (decodeBoolean_ok_iff w _).trans (illegalWord_eq_false_iff h8 rfl).symm
  · exact (decodeRender_ok_iff w).trans (illegalWord_eq_false_iff h9 rfl).symm
  · exact (decodeBare_ok_iff w _).trans (illegalWord_eq_false_iff h10 rfl).symm
  · have hnone : reservedBits (opField w).toNat = none := by
      rw [reservedBits, if_neg (by bv_omega), if_neg (by bv_omega), if_neg (by bv_omega), if_neg (by bv_omega)]
    simp [illegalWord_of_unknown_op hnone]

/-! ### How illegal words and bad operands are answered -/

/-- An accepted illegal word is answered ILLEGAL_OP (30_encoding.md R75). -/
theorem finish_accept_of_illegal {c : Command} (h : illegalWord c.word = true) (s : State) :
    (s.accept c).finish = .next ((s.accept c).raiseValidation .illegalOp) := by
  rcases finish_accept_cases c s with ⟨-, hf⟩ | ⟨i, p, hd, -, -⟩
  · exact hf
  · cases h.symm.trans ((decodeHost_ok_iff _).1 ⟨i, hd⟩)

/-- The checks of `RENDER`'s operands fail with one of their own causes, never ILLEGAL_OP (44_text_render.md R171). -/
theorem renderCheck_of_bad {j : Justify} {line : Byte} (h : j = .noVariant ∨ line ∉ lineAddresses) (len : Nat) :
    ∃ cause, renderCheck len j line = some cause ∧ cause.code ≠ 4#3 := by
  unfold renderCheck
  split_ifs with hlen hj hline
  · exact ⟨_, rfl, by decide⟩
  · exact ⟨_, rfl, by decide⟩
  · exact absurd (List.contains_iff_mem.1 hline) (h.resolve_left hj)
  · exact ⟨_, rfl, by decide⟩

theorem checkRender_of_cleared {s : State} (h : s.life = .cleared) (j : Justify) (line : Byte) :
    checkRender j line s = renderCheck (textLen s) j line := by
  rw [checkRender, whenCleared_eq_none.2 h]

/-- Settles O3: the illegal words are those that do not decode, and bad `RENDER` operands fail a check of their own. -/
theorem illegalWordsAreAnsweredIllegalOp : Obligations.IllegalWordsAreAnsweredIllegalOp := by
  refine ⟨fun s c rest hb hi hw => ?_, fun w => (decodeHost_ok_iff w).2, fun j line => ⟨?_, fun s hlife hbad => ?_⟩⟩
  · rw [step_command hb hi, finish_accept_of_illegal hw]
    rfl
  · have henc := encode_render j line
    exact ⟨_, henc, (decodeHost_ok_iff _).1 ⟨_, decodeHost_of_encode henc⟩⟩
  · obtain ⟨cause, hcause, hcode⟩ := renderCheck_of_bad hbad (textLen s)
    have hcheck : (renderProcedure j line).check s = some cause := (checkRender_of_cleared hlife j line).trans hcause
    refine ⟨_, exec_of_procedureOf rfl s, ?_⟩
    rw [run_of_check hcheck]
    exact ⟨rfl, hcode⟩

end Sys2Proof.Machine

/-! PROOFS. An LCD-bus instruction run by itself (41_transmit.md R122; log 3). -/

namespace Sys2Proof.Machine

theorem transmitAlone_of_not_cleared {s : State} (h : s.life ≠ .cleared) (b : Byte) (m : Mode) :
    transmitAlone b m s = s := by
  rcases transmitAlone_cases b m s with ⟨-, he⟩ | ⟨hl, -⟩ | ⟨hl, -⟩
  · exact he
  · exact absurd hl h
  · exact absurd hl h

theorem transmitAlone_of_sound {s : State} (h : s.life = .cleared) (hs : SoundPins s) (b : Byte) (m : Mode) :
    transmitAlone b m s = succeedAll (transmitOps b m) s := by
  rw [transmitAlone, whenCleared_eq_none.2 h, runOps_sound _ _ hs]
  rfl

/-- Settles O13: an LCD-bus instruction is `Transmit` of the byte and mode of its encoding. -/
theorem lcdInstructionsTransmitTheirByte : Obligations.LcdInstructionsTransmitTheirByte := by
  intro i w s henc
  have hexec := exec_of_lcdByte (lcdByte_of_decodeLcd (decodeLcd_of_encode henc)) s
  refine ⟨fun hlife => ?_, fun hlife hsound => ?_⟩
  · rw [hexec, transmitAlone_of_not_cleared hlife]
  · rw [hexec, transmitAlone_of_sound hlife hsound, succeedAll_transmitOps]

end Sys2Proof.Machine

/-! PROOFS. A whole command in ticks (10_state.md R33; 30_encoding.md R80; 70_reset_and_hazards.md R240). -/

namespace Sys2Proof.Machine

/-- Settles O45: the tick of acceptance, then the command ends in the ticks of its events and that of its response. -/
theorem ticksRunTheStep : Obligations.TicksRunTheStep := by
  intro s c rest hb hd hi
  obtain ⟨t, hf, es, htr, -, hend, hmid⟩ := (accepted_accept c (s := { s with inputs := rest }) hd).endsInTicks
  refine ⟨t, es, (step_command hb hi).trans hf, htr, ?_, fun k h0 hk => ?_⟩
  · rw [Nat.add_comm 1 (duration es), ticks_accept hb hi, hend]
  · obtain ⟨j, rfl⟩ : ∃ j, k = j + 1 := ⟨k - 1, by omega⟩
    obtain ⟨hjb, hjq, -, -⟩ := hmid j (by omega)
    rw [ticks_accept hb hi]
    exact ⟨hjb, hjq⟩

end Sys2Proof.Machine

/-! PROOFS. The composite bytes and the fields of `CFG` (40_flag_encoder.md R107). -/

namespace Sys2Proof.Machine

/-! ### The value codes tell the values of a field apart (10_state.md R22) -/

theorem EntryDirection.isLeft_iff (x : EntryDirection) : x.isLeft = true ↔ x = .left := by
  cases x <;> decide

theorem EntryShift.isIncrement_iff (x : EntryShift) : x.isIncrement = true ↔ x = .increment := by
  cases x <;> decide

theorem BusWidth.isEight_iff (x : BusWidth) : x.isEight = true ↔ x = .eight := by
  cases x <;> decide

theorem LineCount.isTwo_iff (x : LineCount) : x.isTwo = true ↔ x = .two := by
  cases x <;> decide

theorem Font.is5x10_iff (x : Font) : x.is5x10 = true ↔ x = .dots5x10 := by
  cases x <;> decide

theorem EntryDirection.isLeft_inj {x y : EntryDirection} : x.isLeft = y.isLeft ↔ x = y := by
  cases x <;> cases y <;> decide

theorem EntryShift.isIncrement_inj {x y : EntryShift} : x.isIncrement = y.isIncrement ↔ x = y := by
  cases x <;> cases y <;> decide

theorem BusWidth.isEight_inj {x y : BusWidth} : x.isEight = y.isEight ↔ x = y := by
  cases x <;> cases y <;> decide

theorem LineCount.isTwo_inj {x y : LineCount} : x.isTwo = y.isTwo ↔ x = y := by
  cases x <;> cases y <;> decide

theorem Font.is5x10_inj {x y : Font} : x.is5x10 = y.is5x10 ↔ x = y := by
  cases x <;> cases y <;> decide

/-! ### Each weight is a bit of its own, so a byte fixes its fields -/

theorem composeFunctionSet_bits (w n f : Bool) :
    (composeFunctionSet w n f).getLsbD 4 = w ∧ (composeFunctionSet w n f).getLsbD 3 = n ∧
      (composeFunctionSet w n f).getLsbD 2 = f := by
  revert w n f; decide

theorem composeDisplayControl_bits (d c b : Bool) :
    (composeDisplayControl d c b).getLsbD 2 = d ∧ (composeDisplayControl d c b).getLsbD 1 = c ∧
      (composeDisplayControl d c b).getLsbD 0 = b := by
  revert d c b; decide

theorem composeEntryMode_bits (i s : Bool) :
    (composeEntryMode i s).getLsbD 1 = i ∧ (composeEntryMode i s).getLsbD 0 = s := by
  revert i s; decide

theorem composeFunctionSet_inj {w n f w' n' f' : Bool} :
    composeFunctionSet w n f = composeFunctionSet w' n' f' ↔ w = w' ∧ n = n' ∧ f = f' := by
  refine ⟨fun h => ?_, fun ⟨hw, hn, hf⟩ => by rw [hw, hn, hf]⟩
  obtain ⟨hw, hn, hf⟩ := composeFunctionSet_bits w n f
  rw [h] at hw hn hf
  obtain ⟨hw', hn', hf'⟩ := composeFunctionSet_bits w' n' f'
  exact ⟨hw.symm.trans hw', hn.symm.trans hn', hf.symm.trans hf'⟩

theorem composeDisplayControl_inj {d c b d' c' b' : Bool} :
    composeDisplayControl d c b = composeDisplayControl d' c' b' ↔ d = d' ∧ c = c' ∧ b = b' := by
  refine ⟨fun h => ?_, fun ⟨hd, hc, hb⟩ => by rw [hd, hc, hb]⟩
  obtain ⟨hd, hc, hb⟩ := composeDisplayControl_bits d c b
  rw [h] at hd hc hb
  obtain ⟨hd', hc', hb'⟩ := composeDisplayControl_bits d' c' b'
  exact ⟨hd.symm.trans hd', hc.symm.trans hc', hb.symm.trans hb'⟩

theorem composeEntryMode_inj {i s i' s' : Bool} :
    composeEntryMode i s = composeEntryMode i' s' ↔ i = i' ∧ s = s' := by
  refine ⟨fun h => ?_, fun ⟨hi, hs⟩ => by rw [hi, hs]⟩
  obtain ⟨hi, hs⟩ := composeEntryMode_bits i s
  rw [h] at hi hs
  obtain ⟨hi', hs'⟩ := composeEntryMode_bits i' s'
  exact ⟨hi.symm.trans hi', hs.symm.trans hs'⟩

theorem functionSetByte_eq_iff (c c' : Cfg) : functionSetByte c = functionSetByte c' ↔
    c.busWidth = c'.busWidth ∧ c.lineCount = c'.lineCount ∧ c.font = c'.font := by
  rw [functionSetByte, functionSetByte, composeFunctionSet_inj, BusWidth.isEight_inj, LineCount.isTwo_inj,
    Font.is5x10_inj]

theorem displayControlByte_eq_iff (c c' : Cfg) : displayControlByte c = displayControlByte c' ↔
    c.display = c'.display ∧ c.cursor = c'.cursor ∧ c.blink = c'.blink :=
  composeDisplayControl_inj

theorem entryModeByte_eq_iff (c c' : Cfg) : entryModeByte c = entryModeByte c' ↔
    c.entryDirection = c'.entryDirection ∧ c.entryShift = c'.entryShift := by
  rw [entryModeByte, entryModeByte, composeEntryMode_inj, EntryDirection.isLeft_inj, EntryShift.isIncrement_inj]

/-! ### Each byte is its constant ORed with the weights of its fields -/

theorem functionSetByte_eq_or (c : Cfg) : functionSetByte c =
    0x20#8 ||| (if c.busWidth = .eight then 0x10#8 else 0#8) ||| (if c.lineCount = .two then 0x08#8 else 0#8) |||
      (if c.font = .dots5x10 then 0x04#8 else 0#8) := by
  simp only [functionSetByte, composeFunctionSet, weigh, BusWidth.isEight_iff, LineCount.isTwo_iff, Font.is5x10_iff]
  rfl

theorem displayControlByte_eq_or (c : Cfg) : displayControlByte c =
    0x08#8 ||| (if c.display then 0x04#8 else 0#8) ||| (if c.cursor then 0x02#8 else 0#8) |||
      (if c.blink then 0x01#8 else 0#8) := rfl

theorem entryModeByte_eq_or (c : Cfg) : entryModeByte c =
    0x04#8 ||| (if c.entryDirection = .left then 0x02#8 else 0#8) |||
      (if c.entryShift = .increment then 0x01#8 else 0#8) := by
  simp only [entryModeByte, composeEntryMode, weigh, EntryDirection.isLeft_iff, EntryShift.isIncrement_iff]
  rfl

/-! ### The constant is the highest set bit, so the bytes keep to ranges of their own -/

theorem functionSetByte_highest (c : Cfg) :
    (functionSetByte c).toNat / 0x20 = 1 ∧ (functionSetByte c).toNat % 4 = 0 := by
  have htable : ∀ b ∈ [0x20#8, 0x24#8, 0x28#8, 0x2C#8, 0x30#8, 0x34#8, 0x38#8, 0x3C#8],
      b.toNat / 0x20 = 1 ∧ b.toNat % 4 = 0 := by decide
  exact htable _ (composeFunctionSet_mem _ _ _)

theorem displayControlByte_highest (c : Cfg) : (displayControlByte c).toNat / 0x08 = 1 := by
  have htable : ∀ b ∈ [0x08#8, 0x09#8, 0x0A#8, 0x0B#8, 0x0C#8, 0x0D#8, 0x0E#8, 0x0F#8],
      b.toNat / 0x08 = 1 := by decide
  exact htable _ (composeDisplayControl_mem _ _ _)

theorem entryModeByte_highest (c : Cfg) : (entryModeByte c).toNat / 0x04 = 1 := by
  have htable : ∀ b ∈ [0x04#8, 0x05#8, 0x06#8, 0x07#8], b.toNat / 0x04 = 1 := by decide
  exact htable _ (composeEntryMode_mem _ _)

theorem functionSetByte_ne_displayControlByte (c c' : Cfg) : functionSetByte c ≠ displayControlByte c' := by
  have hf := (functionSetByte_highest c).1
  have hd := displayControlByte_highest c'
  intro h
  rw [h] at hf
  omega

theorem functionSetByte_ne_entryModeByte (c c' : Cfg) : functionSetByte c ≠ entryModeByte c' := by
  have hf := (functionSetByte_highest c).1
  have he := entryModeByte_highest c'
  intro h
  rw [h] at hf
  omega

theorem displayControlByte_ne_entryModeByte (c c' : Cfg) : displayControlByte c ≠ entryModeByte c' := by
  have hd := displayControlByte_highest c
  have he := entryModeByte_highest c'
  intro h
  rw [h] at hd
  omega

/-- 0x01 and 0x02 lie below the bytes of 40_flag_encoder.md R106, bit 7 above them, and 0x32 and 0x33 among the
function-set bytes, which are multiples of 4. -/
theorem ne_other_commands {b : Byte} (hlow : 4 ≤ b.toNat) (hhigh : b.toNat < 0x40)
    (hfour : b.toNat % 4 = 0 ∨ b.toNat < 0x10) :
    b ≠ 0x01#8 ∧ b ≠ 0x02#8 ∧ b ≠ 0x32#8 ∧ b ≠ 0x33#8 ∧ b.getLsbD 7 = false := by
  refine ⟨?_, ?_, ?_, ?_, Nat.testBit_lt_two_pow (by omega)⟩ <;> bv_omega

theorem composite_ne_other_commands (c : Cfg) :
    ∀ b ∈ [functionSetByte c, displayControlByte c, entryModeByte c],
      b ≠ 0x01#8 ∧ b ≠ 0x02#8 ∧ b ≠ 0x32#8 ∧ b ≠ 0x33#8 ∧ b.getLsbD 7 = false := by
  obtain ⟨hf, hfour⟩ := functionSetByte_highest c
  have hd := displayControlByte_highest c
  have he := entryModeByte_highest c
  simp only [List.forall_mem_cons, List.not_mem_nil, false_implies, implies_true, and_true]
  exact ⟨ne_other_commands (by omega) (by omega) (.inl hfour), ne_other_commands (by omega) (by omega) (by omega),
    ne_other_commands (by omega) (by omega) (by omega)⟩

/-- Settles O6: every weight and every constant is a bit of its own. -/
theorem compositeBytesFixTheirFields : Obligations.CompositeBytesFixTheirFields := by
  refine ⟨fun c => ?_, fun c c' => ?_, fun c c' => ?_, fun c => ?_, composite_ne_other_commands⟩
  · exact ⟨functionSetByte_eq_or c, displayControlByte_eq_or c, entryModeByte_eq_or c⟩
  · exact ⟨functionSetByte_eq_iff c c', displayControlByte_eq_iff c c', entryModeByte_eq_iff c c'⟩
  · exact ⟨functionSetByte_ne_displayControlByte c c', functionSetByte_ne_entryModeByte c c',
      displayControlByte_ne_entryModeByte c c'⟩
  · obtain ⟨hhigh, hfour⟩ := functionSetByte_highest c
    exact ⟨hhigh, hfour, displayControlByte_highest c, entryModeByte_highest c⟩

end Sys2Proof.Machine

/-! PROOFS. One `Transmit` by itself: its actions by kind, what the controller latches, and `XMIT`
(41_transmit.md R122 to R128). -/

namespace Sys2Proof.Machine

/-! ### The actions of a `Transmit` by kind (41_transmit.md R123) -/

theorem countP_setLineEvents (f : Event → Bool) (p : Pin) (b : Bool) :
    (setLineEvents p b).countP f = if f (.w p true) then b.toNat else 0 := by
  cases b <;> simp [setLineEvents, List.countP_cons]

/-- A kind of event that holds of all four sets of a data line, or of none, counts the four clears and each 1 bit once,
or the clears only. -/
theorem countP_presentEvents {f : Event → Bool} {c : Bool} (hset : ∀ p ∈ [Pin.d4, .d5, .d6, .d7], f (.w p true) = c)
    (n : Nibble) : (presentEvents n).countP f =
      [Event.w .d4 false, .w .d5 false, .w .d6 false, .w .d7 false].countP f + if c then popcount4 n else 0 := by
  simp only [presentEvents, List.countP_append, countP_setLineEvents, hset _ (by decide : Pin.d4 ∈ _),
    hset _ (by decide : Pin.d5 ∈ _), hset _ (by decide : Pin.d6 ∈ _), hset _ (by decide : Pin.d7 ∈ _), popcount4]
  cases c
  · rfl
  · simp [Nat.add_assoc]

/-- The number of events of such a kind in a whole `Transmit`: `RS`, then clears and pulse once in each half. -/
theorem countP_transmitEvents {f : Event → Bool} {c : Bool} (hset : ∀ p ∈ [Pin.d4, .d5, .d6, .d7], f (.w p true) = c)
    (b : Byte) (m : Mode) : (transmitEvents b m).countP f = (f (.w .rs (rsLevel m))).toNat +
      2 * ([Event.w .d4 false, .w .d5 false, .w .d6 false, .w .d7 false].countP f + pulseEvents.countP f) +
      if c then popcount b else 0 := by
  have hcons (e : Event) (es : List Event) : (e :: es).countP f = (f e).toNat + es.countP f := by
    rw [List.countP_cons]
    cases f e <;> simp [Nat.add_comm]
  rw [transmitEvents, hcons, List.countP_append, List.countP_append, List.countP_append, countP_presentEvents hset,
    countP_presentEvents hset, popcount_split]
  cases c
  · simp only [Bool.false_eq_true, if_false]
    omega
  · simp only [if_true]
    omega

theorem filter_isWait_presentEvents (n : Nibble) : (presentEvents n).filter Event.isWait = [] := by
  have hset (p : Pin) (b : Bool) : (setLineEvents p b).filter Event.isWait = [] := by cases b <;> rfl
  simp [presentEvents, hset, Event.isWait]

/-- The six waits of a `Transmit`, in order. -/
theorem filter_isWait_transmitEvents (b : Byte) (m : Mode) : (transmitEvents b m).filter Event.isWait =
    [.z Config.eDelay, .z Config.ePulse, .z Config.eDelay, .z Config.eDelay, .z Config.ePulse, .z Config.eDelay] := by
  have hpulse : pulseEvents.filter Event.isWait = [.z Config.eDelay, .z Config.ePulse, .z Config.eDelay] := rfl
  simp [transmitEvents, filter_isWait_presentEvents, hpulse, Event.isWait]

/-- A `Transmit` that meets no fault runs to its end. -/
theorem runOps_transmitOps {s : State} (hs : SoundPins s) (b : Byte) (m : Mode) :
    runOps (transmitOps b m) s = .going
      { s with
        pin := levelsAfter b m s.pin
        tr := s.tr ++ transmitEvents b m
        ioFault := s.ioFault.drop (13 + popcount b)
        dly := 0
        seq := if s.busy then s.seq + (19 + popcount b) else s.seq } := by
  rw [runOps_sound _ _ hs, succeedAll_transmitOps]

/-- Settles O8: each kind of event holds of all sets of the data lines or of none, so it is counted once for all. -/
theorem transmitActionCounts : Obligations.TransmitActionCounts := by
  intro b m s hs
  have hpop := popcount_le b
  have hlen := length_transmitEvents b m
  refine ⟨_, runOps_transmitOps hs b m, rfl, length_transmitOps b m, hlen, ?_, ?_, ?_, ?_, ?_, ?_,
    filter_isWait_transmitEvents b m, by omega, by omega, rfl, rfl⟩
  · exact (countP_transmitEvents (c := true) (by decide) b m).trans (by cases m <;> rfl)
  · exact (countP_transmitEvents (c := false) (by cases m <;> decide) b m).trans (by cases m <;> rfl)
  · exact (countP_transmitEvents (c := false) (by decide) b m).trans (by cases m <;> rfl)
  · exact (countP_transmitEvents (c := true) (by decide) b m).trans (by cases m <;> simp [pulseEvents, rsLevel])
  · exact (countP_transmitEvents (c := false) (by decide) b m).trans (by cases m <;> rfl)
  · exact (countP_transmitEvents (c := false) (by decide) b m).trans (by cases m <;> rfl)

/-- Settles O9: the nibbles latched and the levels left are those of the events a `Transmit` appends. -/
theorem transmitIsLatchedAsItsByte : Obligations.TransmitIsLatchedAsItsByte := by
  intro b m s hs hclean
  refine ⟨_, runOps_transmitOps hs b m, ?_, fun heven => ?_, rfl⟩
  · rw [latched_append _ _ hclean, latchedFrom_transmitEvents]
    rfl
  · simpa [latchedFrom, pairUp] using bytes_append_transmit s.tr [] b m hclean heven

/-! ### `XMIT` -/

/-- Settles O12: `XMIT` in Cleared is admitted, and is one `Transmit` and `respond OK`. -/
theorem xmitCompletes : Obligations.XmitCompletes := by
  intro m b s hl hs
  rw [exec_of_procedureOf (p := xmitProcedure m b) rfl, run_of_sound (whenCleared_eq_none.2 hl) hs]
  exact congrArg (fun t => Host.Outcome.next t.respondOk) (succeedAll_transmitOps b m s)

end Sys2Proof.Machine

/-! PROOFS. Any instruction as a list of actions under any levels of `io_fault`: `E` is high only between its own writes
(41_transmit.md R127, R129), and where a failing action cuts the list (60_exceptions.md R197, R198). -/

namespace Sys2Proof.Machine

/-! ### `E` between a rise and its fall -/

/-- Replayed from a level of `E`, the events end with `E` low, and every pin action but a write of `E` finds it low. -/
def guardsEnable (high : Bool) : List Event → Bool
  | [] => !high
  | .w p v :: es => if p = .e then guardsEnable v es else !high && guardsEnable high es
  | .cfg _ :: es => !high && guardsEnable high es
  | .wf _ _ :: es => !high && guardsEnable high es
  | .cf _ :: es => !high && guardsEnable high es
  | .z _ :: es => guardsEnable high es
  | .rel :: es => guardsEnable high es

theorem guardsEnable_append {high : Bool} {xs ys : List Event} (hx : guardsEnable high xs = true)
    (hy : guardsEnable false ys = true) : guardsEnable high (xs ++ ys) = true := by
  induction xs generalizing high with
  | nil =>
    obtain rfl : high = false := by simpa [guardsEnable] using hx
    exact hy
  | cons x xs ih =>
    cases x with
    | w p v =>
      simp only [List.cons_append, guardsEnable] at hx ⊢
      split_ifs at hx ⊢
      · exact ih hx
      · rw [Bool.and_eq_true] at hx ⊢
        exact ⟨hx.1, ih hx.2⟩
    | cfg p | cf p | wf p v =>
      simp only [List.cons_append, guardsEnable, Bool.and_eq_true] at hx ⊢
      exact ⟨hx.1, ih hx.2⟩
    | z n | rel => exact ih hx

theorem guardsEnable_flatMap {α : Type} {f : α → List Event} (h : ∀ a, guardsEnable false (f a) = true) (as : List α) :
    guardsEnable false (as.flatMap f) = true := by
  induction as with
  | nil => rfl
  | cons a as ih => exact guardsEnable_append (h a) ih

theorem Lines.set_e (l : Lines) (p : Pin) (v : Bool) : (l.set p v).e = if p = .e then v else l.e := by
  cases p <;> rfl

/-- What stands after some of the events is guarded from the level of `E` they leave. -/
theorem guardsEnable_replay {l : Lines} {xs ys : List Event} (h : guardsEnable l.e (xs ++ ys) = true) :
    guardsEnable (replay l xs).e ys = true := by
  induction xs generalizing l with
  | nil => exact h
  | cons x xs ih =>
    cases x with
    | w p v =>
      refine ih ?_
      rw [Lines.set_e]
      simp only [List.cons_append, guardsEnable] at h
      split_ifs at h ⊢
      · exact h
      · exact (Bool.and_eq_true_iff.1 h).2
    | cfg p | cf p | wf p v => exact ih (Bool.and_eq_true_iff.1 h).2
    | z n | rel => exact ih h

theorem replay_e_of_guardsEnable {l : Lines} {es : List Event} (h : guardsEnable l.e es = true) :
    (replay l es).e = false := by
  have hend := guardsEnable_replay (ys := []) (by rwa [List.append_nil])
  simpa [guardsEnable] using hend

/-- A pin action that is no write of `E` comes when `E` is low. -/
theorem replay_e_before_pinAction {l : Lines} {xs ys : List Event} {e : Event}
    (h : guardsEnable l.e (xs ++ e :: ys) = true) (hpin : e.isPinAction = true) (hne : ∀ v, e ≠ .w .e v) :
    (replay l xs).e = false := by
  have hrest := guardsEnable_replay h
  cases e with
  | w p v =>
    have hp : p ≠ .e := by
      rintro rfl
      exact hne v rfl
    rw [guardsEnable, if_neg hp] at hrest
    simpa using (Bool.and_eq_true_iff.1 hrest).1
  | cfg p | cf p | wf p v => simpa using (Bool.and_eq_true_iff.1 hrest).1
  | z n | rel => cases hpin

theorem guardsEnable_presentEvents (n : Nibble) : guardsEnable false (presentEvents n) = true := by
  have hset (p : Pin) (hp : p ≠ .e) (b : Bool) : guardsEnable false (setLineEvents p b) = true := by
    cases b <;> simp [setLineEvents, guardsEnable, hp]
  exact guardsEnable_append rfl <| guardsEnable_append (guardsEnable_append (guardsEnable_append
    (hset _ (by decide) _) (hset _ (by decide) _)) (hset _ (by decide) _)) (hset _ (by decide) _)

theorem guardsEnable_transmitEvents (b : Byte) (m : Mode) : guardsEnable false (transmitEvents b m) = true := by
  have hphase (n : Nibble) : guardsEnable false (presentEvents n ++ pulseEvents) = true :=
    guardsEnable_append (guardsEnable_presentEvents n) rfl
  exact guardsEnable_append (xs := [.w .rs (rsLevel m)]) rfl (guardsEnable_append (hphase _) (hphase _))

/-- The pulses of `E` in every command (41_transmit.md R120, R127). -/
theorem guardsEnable_ops {i : Instr} {p : Procedure} (hp : procedureOf i = some p) (s : State) :
    guardsEnable false (eventsOf (p.ops s)) = true := by
  have htransmit (b : Byte) (m : Mode) : guardsEnable false (eventsOf (transmitOps b m)) = true := by
    rw [eventsOf_transmitOps]
    exact guardsEnable_transmitEvents b m
  cases i <;> simp only [procedureOf, Option.some.injEq, reduceCtorEq] at hp <;> subst hp
  case construct =>
    have hbytes := guardsEnable_flatMap (fun b => guardsEnable_transmitEvents b .command) (initializerBytes s.cfg)
    simp only [constructProcedure, eventsOf_construct]
    exact guardsEnable_append (guardsEnable_append (guardsEnable_append rfl hbytes) rfl) rfl
  case xmit | home | setCursor | setBlink => exact htransmit _ _
  case clear =>
    simp only [clearProcedure, eventsOf_append]
    exact guardsEnable_append (htransmit _ _) rfl
  case setDisplay v =>
    simp only [setDisplayProcedure, eventsOf_append]
    exact guardsEnable_append (htransmit _ _) (by cases v <;> rfl)
  case render j line =>
    simp only [renderProcedure, eventsOf_streamOps]
    exact guardsEnable_append (guardsEnable_transmitEvents _ _)
      (guardsEnable_flatMap (fun c => guardsEnable_transmitEvents c .data) _)
  case setBacklight | release => rfl

/-! ### An instruction under any levels of `io_fault` -/

/-- The block with other levels of `io_fault` to come. -/
def State.withFaults (fs : List Bool) (s : State) : State := { s with ioFault := fs }

theorem check_withFaults {i : Instr} {p : Procedure} (hp : procedureOf i = some p) (s : State) (fs : List Bool) :
    p.check (s.withFaults fs) = p.check s := by
  cases i <;> simp only [procedureOf, Option.some.injEq, reduceCtorEq] at hp <;> subst hp <;> rfl

theorem setup_withFaults {i : Instr} {p : Procedure} (hp : procedureOf i = some p) (s : State) (fs : List Bool) :
    p.setup (s.withFaults fs) = (p.setup s).withFaults fs := by
  cases i <;> simp only [procedureOf, Option.some.injEq, reduceCtorEq] at hp <;> subst hp
  case render j line =>
    simp only [renderProcedure]
    rw [fillLineBuf_eq, fillLineBuf_eq]
    rfl
  all_goals rfl

/-- Whatever `io_fault` does, the instruction performs no action. -/
def ActsNot (i : Instr) (s : State) : Prop :=
  ∀ fs, ∃ t, exec i (s.withFaults fs) = .next t ∧ t.tr = s.tr ∧ t.pin = s.pin

/-- Whatever `io_fault` does, the instruction runs the list from `u`, which is `s` but for register writes: to its end, or
up to a failing action and its `raise`. -/
structure RunsList (i : Instr) (s u : State) (ops : List Op) : Prop where
  tr : u.tr = s.tr
  pin : u.pin = s.pin
  fkind : u.fkind = s.fkind
  enable : guardsEnable false (eventsOf ops) = true
  going : ∀ fs v, runOps ops (u.withFaults fs) = .going v →
    ∃ t, exec i (s.withFaults fs) = .next t ∧ t.tr = v.tr ∧ t.pin = v.pin
  failed : ∀ fs r v, runOps ops (u.withFaults fs) = .failed r v → exec i (s.withFaults fs) = .next (v.raise r)

theorem runsList_of_check {i : Instr} {p : Procedure} (hp : procedureOf i = some p) {s : State}
    (hc : p.check s = none) : RunsList i s (p.setup s) (p.ops (p.setup s)) := by
  have hexec (fs : List Bool) : exec i (s.withFaults fs) =
      .next (runOps (p.ops (p.setup s)) ((p.setup s).withFaults fs)).respond := by
    have hops : p.ops ((p.setup s).withFaults fs) = p.ops (p.setup s) := ops_congr hp ⟨_, rfl, rfl⟩
    simp only [exec_of_procedureOf hp, Procedure.run, check_withFaults hp, setup_withFaults hp, hc, hops]
  obtain ⟨_, _, hset⟩ := setup_eq hp s
  constructor
  case enable => exact guardsEnable_ops hp _
  case going => exact fun fs v hv => ⟨v.respondOk, (hexec fs).trans (by rw [hv]; rfl), rfl, rfl⟩
  case failed => exact fun fs r v hv => (hexec fs).trans (by rw [hv]; rfl)
  all_goals rw [hset]

theorem runsList_transmitAlone {i : Instr} {b : Byte} {m : Mode} (hlcd : lcdByte i = some (b, m)) {s : State}
    (hl : s.life = .cleared) : RunsList i s s (transmitOps b m) := by
  have hexec (fs : List Bool) : exec i (s.withFaults fs) =
      .next (runOps (transmitOps b m) (s.withFaults fs)).raised := by
    have hadm : whenCleared (s.withFaults fs) = none := whenCleared_eq_none.2 hl
    simp only [exec_of_lcdByte hlcd, transmitAlone, hadm]
  refine ⟨rfl, rfl, rfl, ?_, fun fs v hv => ⟨v, (hexec fs).trans (by rw [hv]; rfl), rfl, rfl⟩,
    fun fs r v hv => (hexec fs).trans (by rw [hv]; rfl)⟩
  rw [eventsOf_transmitOps]
  exact guardsEnable_transmitEvents b m

/-- Everything an instruction can do: no action, or a list of them. -/
theorem actsNot_or_runsList (i : Instr) (s : State) : ActsNot i s ∨ ∃ u ops, RunsList i s u ops := by
  rcases procedureOf_or_lcdByte i with ⟨p, hp⟩ | ⟨-, b, m, hlcd⟩
  · rcases hc : p.check s with _ | cause
    · exact .inr ⟨_, _, runsList_of_check hp hc⟩
    · refine .inl fun fs => ⟨_, exec_of_procedureOf hp _, ?_⟩
      rw [run_of_check ((check_withFaults hp s fs).trans hc)]
      exact ⟨rfl, rfl⟩
  · by_cases hl : s.life = .cleared
    · exact .inr ⟨_, _, runsList_transmitAlone hlcd hl⟩
    · refine .inl fun fs => ⟨_, exec_of_lcdByte hlcd _, ?_⟩
      rw [transmitAlone_of_not_cleared (s := s.withFaults fs) hl]
      exact ⟨rfl, rfl⟩

/-! ### What a failing action answers -/

theorem Op.fail_of_write {op : Op} {p : Pin} {v : Bool} (h : op.prim = .write p v) (s : State) :
    (op.fail s).rspStatus = .transmission ∧ (op.fail s).rspCause = p.id ∧
      (s.fkind = .none → (op.fail s).fkind = .transmission ∧ (op.fail s).fpin = p) := by
  have hraises : op.raises = .transmission p := by simp [Op.raises, h]
  have hfkind : (op.cut s).fkind = s.fkind := by simp [Op.cut, h, Op.before_eq]
  rw [Op.fail, hraises]
  refine ⟨rfl, rfl, fun hf => ?_⟩
  simp [State.raise, hfkind, hf]

theorem Op.fail_of_configure {op : Op} {p : Pin} (h : op.prim = .configure p) (s : State) :
    (op.fail s).rspStatus = .resource ∧ (op.fail s).rspCause = p.id ∧ (op.fail s).fkind = .resource ∧
      (op.fail s).fpin = p := by
  have hraises : op.raises = .resource p := by simp [Op.raises, h]
  rw [Op.fail, hraises]
  exact ⟨rfl, rfl, rfl, rfl⟩

theorem Op.fail_pin_e {op : Op} (hpin : op.prim.event.isPinAction = true) (h : ∀ v, op.prim ≠ .write .e v) (s : State) :
    (op.fail s).pin.e = s.pin.e :=
  (Shape.fail [] op [] s hpin).pin .e fun o ho => by rwa [List.mem_singleton.1 ho]

theorem Op.fail_ioFault {op : Op} (hpin : op.prim.event.isPinAction = true) (s : State) :
    (op.fail s).ioFault = s.ioFault.tail := by
  obtain ⟨pin, draws, hc⟩ := Op.cut_eq hpin s
  simp [Op.fail, hc]

theorem prim_eq_write {pr : Prim} {p : Pin} {v : Bool} (h : pr.event = .w p v) : pr = .write p v := by
  cases pr <;> cases h
  rfl

theorem prim_eq_configure {pr : Prim} {p : Pin} (h : pr.event = .cfg p) : pr = .configure p := by
  cases pr <;> cases h
  rfl

/-- Settles O11: a list leaves `E` low at its end and in front of every pin action but a write of `E`, so only a failed
write of `E` can leave it high. -/
theorem enableIsLowUnlessItsOwnWriteFailed : Obligations.EnableIsLowUnlessItsOwnWriteFailed := by
  intro i s t hlow h hhigh
  rcases actsNot_or_runsList i s with hno | ⟨u, ops, hrun⟩
  · obtain ⟨t', ht', -, hp⟩ := hno s.ioFault
    cases h.symm.trans ht'
    rw [hp, hlow] at hhigh
    cases hhigh
  have hulow : u.pin.e = false := by rw [hrun.pin, hlow]
  have hguard : guardsEnable u.pin.e (eventsOf ops) = true := by rw [hulow]; exact hrun.enable
  rcases runOps_cases ops (u.withFaults s.ioFault) with hgo | ⟨done, op, rest, hops, hpin, -, hfail⟩
  · obtain ⟨t', ht', -, hp⟩ := hrun.going _ _ hgo
    cases h.symm.trans ht'
    rw [hp, succeedAll_eq] at hhigh
    exact absurd (replay_e_of_guardsEnable hguard) (by simpa [State.withFaults] using hhigh)
  · cases h.symm.trans (hrun.failed _ _ _ hfail)
    change (op.fail _).pin.e = true at hhigh
    by_cases he : ∃ v, op.prim = .write .e v
    · obtain ⟨v, hv⟩ := he
      obtain ⟨hstatus, hcause, -⟩ := Op.fail_of_write hv (succeedAll done (u.withFaults s.ioFault))
      have htr := Op.fail_tr hpin (succeedAll done (u.withFaults s.ioFault))
      refine ⟨hstatus, hcause, raise_life _ _, ?_⟩
      change (op.fail _).tr.getLast? ∈ _
      rw [htr, hv]
      cases v <;> simp [Prim.event, Event.failed]
    · have hother (v : Bool) : op.prim ≠ .write .e v := fun hv => he ⟨v, hv⟩
      rw [hops, eventsOf_append, eventsOf_cons] at hguard
      have hbefore := replay_e_before_pinAction hguard hpin fun v hv => hother v (prim_eq_write hv)
      rw [Op.fail_pin_e hpin hother, succeedAll_eq] at hhigh
      exact absurd hbefore (by simpa [State.withFaults] using hhigh)

/-! ### Where a failing action cuts a list (41_transmit.md R129) -/

/-- With `io_fault` 0 at the first k pin actions and 1 at the next, a list stops at its k-th pin action. -/
theorem runOps_fault {ops : List Op} {k : Nat} (hk : k < pinActions (eventsOf ops)) {s : State} {rest : List Bool}
    (hf : s.ioFault = List.replicate k false ++ true :: rest) :
    ∃ done op more, ops = done ++ op :: more ∧ op.prim.event.isPinAction = true ∧ pinActions (eventsOf done) = k ∧
      runOps ops s = .failed op.raises (op.cut (succeedAll done s)) := by
  induction ops generalizing k s with
  | nil => exact absurd hk (Nat.not_lt_zero k)
  | cons op ops ih =>
    have hgo (h : (op.prim.event.isPinAction && s.ioFaultNow) = false) :
        runOps (op :: ops) s = runOps ops (op.succeed s) := by
      simp [runOps, Op.perform_eq, h]
    rw [eventsOf_cons, pinActions_cons] at hk
    by_cases hpin : op.prim.event.isPinAction = true
    · rw [if_pos hpin] at hk
      cases k with
      | zero =>
        refine ⟨[], op, ops, rfl, hpin, rfl, ?_⟩
        simp [runOps, Op.perform_eq, hpin, State.ioFaultNow, hf]
      | succ k =>
        obtain ⟨done, op', more, hops, hpin', hcount, hrun⟩ := ih (k := k) (s := op.succeed s) (by omega)
          (by simp [Op.succeed, pinActions, hpin, hf, List.replicate_succ])
        refine ⟨op :: done, op', more, by rw [hops]; rfl, hpin', ?_, ?_⟩
        · rw [eventsOf_cons, pinActions_cons, if_pos hpin, hcount, Nat.add_comm]
        · rw [hgo (by simp [State.ioFaultNow, hf, List.replicate_succ]), hrun]
          rfl
    · rw [if_neg hpin, Nat.zero_add] at hk
      obtain ⟨done, op', more, hops, hpin', hcount, hrun⟩ := ih (s := op.succeed s) hk
        (by simp [Op.succeed, pinActions, hpin, hf])
      refine ⟨op :: done, op', more, by rw [hops]; rfl, hpin', ?_, ?_⟩
      · rw [eventsOf_cons, pinActions_cons, if_neg hpin, hcount, Nat.zero_add]
      · rw [hgo (by simp [hpin]), hrun]
        rfl

theorem cutAtFault_append {xs : List Event} {e : Event} (he : e.isPinAction = true) (ys : List Event) :
    cutAtFault (pinActions xs) (xs ++ e :: ys) = xs ++ [e.failed] := by
  induction xs with
  | nil => simp [pinActions, cutAtFault, he]
  | cons x xs ih =>
    rw [pinActions_cons, List.cons_append, List.cons_append]
    by_cases hx : x.isPinAction = true
    · rw [if_pos hx, Nat.add_comm, cutAtFault, if_pos hx, ih]
    · rw [if_neg hx, Nat.zero_add]
      cases hk : pinActions xs <;> rw [cutAtFault, if_neg hx, ← hk, ih]

theorem getElem?_filter_isPinAction {xs : List Event} {e : Event} (he : e.isPinAction = true) (ys : List Event) :
    ((xs ++ e :: ys).filter Event.isPinAction)[pinActions xs]? = some e := by
  rw [List.filter_append, List.filter_cons_of_pos he, pinActions, List.countP_eq_length_filter,
    List.getElem?_append_right (Nat.le_refl _), Nat.sub_self, List.getElem?_cons_zero]

/-- Settles O43: with sound pins the instruction appends the events of its list, and with `io_fault` 1 at the k-th pin
action the same list stops there. -/
theorem aFaultCutsTheInstructionAtItsAction : Obligations.AFaultCutsTheInstructionAtItsAction := by
  intro i s t0 es k rest h0 hes hk hfkind
  rcases actsNot_or_runsList i s with hno | ⟨u, ops, hrun⟩
  · obtain ⟨t', ht', htr, -⟩ := hno []
    cases h0.symm.trans ht'
    obtain rfl : es = [] := by simpa [htr] using hes
    exact absurd hk (Nat.not_lt_zero k)
  have hes' : es = eventsOf ops := by
    obtain ⟨t', ht', htr, -⟩ := hrun.going [] _ (runOps_sound ops (u.withFaults []) (by simp [State.withFaults]))
    cases h0.symm.trans ht'
    rw [htr, succeedAll_tr] at hes
    change u.tr ++ _ = _ at hes
    rw [hrun.tr] at hes
    exact (List.append_cancel_left hes).symm
  subst hes'
  obtain ⟨done, op, more, rfl, hpin, rfl, hfail⟩ := runOps_fault hk
    (s := u.withFaults (List.replicate k false ++ true :: rest)) rfl
  rw [eventsOf_append, eventsOf_cons, cutAtFault_append hpin]
  refine ⟨_, op.prim.event, hrun.failed _ _ _ hfail, ?_, getElem?_filter_isPinAction hpin _, raise_life _ _,
    raise_busy _ _, raise_seq _ _, raise_rspValid _ _, ?_, fun p v he => ?_, fun p he => ?_⟩
  · change (op.fail _).tr = _
    rw [Op.fail_tr hpin, succeedAll_tr]
    change u.tr ++ _ ++ _ = _
    rw [hrun.tr, List.append_assoc]
  · change (op.fail _).ioFault = _
    rw [Op.fail_ioFault hpin, succeedAll_eq]
    simp [State.withFaults]
  · obtain ⟨hstatus, hcause, hrecord⟩ := Op.fail_of_write (prim_eq_write he) (succeedAll done (u.withFaults _))
    exact ⟨hstatus, hcause, hrecord (by rw [succeedAll_fkind]; exact hrun.fkind.trans hfkind)⟩
  · exact Op.fail_of_configure (prim_eq_configure he) _

end Sys2Proof.Machine

/-! PROOFS. `CONSTRUCT` and `RELEASE` where they are admitted (42_init_release.md R135 to R144). -/

namespace Sys2Proof.Machine

/-! ### `CONSTRUCT` -/

/-- The list of `CONSTRUCT` that meets no fault, whole (42_init_release.md R141). -/
theorem succeedAll_construct (s : State) :
    succeedAll (constructProcedure.ops s) s =
      { s with
        cfg := { s.cfg with backlight := true }
        life := .cleared
        oe := Lines.all true
        pin := { rs := false, e := false, d4 := true, d5 := false, d6 := false, d7 := false, bl := true }
        tr := s.tr ++ constructEvents s.cfg
        ioFault := s.ioFault.drop (88 + ((initializerBytes s.cfg).map popcount).sum)
        dly := 0
        seq := if s.busy then s.seq + (constructProcedure.ops s).length else s.seq } := by
  have hops : constructProcedure.ops s = configureOps ++ initializerOps s.cfg ++ blinkOps := rfl
  rw [succeedAll_eq, hops]
  simp only [backlightAfter_construct, lifeAfter_construct, eventsOf_construct, replay_construct, enables_construct,
    pinActions_construct, any_isWait_construct, if_true]

/-- Settles O14: `CONSTRUCT` is admitted in Uninitialized, and its list runs to its end and `respond OK`. -/
theorem constructCompletes : Obligations.ConstructCompletes := by
  intro s hl hs
  have hc : constructProcedure.check s = none := admitIn_eq_none.2 (by simp [hl])
  rw [exec_of_procedureOf (p := constructProcedure) rfl, run_of_sound hc hs]
  exact congrArg (fun t => Host.Outcome.next t.respondOk) (succeedAll_construct s)

/-! ### `CONSTRUCT` from reset -/

/-- The bytes of a list of actions from an empty trace. -/
theorem Sends.bytes_eventsOf {ops : List Op} {bs : List (Bool × Byte)} (h : Sends ops bs) :
    Machine.bytes (eventsOf ops) = bs := by
  rw [Machine.bytes, latched, h.latch, pairUp_nibbles]

theorem bytes_constructEvents (c : Cfg) : bytes (constructEvents c) = (initializerBytes c).map (false, ·) := by
  rw [← eventsOf_construct]
  exact (sends_ops (i := .construct) rfl (State.resetWith c)).bytes_eventsOf

/-- From reset, where the trace is empty, `CONSTRUCT` leaves its own events and switches the backlight on. -/
theorem exec_construct_resetWith (c : Cfg) : ∃ t, exec .construct (State.resetWith c) = .next t ∧
    t.tr = constructEvents c ∧ t.cfg = { c with backlight := true } :=
  ⟨_, constructCompletes (State.resetWith c) rfl nofun, rfl, rfl⟩

/-- Settles O15: from reset the trace holds the events of `CONSTRUCT` alone, and they send the six bytes. -/
theorem constructSendsSixBytes : Obligations.ConstructSendsSixBytes := by
  intro c
  obtain ⟨t, ht, htr, -⟩ := exec_construct_resetWith c
  exact ⟨t, ht, by rw [htr]; exact bytes_constructEvents c⟩

/-! ### The actions of `CONSTRUCT` by kind (42_init_release.md R141) -/

theorem countP_isWrite_constructEvents (c : Cfg) :
    (constructEvents c).countP Event.isWrite = 81 + ((initializerBytes c).map popcount).sum := by
  have htransmit (b : Byte) : (transmitEvents b .command).countP Event.isWrite = 13 + popcount b :=
    countP_transmitEvents (c := true) (by decide) b .command
  have hclaim : configureEvents.countP Event.isWrite = 0 := rfl
  have hend : (Event.z Config.eDelay :: blinkEvents).countP Event.isWrite = 3 := rfl
  simp [constructEvents, initializerBytes, htransmit, hclaim, hend]
  omega

/-- Six waits in each of the six bytes, the settling wait and the two of the blink. -/
theorem countP_isWait_constructEvents (c : Cfg) : (constructEvents c).countP Event.isWait = 39 := by
  have htransmit (b : Byte) : (transmitEvents b .command).countP Event.isWait = 6 := by
    rw [List.countP_eq_length_filter, filter_isWait_transmitEvents]
    rfl
  have hclaim : configureEvents.countP Event.isWait = 0 := rfl
  have hend : (Event.z Config.eDelay :: blinkEvents).countP Event.isWait = 3 := rfl
  simp [constructEvents, initializerBytes, htransmit, hclaim, hend]

/-- Settles O16: the counts for any `CFG`, with the fourteen 1 bits of the six bytes of `CFG_RESET`. -/
theorem constructFromResetCounts : Obligations.ConstructFromResetCounts := by
  obtain ⟨t, ht, htr, hcfg⟩ := exec_construct_resetWith cfgReset
  have hpop : ((initializerBytes cfgReset).map popcount).sum = 14 := by decide
  refine ⟨t, ht, ?_, ?_, ?_, ?_, ?_, ?_⟩
  · rw [htr, length_constructEvents, hpop]
  · rw [htr, countP_isWrite_constructEvents, hpop]
  · rw [htr, countP_isWait_constructEvents]
  · rw [htr, clean_construct]
  · rw [hcfg]
    decide
  · rw [htr, bytes_constructEvents]
    decide

/-! ### `RELEASE` -/

/-- A `RELEASE` that is admitted: its one action reads no `io_fault`, so it runs to its end
(41_transmit.md R118; 42_init_release.md R143). -/
theorem run_release_of_check {s : State} (h : releaseProcedure.check s = none) :
    releaseProcedure.run s =
      { s with oe := Lines.all false, life := .released, tr := s.tr ++ [.rel], seq := 0, busy := false,
               rspValid := true, rspStatus := .ok, rspCause := 0#3 } := by
  rw [Procedure.run, h]
  rfl

/-- Settles O19: `RELEASE` is admitted in three lifecycle values; one that is not admitted leaves `LIFE` as it was, so
the third clause speaks of an admitted one. -/
theorem releaseCompletes : Obligations.ReleaseCompletes := by
  refine ⟨rfl, fun s => ?_⟩
  rw [exec_of_procedureOf (p := releaseProcedure) rfl]
  refine ⟨fun hl => ?_, fun hl => ?_, fun t ht hreleased hne p => ?_⟩
  · rw [run_release_of_check (admitIn_eq_none.2 (mem_admittedIn_release.2 hl))]
  · have hc : releaseProcedure.check s = some .badState := by simp [releaseProcedure, admitIn, hl]
    rw [run_of_check hc]
    rfl
  · cases ht
    rcases hc : releaseProcedure.check s with _ | cause
    · simp [run_release_of_check hc, outputs]
    · rw [run_of_check hc] at hreleased
      exact absurd hreleased hne

end Sys2Proof.Machine

/-! PROOFS. The display controller in Cleared: `CLEAR`, `HOME` and the four toggles (43_display_control.md R150 to
R157). -/

namespace Sys2Proof.Machine

/-! ### Single actions that succeed -/

/-- A wait, whole (41_transmit.md R117). -/
theorem succeedAll_waitOp (n : Nat) (s : State) :
    succeedAll [waitOp n] s = { s with tr := s.tr ++ [.z n], dly := 0, seq := s.seqNext } := rfl

/-- Switching the backlight, whole: the flag, and pin `BL` high for on (10_state.md R27; 43_display_control.md R154). -/
theorem succeedAll_backlightOp (v : Bool) (s : State) :
    succeedAll [backlightOp v] s =
      { s with
        cfg := { s.cfg with backlight := v }
        pin := { s.pin with bl := v }
        tr := s.tr ++ [.w .bl v]
        ioFault := s.ioFault.drop 1
        seq := s.seqNext } := by
  have hlevel : blLevel v = v := by cases v <;> rfl
  simp only [succeedAll_cons, succeedAll_nil, Op.succeed, backlightOp, hlevel]
  rfl

/-! ### A command in Cleared -/

/-- A command admitted in Cleared that meets no fault answers OK in the state its list of actions leaves
(60_exceptions.md R194, R195). -/
theorem exec_of_cleared {i : Instr} {p : Procedure} (hp : procedureOf i = some p) (hcheck : p.check = whenCleared)
    {s : State} (hl : s.life = .cleared) (hs : SoundPins (p.setup s)) :
    exec i s = .next (succeedAll (p.ops (p.setup s)) (p.setup s)).respondOk := by
  rw [exec_of_procedureOf hp, run_of_sound (hcheck ▸ whenCleared_eq_none.2 hl) hs]

/-! ### The commands that send a fixed byte -/

/-- Settles O21: the list is one `Transmit` and one wait; 0x01 has a single 1 bit. -/
theorem clearCompletes : Obligations.ClearCompletes := by
  intro s hl hs
  have hrun : exec .clear s =
      .next (succeedAll (transmitOps 0x01#8 .command ++ [waitOp Config.clearSettle]) s).respondOk :=
    exec_of_cleared (p := clearProcedure) rfl rfl hl hs
  rw [hrun, succeedAll_append, succeedAll_transmitOps, succeedAll_waitOp]
  rfl

/-- Settles O22: the list is one `Transmit` alone; 0x02 has a single 1 bit. -/
theorem homeCompletes : Obligations.HomeCompletes := by
  intro s hl hs
  have hrun : exec .home s = .next (succeedAll (transmitOps 0x02#8 .command) s).respondOk :=
    exec_of_cleared (p := homeProcedure) rfl rfl hl hs
  rw [hrun, succeedAll_transmitOps]
  rfl

/-! ### The toggles -/

/-- Settles O23: the list is the one action that switches the backlight. -/
theorem setBacklightCompletes : Obligations.SetBacklightCompletes := by
  intro v s hl hs
  have hrun : exec (.setBacklight v) s = .next (succeedAll [backlightOp v] s).respondOk :=
    exec_of_cleared (p := setBacklightProcedure v) rfl rfl hl hs
  rw [hrun, succeedAll_backlightOp]
  rfl

/-- A toggle in Cleared that only writes its field and retransmits: the byte sent is that of the `CFG` it leaves
(43_display_control.md R152, R153). -/
theorem exec_of_displayControlOps {i : Instr} {p : Procedure} (hp : procedureOf i = some p)
    (hcheck : p.check = whenCleared) {s : State} {c : Cfg} (hsetup : p.setup s = { s with cfg := c })
    (hops : p.ops { s with cfg := c } = displayControlOps { s with cfg := c }) (hl : s.life = .cleared)
    (hs : SoundPins s) :
    exec i s = .next
      { s with cfg := c, pin := levelsAfter (displayControlByte c) .command s.pin,
               tr := s.tr ++ transmitEvents (displayControlByte c) .command,
               ioFault := s.ioFault.drop (13 + popcount (displayControlByte c)), dly := 0, seq := 0, busy := false,
               rspValid := true, rspStatus := .ok, rspCause := 0#3 } := by
  have hs' : SoundPins (p.setup s) := by rw [hsetup]; exact hs
  rw [exec_of_cleared hp hcheck hl hs', hsetup, hops, displayControlOps, succeedAll_transmitOps]
  rfl

/-- Settles O24: both write a field and retransmit. -/
theorem cursorAndBlinkTogglesComplete : Obligations.CursorAndBlinkTogglesComplete := by
  intro v s hl hs
  constructor
  · exact exec_of_displayControlOps (p := setCursorProcedure v) rfl rfl rfl rfl hl hs
  · exact exec_of_displayControlOps (p := setBlinkProcedure v) rfl rfl rfl rfl hl hs

/-- The list of `SET_DISPLAY 0`, whole: the byte of `CFG`, then the backlight switched off
(43_display_control.md R157). -/
theorem succeedAll_displayControlOps_backlightOp_false (s : State) :
    succeedAll (displayControlOps s ++ [backlightOp false]) s =
      { s with
        cfg := { s.cfg with backlight := false }
        pin := { levelsAfter (displayControlByte s.cfg) .command s.pin with bl := false }
        tr := s.tr ++ transmitEvents (displayControlByte s.cfg) .command ++ [.w .bl false]
        ioFault := s.ioFault.drop (14 + popcount (displayControlByte s.cfg))
        dly := 0
        seq := if s.busy then s.seq + (20 + popcount (displayControlByte s.cfg)) else s.seq } := by
  have hdrop (n : Nat) : (s.ioFault.drop (13 + n)).drop 1 = s.ioFault.drop (14 + n) := by
    rw [List.drop_drop, Nat.add_right_comm]
  have hseq (n : Nat) : s.seq + (19 + n) + 1 = s.seq + (20 + n) := by omega
  rw [succeedAll_append, displayControlOps, succeedAll_transmitOps, succeedAll_backlightOp]
  simp only [hdrop, State.seqNext]
  cases s.busy
  · rfl
  · simp only [if_true, hseq]

/-- Settles O25: 1 retransmits and nothing more; 0 has the backlight's action after the byte. -/
theorem setDisplayCompletes : Obligations.SetDisplayCompletes := by
  intro s hl hs
  constructor
  · exact exec_of_displayControlOps (p := setDisplayProcedure true) rfl rfl rfl (List.append_nil _) hl hs
  · exact (exec_of_cleared (p := setDisplayProcedure false) rfl rfl hl hs).trans
      (congrArg (fun t => Host.Outcome.next t.respondOk) (succeedAll_displayControlOps_backlightOp_false _))

end Sys2Proof.Machine

/-! PROOFS. The text layout engine: the padded line (44_text_render.md R175 to R180), the checks of `RENDER` (R171 to
R174) and what a `RENDER` that runs to its end does (R178). -/

namespace Sys2Proof.Machine

/-! ### The padded line -/

/-- Whatever the justification, the padding in front leaves room for the text (44_text_render.md R177). -/
theorem leadPad_le (len : Nat) (j : Justify) : leadPad len j ≤ 20 - len := by
  cases j
  case noVariant | left => exact Nat.zero_le _
  case center => exact Nat.div_le_self _ _
  case right => exact Nat.le_refl _

/-- The padded line as a list: the padding in front, the text, the padding behind (44_text_render.md R176). -/
theorem toList_padLine {len : Nat} (h : len ≤ 20) (j : Justify) (chars : Row) :
    (padLine len j chars).toList =
      List.replicate (leadPad len j) padChar ++ chars.toList.take len ++
        List.replicate (20 - len - leadPad len j) padChar := by
  have hlead := leadPad_le len j
  refine List.ext_getElem (by simp; omega) fun i hi _ => ?_
  have hi20 : i < 20 := by simpa using hi
  rw [Vector.getElem_toList, padLine_getElem _ _ _ _ hi20]
  rcases Nat.lt_or_ge i (leadPad len j) with hfront | hfront
  · rw [if_neg (by omega), List.getElem_append_left (by simp; omega), List.getElem_append_left (by simpa using hfront),
      List.getElem_replicate]
  · rcases Nat.lt_or_ge i (leadPad len j + len) with htext | hbehind
    · rw [if_pos ⟨hfront, htext⟩, List.getElem_append_left (by simp; omega),
        List.getElem_append_right (by simpa using hfront)]
      simp
    · rw [if_neg (by omega), List.getElem_append_right (by simp; omega), List.getElem_replicate]

/-- Settles O28: the padding in front is `leadPad`, the rest of the padding is behind. -/
theorem paddedLineHoldsTheText : Obligations.PaddedLineHoldsTheText := by
  intro len j chars hlen _
  have hlead := leadPad_le len j
  refine ⟨leadPad len j, 20 - len - leadPad len j, by omega, Vector.length_toList, toList_padLine hlen j chars,
    ?_, ?_, ?_⟩
  · rintro rfl
    rfl
  · rintro rfl
    exact Nat.sub_self _
  · rintro rfl
    have hcenter : leadPad len .center = (20 - len) / 2 := rfl
    omega

/-- Settles O29: `leadPad` computes the table. -/
theorem centerPaddingTable : Obligations.CenterPaddingTable := by
  unfold Obligations.CenterPaddingTable
  decide

/-! ### The checks -/

theorem renderCheck_of_too_long {len : Nat} (h : 20 < len) (j : Justify) (line : Byte) :
    renderCheck len j line = some .textTooLong := if_pos h

theorem renderCheck_of_noVariant {len : Nat} (h : len ≤ 20) (line : Byte) :
    renderCheck len .noVariant line = some .badJustify :=
  (if_neg (Nat.not_lt.2 h)).trans (if_pos rfl)

theorem renderCheck_of_bad_line {len : Nat} {j : Justify} {line : Byte} (hlen : len ≤ 20) (hj : j ≠ .noVariant)
    (hline : line ∉ lineAddresses) : renderCheck len j line = some .badLine := by
  have hnot : ¬ isLineAddress line = true := mt List.contains_iff_mem.1 hline
  exact (if_neg (Nat.not_lt.2 hlen)).trans ((if_neg hj).trans (if_neg hnot))

/-- A `RENDER` in Cleared with a bad operand changes nothing but the response (60_exceptions.md R196, R200). -/
theorem exec_render_of_renderCheck {j : Justify} {line : Byte} {s : State} {cause : ValidationCause}
    (hl : s.life = .cleared) (hc : renderCheck s.cmdl.len.toNat j line = some cause) :
    exec (.render j line) s = .next (s.raiseValidation cause) := by
  have hcheck : (renderProcedure j line).check s = some cause := (checkRender_of_cleared hl j line).trans hc
  rw [exec_of_procedureOf (p := renderProcedure j line) rfl, run_of_check hcheck]

/-- Settles O30: the first check that fails gives the cause. -/
theorem renderValidation : Obligations.RenderValidation := by
  refine fun j line s hl => ⟨fun hlen => ?_, fun hlen hj => ?_, fun hlen hj hline => ?_⟩
  · exact exec_render_of_renderCheck hl (renderCheck_of_too_long hlen j line)
  · subst hj
    exact exec_render_of_renderCheck hl (renderCheck_of_noVariant hlen line)
  · exact exec_render_of_renderCheck hl (renderCheck_of_bad_line hlen hj hline)

/-! ### A `RENDER` that runs to its end -/

/-- Stage 3 with every action succeeding, and `respond OK`, from a block whose `LINEBUF` has been filled
(44_text_render.md R178; 60_exceptions.md R195). The cells are a variable, so that comparing the states does not
evaluate a padded line. -/
theorem respondOk_streamOps (line : Byte) (cells : Row) (s : State) :
    (succeedAll (streamOps line cells) { s with lineBuf := cells }).respondOk =
      { s with lineBuf := cells, pin := levelsAfter cells[19] .data s.pin, tr := s.tr ++ renderEvents line cells,
               ioFault := s.ioFault.drop (273 + popcount line + (cells.toList.map popcount).sum),
               dly := 0, seq := 0, busy := false, rspValid := true, rspStatus := .ok, rspCause := 0#3 } := by
  rw [succeedAll_streamOps]
  rfl

/-- Settles O26: valid operands pass the checks, and sound pins let every action succeed. -/
theorem renderCompletes : Obligations.RenderCompletes := by
  intro j line s hl hs hlen hj hline
  rw [exec_of_procedureOf (p := renderProcedure j line) rfl, run_render (render_check hl hlen hj hline) hs,
    fillLineBuf_eq, respondOk_streamOps]

/-! ### A command answered OK -/

/-- A command answered OK passed its checks and every action succeeded, whatever stands in `io_fault`
(60_exceptions.md R195 to R198). -/
theorem run_of_rspStatus_ok {p : Procedure} {s : State} (h : (p.run s).rspStatus = .ok) :
    p.run s = (succeedAll (p.ops (p.setup s)) (p.setup s)).respondOk := by
  rcases run_cases p s with ⟨cause, -, he⟩ | ⟨-, he⟩ | ⟨-, done, op, rest, -, -, -, he⟩
  · rw [he] at h
    cases h
  · exact he
  · rw [he] at h
    rcases raise_rspStatus op.raises (op.cut (succeedAll done (p.setup s))) with hr | hr <;> cases hr.symm.trans h

/-- After a clean trace of whole bytes, the events of a list of actions add the bytes it sends (41_transmit.md R126). -/
theorem Sends.bytes_append {ops : List Op} {bs : List (Bool × Byte)} (h : Sends ops bs) {tr : List Event}
    (hclean : clean tr = true) (heven : (latched tr).length % 2 = 0) :
    Machine.bytes (tr ++ eventsOf ops) = Machine.bytes tr ++ bs := by
  rw [Machine.bytes, latched_append _ _ hclean, h.latch, pairUp_append _ _ heven, pairUp_nibbles]
  rfl

/-- A command answered OK sends its bytes and nothing else; what stands in `LINEBUF` is what it was filled with. -/
theorem run_sends_of_rspStatus_ok {i : Instr} {p : Procedure} (hp : procedureOf i = some p) {s : State}
    (hclean : clean s.tr = true) (heven : (latched s.tr).length % 2 = 0) (hok : (p.run s).rspStatus = .ok) :
    (p.run s).lineBuf = (p.setup s).lineBuf ∧ bytes (p.run s).tr = bytes s.tr ++ commandBytes i (p.setup s) := by
  have htr : (p.setup s).tr = s.tr := by
    obtain ⟨_, _, hset⟩ := setup_eq hp s
    rw [hset]
  rw [run_of_rspStatus_ok hok]
  constructor
  · rw [State.respondOk, endCommand_lineBuf, succeedAll_eq]
  · rw [State.respondOk, endCommand_tr, succeedAll_tr, htr, (sends_ops hp _).bytes_append hclean heven]

theorem setup_render_lineBuf (j : Justify) (line : Byte) (s : State) :
    ((renderProcedure j line).setup s).lineBuf = padLine s.cmdl.len.toNat j s.cmdl.chars := by
  simp only [renderProcedure, fillLineBuf_eq]

/-- Settles O27: a `RENDER` answered OK ran its whole list, which sends the line address and the cells of stage 2. -/
theorem renderSendsAddressThenCells : Obligations.RenderSendsAddressThenCells := by
  intro j line s t hclean heven hexec hok
  have hp : procedureOf (.render j line) = some (renderProcedure j line) := rfl
  cases (exec_of_procedureOf hp s).symm.trans hexec
  obtain ⟨hbuf, hbytes⟩ := run_sends_of_rspStatus_ok hp hclean heven hok
  rw [hbytes, hbuf]
  exact ⟨setup_render_lineBuf j line s, rfl⟩

end Sys2Proof.Machine

/-! PROOFS. Every step answers a next state (60_exceptions.md R203), and what a failed pin action and its `raise` leave
(60_exceptions.md R197, R198, R207). -/

namespace Sys2Proof.Machine

/-! ### Every step answers -/

theorem exec_answers (i : Instr) (s : State) : ∃ t, exec i s = .next t := by
  rcases procedureOf_or_transmit i with ⟨p, hp⟩ | ⟨b, m, he⟩
  · exact ⟨_, exec_of_procedureOf hp s⟩
  · exact ⟨_, he s⟩

/-- Finishing a running command: the `raise` of its failed action, the answer to an illegal word, its procedure from the
start, or the rest of its list (30_encoding.md R75, R80; log 17). -/
theorem finish_cases (s : State) :
    (∃ r, s.raising = some r ∧ s.finish = .next (State.raise r { s with raising := none })) ∨
    s.finish = .next (s.raiseValidation .illegalOp) ∨
    ∃ i p, procedureOf i = some p ∧ (s.finish = .next (p.run s) ∨ s.finish = .next (p.runRest s)) := by
  cases hr : s.raising with
  | some r => exact .inl ⟨r, rfl, by simp [State.finish, hr]⟩
  | none =>
    have hf : s.finish = s.finishCommand := by simp [State.finish, hr]
    rw [hf, State.finishCommand]
    cases hw : decodeHost s.cmdl.word with
    | error e => exact .inr (.inl rfl)
    | ok i =>
      obtain ⟨p, hp⟩ := procedureOf_of_decodeHost hw
      refine .inr (.inr ⟨i, p, hp, ?_⟩)
      by_cases h0 : s.seq = 0
      · exact .inl (by simp [h0, exec_of_procedureOf hp])
      · exact .inr (by simp [h0, hp])

theorem finish_answers (s : State) : ∃ t, s.finish = .next t := by
  rcases finish_cases s with ⟨r, -, hf⟩ | hf | ⟨i, p, -, hf | hf⟩ <;> exact ⟨_, hf⟩

theorem step_answers (s : State) : ∃ t, step s = .next t := by
  by_cases hreset : ∃ rest, s.inputs = .reset :: rest
  · obtain ⟨rest, hi⟩ := hreset
    exact ⟨_, step_reset hi⟩
  cases hb : s.busy with
  | true =>
    rw [step_busy hb fun rest hi => hreset ⟨rest, hi⟩]
    exact finish_answers s
  | false =>
    rcases hi : s.inputs with _ | ⟨x, rest⟩
    · exact ⟨_, step_nothing hb hi⟩
    cases x with
    | reset => exact ⟨_, step_reset hi⟩
    | command c =>
      rw [step_command hb hi]
      exact finish_answers _
    | transmit w => exact ⟨_, step_transmit hb hi⟩

/-- Settles O34: each case of a step, and each instruction, names the state it answers. -/
theorem everyStepAnswersANextState : Obligations.EveryStepAnswersANextState :=
  ⟨step_answers, exec_answers⟩

/-! ### A failed pin action -/

/-- The free value of 60_exceptions.md R207 is one of the two levels. -/
theorem levelAfterFailedWrite_cases (s : State) (p : Pin) (v : Bool) :
    s.levelAfterFailedWrite p v = s.pin.get p ∨ s.levelAfterFailedWrite p v = v := by
  unfold State.levelAfterFailedWrite
  split_ifs
  · exact .inr rfl
  · exact .inl rfl

theorem pinWrite_of_fault {s : State} {rest : List Bool} (hf : s.ioFault = true :: rest) (p : Pin) (v : Bool) :
    s.pinWrite p v = .failed (.transmission p)
      { s with pin := s.pin.set p (s.levelAfterFailedWrite p v), tr := s.tr ++ [.wf p v], ioFault := rest,
               draws := s.draws + 1 } := by
  simp [State.pinWrite, State.ioFaultNow, hf]

theorem pinConfigure_of_fault {s : State} {rest : List Bool} (hf : s.ioFault = true :: rest) (p : Pin) :
    s.pinConfigure p = .failed (.resource p) { s with tr := s.tr ++ [.cf p], ioFault := rest } := by
  simp [State.pinConfigure, State.ioFaultNow, hf]

/-- Settles O10: the only freedom is the level of the latch, one of two; each `raise` is its register writes. -/
theorem failedPinActionsLeaveThis : Obligations.FailedPinActionsLeaveThis := by
  intro p v s rest hf
  exact ⟨⟨_, levelAfterFailedWrite_cases s p v, pinWrite_of_fault hf p v, rfl⟩, pinConfigure_of_fault hf p, rfl⟩

end Sys2Proof.Machine

/-! PROOFS. Admission by lifecycle (60_exceptions.md R194, R196), and a failing pin configuration (60_exceptions.md
R198). -/

namespace Sys2Proof.Machine

/-! ### Admission -/

theorem admitIn_of_not_mem {lives : List Life} {s : State} (h : s.life ∉ lives) : admitIn lives s = some .badState := by
  simp [admitIn, h]

theorem check_of_not_admitted {i : Instr} {p : Procedure} (hp : procedureOf i = some p) {s : State}
    (h : s.life ∉ admittedIn i) : p.check s = some .badState := by
  cases i <;> simp only [procedureOf, Option.some.injEq, reduceCtorEq] at hp <;> subst hp
  case render j line =>
    have hw : whenCleared s = some .badState := admitIn_of_not_mem h
    simp only [renderProcedure, checkRender, hw]
  all_goals exact admitIn_of_not_mem h

theorem renderCheck_ne_badState (len : Nat) (j : Justify) (line : Byte) :
    renderCheck len j line ≠ some .badState := by
  unfold renderCheck
  split_ifs <;> nofun

/-- Where a command is admitted, no check of it gives BAD_STATE: only `RENDER` has checks after admission. -/
theorem check_ne_badState {i : Instr} {p : Procedure} (hp : procedureOf i = some p) {s : State}
    (h : s.life ∈ admittedIn i) : p.check s ≠ some .badState := by
  cases i <;> simp only [procedureOf, Option.some.injEq, reduceCtorEq] at hp <;> subst hp
  case render j line =>
    have hcheck : (renderProcedure j line).check s = renderCheck (textLen s) j line :=
      checkRender_of_cleared (List.mem_singleton.1 h) j line
    rw [hcheck]
    exact renderCheck_ne_badState _ _ _
  all_goals exact fun hc => nomatch (admitIn_eq_none.2 h).symm.trans hc

/-- A command is answered VALIDATION, BAD_STATE by its checks alone (60_exceptions.md R195 to R198). -/
theorem check_of_badState_answer {p : Procedure} {s : State} (hstatus : (p.run s).rspStatus = .validation)
    (hcause : (p.run s).rspCause = 5#3) : p.check s = some .badState := by
  rcases run_cases p s with ⟨cause, hc, he⟩ | ⟨-, he⟩ | ⟨-, done, op, rest, -, -, -, he⟩
  · rw [he] at hcause
    have hcode : cause.code = 5#3 := hcause
    cases cause
    case badState => exact hc
    all_goals exact absurd hcode (by decide)
  · rw [he] at hstatus
    cases hstatus
  · rw [he] at hstatus
    rcases raise_rspStatus op.raises (op.cut (succeedAll done (p.setup s))) with hr | hr <;>
      cases hr.symm.trans hstatus

/-- Settles O20: BAD_STATE comes from the admission check alone, and it fails outside the table's lifecycle values. -/
theorem admissionByLifecycle : Obligations.AdmissionByLifecycle := by
  intro i w s henc
  obtain ⟨p, hp⟩ := procedureOf_of_decodeHost (decodeHost_of_encode henc)
  refine ⟨_, exec_of_procedureOf hp s, fun hout => ?_, fun hin hbad => ?_⟩
  · rw [run_of_check (check_of_not_admitted hp hout)]
    rfl
  · exact check_ne_badState hp hin (check_of_badState_answer hbad.1 hbad.2)

/-! ### A failing configuration -/

/-- With `io_fault` 0 at the pin actions of `done` and 1 at the next, a list stops at that next one. -/
theorem runOps_fails_at {op : Op} (hpin : op.prim.event.isPinAction = true) (done more : List Op) {s : State}
    {rest : List Bool} (hf : s.ioFault = List.replicate (pinActions (eventsOf done)) false ++ true :: rest) :
    runOps (done ++ op :: more) s = .failed op.raises (op.cut (succeedAll done s)) := by
  induction done generalizing s with
  | nil =>
    have hnow : s.ioFaultNow = true := by simp [State.ioFaultNow, hf, pinActions]
    simp [runOps, Op.perform_eq, hpin, hnow]
  | cons x done ih =>
    rw [eventsOf_cons, pinActions_cons] at hf
    have hgo : (x.prim.event.isPinAction && s.ioFaultNow) = false := by
      cases hx : x.prim.event.isPinAction <;> simp [State.ioFaultNow, hf, hx, Nat.add_comm 1, List.replicate_succ]
    have hrest : (x.succeed s).ioFault = List.replicate (pinActions (eventsOf done)) false ++ true :: rest := by
      cases hx : x.prim.event.isPinAction <;>
        simp [Op.succeed, pinActions, hf, hx, Nat.add_comm 1, List.replicate_succ]
    simp only [List.cons_append, runOps, Op.perform_eq, hgo, succeedAll_cons]
    exact ih hrest

/-- The seven pins in pin id order (10_state.md R26). -/
def pinOrder : List Pin := [.rs, .e, .d4, .d5, .d6, .d7, .bl]

/-- The configuration of one pin as an entry of a list of actions. -/
def configureOp (p : Pin) : Op := { prim := .configure p }

/-- The configurations before that of a pin are as many as its pin id says (42_init_release.md R136). -/
theorem configureOps_split (p : Pin) : configureOps =
    (pinOrder.take p.id.toNat).map configureOp ++
      configureOp p :: (pinOrder.drop (p.id.toNat + 1)).map configureOp := by
  cases p <;> rfl

theorem length_take_pinOrder (p : Pin) : (pinOrder.take p.id.toNat).length = p.id.toNat := by cases p <;> rfl

theorem mem_take_pinOrder (p q : Pin) : q ∈ pinOrder.take p.id.toNat ↔ q.id.toNat < p.id.toNat := by
  cases p <;> cases q <;> decide

theorem eventsOf_map_configureOp (ps : List Pin) : eventsOf (ps.map configureOp) = ps.map Event.cfg := by
  simp [eventsOf, configureOp, Prim.event]

theorem pinActions_map_cfg (ps : List Pin) : pinActions (ps.map Event.cfg) = ps.length := by
  induction ps with
  | nil => rfl
  | cons p ps ih => simp [pinActions_cons, Event.isPinAction, ih, Nat.add_comm]

theorem replay_map_cfg (l : Lines) (ps : List Pin) : replay l (ps.map Event.cfg) = l := by
  induction ps with
  | nil => rfl
  | cons p ps ih => exact ih

/-- Configuring some pins claims exactly those (41_transmit.md R115). -/
theorem enables_map_cfg (l : Lines) (ps : List Pin) (q : Pin) :
    (enables l (ps.map Event.cfg)).get q = (decide (q ∈ ps) || l.get q) := by
  induction ps generalizing l with
  | nil => simp [enables]
  | cons p ps ih =>
    rw [List.map_cons, enables, ih]
    by_cases hq : q = p
    · simp [hq]
    · simp [hq, Lines.get_set_other _ hq]

theorem plain_map_configureOp (ps : List Pin) : ∀ op ∈ ps.map configureOp, op.backlight = none ∧ op.life = none := by
  intro op h
  obtain ⟨p, -, rfl⟩ := List.mem_map.1 h
  exact ⟨rfl, rfl⟩

/-- Configuring some pins, each with success (41_transmit.md R115). -/
theorem succeedAll_map_configureOp (ps : List Pin) (s : State) :
    succeedAll (ps.map configureOp) s =
      { s with
        oe := enables s.oe (ps.map Event.cfg)
        tr := s.tr ++ ps.map Event.cfg
        ioFault := s.ioFault.drop ps.length
        seq := if s.busy then s.seq + ps.length else s.seq } := by
  have hplain := plain_map_configureOp ps
  have hwait : (ps.map Event.cfg).any Event.isWait = false := by simp [Event.isWait]
  rw [succeedAll_eq, backlightAfter_of_plain _ _ fun op h => (hplain op h).1,
    lifeAfter_of_plain _ _ fun op h => (hplain op h).2]
  simp only [eventsOf_map_configureOp, replay_map_cfg, pinActions_map_cfg, hwait, List.length_map]
  rfl

/-- A `CONSTRUCT` whose configuration of pin p fails stops there, the pins before p configured
(42_init_release.md R136; 60_exceptions.md R198). -/
theorem run_construct_of_fault {s : State} {p : Pin} {rest : List Bool} (hl : s.life = .uninitialized)
    (hf : s.ioFault = List.replicate p.id.toNat false ++ true :: rest) :
    constructProcedure.run s = State.raiseResource p
      { s with
        oe := enables s.oe ((pinOrder.take p.id.toNat).map Event.cfg)
        tr := s.tr ++ (pinOrder.take p.id.toNat).map Event.cfg ++ [.cf p]
        ioFault := rest } := by
  have hc : constructProcedure.check s = none := admitIn_eq_none.2 (List.mem_singleton.2 hl)
  have hops : constructProcedure.ops s = (pinOrder.take p.id.toNat).map configureOp ++ configureOp p ::
      ((pinOrder.drop (p.id.toNat + 1)).map configureOp ++ initializerOps s.cfg ++ blinkOps) := by
    simp only [constructProcedure]
    rw [configureOps_split p]
    simp
  have hrun : constructProcedure.run s = (runOps (constructProcedure.ops s) s).respond := by
    rw [Procedure.run, hc]
    rfl
  have hcount : pinActions (eventsOf ((pinOrder.take p.id.toNat).map configureOp)) = p.id.toNat := by
    rw [eventsOf_map_configureOp, pinActions_map_cfg, length_take_pinOrder]
  have hrest : (s.ioFault.drop p.id.toNat).tail = rest := by simp [hf]
  rw [hrun, hops, runOps_fails_at rfl _ _ (by rw [hcount, hf]), succeedAll_map_configureOp, length_take_pinOrder,
    ← hrest]
  rfl

/-- Settles O18: the list stops at the configuration of p, and the pins configured before it are those of smaller id. -/
theorem failedConfigurationIsAResourceError : Obligations.FailedConfigurationIsAResourceError := by
  intro s p rest hl hoe hf
  have hexec := exec_of_procedureOf (i := .construct) (p := constructProcedure) rfl s
  rw [run_construct_of_fault hl hf] at hexec
  refine ⟨_, hexec, rfl, rfl, rfl, rfl, rfl, rfl, rfl, rfl, fun q => ?_, rfl, rfl, rfl, rfl⟩
  rw [raiseResource_oe, enables_map_cfg, hoe, Lines.get_all, Bool.or_false, decide_eq_decide]
  exact mem_take_pinOrder p q

end Sys2Proof.Machine

/-! PROOFS. A fatal error is for good and there is no second one (60_exceptions.md R199, R205); with sound pins there is
none at all (60_exceptions.md R206). -/

namespace Sys2Proof.Machine

/-! ### After a fatal error -/

theorem faulted_mem_admittedIn {i : Instr} : Life.faulted ∈ admittedIn i ↔ i = .release := by
  cases i <;> simp [admittedIn]

theorem released_not_mem_admittedIn (i : Instr) : Life.released ∉ admittedIn i := by
  cases i <;> simp [admittedIn]

/-- The recorded error is kept, and at most one thing happens: a `RELEASE` in Faulted (60_exceptions.md R199). -/
def KeepsFatalError (s t : State) : Prop :=
  t.fkind = s.fkind ∧ t.fpin = s.fpin ∧
    ((t.life = s.life ∧ t.tr = s.tr) ∨ (s.life = .faulted ∧ t.life = .released ∧ t.tr = s.tr ++ [.rel]))

theorem KeepsFatalError.of_eq {s t : State} (hfkind : t.fkind = s.fkind) (hfpin : t.fpin = s.fpin)
    (hlife : t.life = s.life) (htr : t.tr = s.tr) : KeepsFatalError s t :=
  ⟨hfkind, hfpin, .inl ⟨hlife, htr⟩⟩

theorem KeepsFatalError.trans {s u t : State} (hsu : KeepsFatalError s u) (hut : KeepsFatalError u t) :
    KeepsFatalError s t := by
  obtain ⟨hk, hp, hsu⟩ := hsu
  obtain ⟨hk', hp', hut⟩ := hut
  refine ⟨hk'.trans hk, hp'.trans hp, ?_⟩
  rcases hsu with ⟨hl, htr⟩ | ⟨hf, hr, htr⟩
  · rwa [hl, htr] at hut
  · rcases hut with ⟨hl', htr'⟩ | ⟨hf', -, -⟩
    · exact .inr ⟨hf, hl'.trans hr, htr'.trans htr⟩
    · cases hr.symm.trans hf'

/-- A command that meets a recorded error is a `RELEASE` in Faulted, or is answered BAD_STATE. -/
theorem run_keepsFatalError {i : Instr} {p : Procedure} (hp : procedureOf i = some p) {s : State}
    (hl : s.life = .faulted ∨ s.life = .released) : KeepsFatalError s (p.run s) := by
  by_cases hadm : s.life ∈ admittedIn i
  · rcases hl with hl | hl
    · rw [hl, faulted_mem_admittedIn] at hadm
      subst hadm
      cases hp
      rw [run_release_of_check (admitIn_eq_none.2 (mem_admittedIn_release.2 (.inr (.inr hl))))]
      exact ⟨rfl, rfl, .inr ⟨hl, rfl, rfl⟩⟩
    · rw [hl] at hadm
      exact absurd hadm (released_not_mem_admittedIn i)
  · rw [run_of_check (check_of_not_admitted hp hadm)]
    exact .of_eq rfl rfl rfl rfl

/-- One step without a reset after a fatal error: a command that is no `RELEASE` and an LCD-bus instruction find the
block in a lifecycle value in which they are not admitted (60_exceptions.md R194, R199). -/
theorem step_keepsFatalError {s t : State} (h : IdleInv s) (hne : s.fkind ≠ .none)
    (hr : ∀ rest, s.inputs ≠ .reset :: rest) (hst : step s = .next t) : KeepsFatalError s t := by
  have hl : s.life = .faulted ∨ s.life = .released := h.faultKnown.2 hne
  rcases step_idle_cases h.idle.1 hst with ⟨rest, hi, -⟩ | ⟨-, rfl⟩ | ⟨c, rest, -, rfl⟩ |
    ⟨c, rest, i, p, -, -, hp, rfl⟩ | ⟨w, rest, -, rfl⟩
  · exact absurd hi (hr rest)
  · exact .of_eq rfl rfl rfl rfl
  · exact .of_eq rfl rfl rfl rfl
  · exact run_keepsFatalError (s := State.accept c { s with inputs := rest }) hp hl
  · have hcleared : s.life ≠ .cleared := by rcases hl with hl | hl <;> rw [hl] <;> nofun
    rw [transmitAlone_of_not_cleared (s := { s with inputs := rest, rspValid := false }) hcleared]
    exact .of_eq rfl rfl rfl rfl

theorem run_inputs {i : Instr} {p : Procedure} (hp : procedureOf i = some p) (s : State) :
    (p.run s).inputs = s.inputs := by
  obtain ⟨-, hin, -⟩ := instructionFrames i s _ (exec_of_procedureOf hp s)
  exact hin

/-- A step of an idle block takes what stands first on the port. -/
theorem step_inputs {s t : State} (hb : s.busy = false) (hst : step s = .next t) : t.inputs = s.inputs.tail := by
  rcases step_idle_cases hb hst with ⟨rest, hi, rfl⟩ | ⟨hi, rfl⟩ | ⟨c, rest, hi, rfl⟩ |
    ⟨c, rest, i, p, hi, -, hp, rfl⟩ | ⟨w, rest, hi, rfl⟩
  all_goals rw [hi]
  · rfl
  · exact hi
  · rfl
  · exact run_inputs hp _
  · exact (shape_transmitAlone _ _ _).inputs

/-- Any number of steps without a reset after a fatal error. -/
theorem runSteps_keepsFatalError (k : Nat) {s : State} (h : IdleInv s) (hne : s.fkind ≠ .none)
    (hr : ∀ x ∈ s.inputs, x ≠ .reset) : KeepsFatalError s (runSteps k s) := by
  induction k generalizing s with
  | zero => exact .of_eq rfl rfl rfl rfl
  | succ k ih =>
    obtain ⟨t, hst⟩ := step_answers s
    have hkeep : KeepsFatalError s t :=
      step_keepsFatalError h hne (fun rest hi => hr .reset (by simp [hi]) rfl) hst
    have hrest : ∀ x ∈ t.inputs, x ≠ .reset := by
      rw [step_inputs h.idle.1 hst]
      exact fun x hx => hr x (List.mem_of_mem_tail hx)
    rw [runSteps, hst]
    exact hkeep.trans (ih (h.step hst) (by rwa [hkeep.1]) hrest)

/-- Settles O38: each step keeps the error and the trace but for one `RELEASE`, which ends in Released. -/
theorem aFatalErrorIsForGood : Obligations.AFatalErrorIsForGood :=
  ⟨fun k _ h hne hr => runSteps_keepsFatalError k h hne hr, fun _ _ _ => faulted_mem_admittedIn⟩

/-! ### The first fatal error -/

/-- `FKIND` and `FPIN` hold the fatal error that the response answers (60_exceptions.md R197, R198). -/
def RecordsItsError (t : State) : Prop :=
  t.fkind.code = t.rspStatus.code ∧ t.fpin.id = t.rspCause ∧ t.life = .faulted ∧ t.busy = false

theorem Op.fail_recordsItsError {op : Op} (hpin : op.prim.event.isPinAction = true) {s : State}
    (hf : s.fkind = .none) : RecordsItsError (op.fail s) := by
  suffices hrec : (op.fail s).fkind.code = (op.fail s).rspStatus.code ∧ (op.fail s).fpin.id = (op.fail s).rspCause from
    ⟨hrec.1, hrec.2, raise_life _ _, raise_busy _ _⟩
  cases hprim : op.prim with
  | configure p =>
    obtain ⟨hstatus, hcause, hfkind, hfpin⟩ := Op.fail_of_configure hprim s
    rw [hstatus, hcause, hfkind, hfpin]
    exact ⟨rfl, rfl⟩
  | write p v =>
    obtain ⟨hstatus, hcause, hrecord⟩ := Op.fail_of_write hprim s
    obtain ⟨hfkind, hfpin⟩ := hrecord hf
    rw [hstatus, hcause, hfkind, hfpin]
    exact ⟨rfl, rfl⟩
  | wait n | releaseAll =>
    rw [hprim] at hpin
    cases hpin

/-- After a fatal error no admitted command performs an action that can fail. -/
theorem Lawful.no_error_of_pinAction {i : Instr} {p : Procedure} (hp : procedureOf i = some p) {s : State}
    (h : Lawful s) (hc : p.check s = none) {done rest : List Op} {op : Op}
    (hops : p.ops (p.setup s) = done ++ op :: rest) (hpin : op.prim.event.isPinAction = true) : s.fkind = .none := by
  by_contra hne
  have hadm := admitted_of_check hp hc
  rcases h.faultKnown.2 hne with hl | hl
  · rw [hl, faulted_mem_admittedIn] at hadm
    subst hadm
    cases hp
    exact nomatch (isPinAction_of_release hops).symm.trans hpin
  · rw [hl] at hadm
    exact released_not_mem_admittedIn i hadm

theorem run_recordsItsError {i : Instr} {p : Procedure} (hp : procedureOf i = some p) {s : State} (h : Lawful s)
    (hfatal : (p.run s).rspStatus = .transmission ∨ (p.run s).rspStatus = .resource) :
    s.fkind = .none ∧ RecordsItsError (p.run s) := by
  rcases run_cases p s with ⟨cause, -, he⟩ | ⟨-, he⟩ | ⟨hc, done, op, rest, hops, hpin, -, he⟩
  · rw [he] at hfatal
    rcases hfatal with hstatus | hstatus <;> cases hstatus
  · rw [he] at hfatal
    rcases hfatal with hstatus | hstatus <;> cases hstatus
  · have hf : s.fkind = .none := h.no_error_of_pinAction hp hc hops hpin
    obtain ⟨_, _, hset⟩ := setup_eq hp s
    rw [he]
    exact ⟨hf, Op.fail_recordsItsError hpin (by rw [succeedAll_fkind, hset, hf])⟩

/-- A `Transmit` by itself pulses `RSP_VALID` only for a fatal error (log 3). -/
theorem transmitAlone_recordsItsError {s : State} (h : Lawful s) (hquiet : s.rspValid = false) {b : Byte} {m : Mode}
    (hv : (transmitAlone b m s).rspValid = true) : s.fkind = .none ∧ RecordsItsError (transmitAlone b m s) := by
  rcases transmitAlone_cases b m s with ⟨-, he⟩ | ⟨-, he⟩ | ⟨hl, done, op, rest, -, hpin, -, he⟩
  · rw [he, hquiet] at hv
    cases hv
  · rw [he, succeedAll_transmitOps] at hv
    cases hquiet.symm.trans hv
  · have hf : s.fkind = .none := h.no_error (by simp [hl]) (by simp [hl])
    rw [he]
    exact ⟨hf, Op.fail_recordsItsError hpin (by rw [succeedAll_fkind, hf])⟩

/-- A step that answers a fatal error finds none recorded and records it (60_exceptions.md R205). -/
theorem step_recordsItsError {s t : State} (h : IdleInv s) (hst : step s = .next t) (hv : t.rspValid = true)
    (hfatal : t.rspStatus = .transmission ∨ t.rspStatus = .resource) : s.fkind = .none ∧ RecordsItsError t := by
  obtain ⟨-, -, hlaw⟩ := idleInv_iff.1 h
  rcases step_idle_cases h.idle.1 hst with ⟨rest, -, rfl⟩ | ⟨-, rfl⟩ | ⟨c, rest, -, rfl⟩ |
    ⟨c, rest, i, p, -, -, hp, rfl⟩ | ⟨w, rest, -, rfl⟩
  · cases hv
  · cases hv
  · rcases hfatal with hstatus | hstatus <;> cases hstatus
  · exact run_recordsItsError (s := State.accept c { s with inputs := rest }) hp
      (hlaw.congr rfl rfl rfl rfl rfl rfl) hfatal
  · exact transmitAlone_recordsItsError (s := { s with inputs := rest, rspValid := false })
      (hlaw.congr rfl rfl rfl rfl rfl rfl) rfl hv

/-- Settles O39: in front of a fatal answer nothing is recorded, and after one the trace grows by a `Rel` at most. -/
theorem noSecondFatalError : Obligations.NoSecondFatalError := by
  refine fun s t h hst => ⟨fun hv hfatal => step_recordsItsError h hst hv hfatal, fun hne hr => ?_⟩
  obtain ⟨-, -, ⟨-, htr⟩ | ⟨-, -, htr⟩⟩ := step_keepsFatalError h hne hr hst
  · exact ⟨[], by simp [htr], rfl⟩
  · exact ⟨[.rel], htr, rfl⟩

/-! ### Sound pins -/

/-- No error recorded, no `raise` to come, and `io_fault` is 0 from here on (60_exceptions.md R206; log 14). -/
def Faultless (s : State) : Prop := SoundPins s ∧ s.fkind = .none ∧ s.raising = none

theorem Faultless.congr {s t : State} (h : Faultless s) (hio : t.ioFault = s.ioFault) (hfkind : t.fkind = s.fkind)
    (hraising : t.raising = s.raising) : Faultless t := by
  unfold Faultless SoundPins
  rwa [hio, hfkind, hraising]

theorem Faultless.succeedAll {s : State} (h : Faultless s) (ops : List Op) : Faultless (succeedAll ops s) := by
  obtain ⟨hsound, hfkind, hraising⟩ := h
  rw [succeedAll_eq]
  exact ⟨fun f hf => hsound f (List.mem_of_mem_drop hf), hfkind, hraising⟩

/-- A list of actions, answered: all succeed. -/
theorem Faultless.respond {s : State} (h : Faultless s) (ops : List Op) : Faultless (runOps ops s).respond := by
  rw [runOps_sound ops s h.1]
  exact (h.succeedAll ops).congr rfl rfl rfl

theorem Faultless.run {i : Instr} {p : Procedure} (hp : procedureOf i = some p) {s : State} (h : Faultless s) :
    Faultless (p.run s) := by
  cases hc : p.check s with
  | some cause =>
    rw [run_of_check hc]
    exact h.congr rfl rfl rfl
  | none =>
    obtain ⟨_, _, hset⟩ := setup_eq hp s
    have hu : Faultless (p.setup s) := by
      rw [hset]
      exact h.congr rfl rfl rfl
    rw [Procedure.run, hc]
    exact hu.respond _

theorem Faultless.transmitAlone {s : State} (h : Faultless s) (b : Byte) (m : Mode) :
    Faultless (transmitAlone b m s) := by
  by_cases hl : s.life = .cleared
  · rw [transmitAlone_of_sound hl h.1]
    exact h.succeedAll _
  · rwa [transmitAlone_of_not_cleared hl]

theorem Faultless.finish {s t : State} (h : Faultless s) (hf : s.finish = .next t) : Faultless t := by
  rcases finish_cases s with ⟨r, hr, -⟩ | he | ⟨i, p, hp, he | he⟩
  · cases h.2.2.symm.trans hr
  · cases he.symm.trans hf
    exact h.congr rfl rfl rfl
  · cases he.symm.trans hf
    exact h.run hp
  · cases he.symm.trans hf
    exact Faultless.respond (s := { s with dly := 0 }) (h.congr rfl rfl rfl) _

theorem Faultless.step {s t : State} (h : Faultless s) (hst : step s = .next t) : Faultless t := by
  by_cases hreset : ∃ rest, s.inputs = .reset :: rest
  · obtain ⟨rest, hi⟩ := hreset
    cases (step_reset hi).symm.trans hst
    exact ⟨h.1, rfl, rfl⟩
  cases hb : s.busy with
  | true => exact h.finish ((step_busy hb fun rest hi => hreset ⟨rest, hi⟩).symm.trans hst)
  | false =>
    rcases step_idle_cases hb hst with ⟨rest, hi, -⟩ | ⟨-, rfl⟩ | ⟨c, rest, -, rfl⟩ |
      ⟨c, rest, i, p, -, -, hp, rfl⟩ | ⟨w, rest, -, rfl⟩
    · exact absurd ⟨rest, hi⟩ hreset
    · exact h.congr rfl rfl rfl
    · exact h.congr rfl rfl h.2.2.symm
    · exact Faultless.run (s := State.accept c { s with inputs := rest }) hp (h.congr rfl rfl h.2.2.symm)
    · exact Faultless.transmitAlone (s := { s with inputs := rest, rspValid := false }) (h.congr rfl rfl rfl) _ _

/-- Settles O40: without `io_fault` every action of a step succeeds, so no `raise` is made and none is left to come. -/
theorem soundPinsMeetNoFatalError : Obligations.SoundPinsMeetNoFatalError :=
  fun _ _ hsound hfkind hraising hst => Faultless.step ⟨hsound, hfkind, hraising⟩ hst

end Sys2Proof.Machine

/-! PROOFS. `io_fault` in a tick that performs no pin action (60_exceptions.md R201, R206). -/

namespace Sys2Proof.Machine

/-- Going from s by f appends no event of a pin action: the hypothesis of IoFaultMattersOnlyAtPinActions, for one part f
of a tick. -/
def NoPinAction (f : State → State) (s : State) : Prop := ∀ e, (f s).tr = s.tr ++ [e] → e.isPinAction = false

theorem Event.isPinAction_failed (e : Event) : e.failed.isPinAction = e.isPinAction := by cases e <;> rfl

/-- The tick of a pin action appends its event, failed or not (41_transmit.md R115, R116). -/
theorem Op.tick_appends_pinAction {op : Op} (hpin : op.prim.event.isPinAction = true) (s : State) :
    ∃ e, (op.tick s).tr = s.tr ++ [e] ∧ e.isPinAction = true := by
  have hnw : ∀ n, op.prim ≠ .wait n := fun n hn => by
    rw [hn] at hpin
    cases hpin
  rw [Op.tick_of_not_wait hnw, Op.held_perform]
  split_ifs
  · obtain ⟨pin, draws, hc⟩ := Op.cut_eq hpin s
    exact ⟨op.prim.event.failed, by rw [hc], by rw [Event.isPinAction_failed, hpin]⟩
  · exact ⟨op.prim.event, rfl, hpin⟩

/-- A wait and a release do not sample `io_fault`. -/
theorem Op.tick_withFaults {op : Op} {s : State} (h : NoPinAction op.tick s) (fs : List Bool) :
    op.tick (s.withFaults fs) = (op.tick s).withFaults fs := by
  have hno : op.prim.event.isPinAction ≠ true := fun hpin => by
    obtain ⟨e, he, hep⟩ := Op.tick_appends_pinAction hpin s
    cases (h e he).symm.trans hep
  by_cases hw : ∃ n, op.prim = .wait n
  · obtain ⟨n, hn⟩ := hw
    have ht (u : State) : op.tick u = u.tickWait n op := by simp only [Op.tick, hn]
    have hdly : (s.withFaults fs).dly = s.dly := rfl
    simp only [ht, State.tickWait_eq, hdly]
    split_ifs <;> rfl
  · have ht (u : State) : op.tick u = op.succeed u := by
      rw [Op.tick_of_not_wait fun n hn => hw ⟨n, hn⟩, Op.held_perform, if_neg (by simp [hno])]
    have hcount : pinActions [op.prim.event] = 0 := by simp [pinActions, hno]
    rw [ht, ht]
    simp only [Op.succeed, hcount]
    rfl

theorem tickList_withFaults {ops : List Op} {s : State} (h : NoPinAction (tickList ops) s) (fs : List Bool) :
    tickList ops (s.withFaults fs) = (tickList ops s).withFaults fs := by
  have hseq : (s.withFaults fs).seq = s.seq := rfl
  unfold NoPinAction tickList at h
  unfold tickList
  rw [hseq]
  cases hop : ops[s.seq]? with
  | none => rfl
  | some op =>
    rw [hop] at h
    exact Op.tick_withFaults h fs

theorem Procedure.tick_withFaults {i : Instr} {p : Procedure} (hp : procedureOf i = some p) {s : State}
    (h : NoPinAction p.tick s) (fs : List Bool) : p.tick (s.withFaults fs) = (p.tick s).withFaults fs := by
  have hops (u : State) : p.ops (u.withFaults fs) = p.ops u := ops_congr hp ⟨_, rfl, rfl⟩
  have hseq : (s.withFaults fs).seq = s.seq := rfl
  unfold NoPinAction Procedure.tick at h
  unfold Procedure.tick
  rw [hseq, check_withFaults hp, setup_withFaults hp, hops, hops]
  split_ifs at h ⊢ with h0
  · cases hc : p.check s with
    | some cause => rfl
    | none =>
      obtain ⟨_, _, hset⟩ := setup_eq hp s
      have htr : s.tr = (p.setup s).tr := by rw [hset]
      rw [hc, htr] at h
      exact tickList_withFaults h fs
  · exact tickList_withFaults h fs

theorem tickCommand_withFaults {s : State} (h : NoPinAction State.tickCommand s) (fs : List Bool) :
    (s.withFaults fs).tickCommand = s.tickCommand.withFaults fs := by
  cases hw : decodeHost s.cmdl.word with
  | error e =>
    rw [tickCommand_of_error hw, tickCommand_of_error (s := s.withFaults fs) hw]
    rfl
  | ok i =>
    obtain ⟨p, hp⟩ := procedureOf_of_decodeHost hw
    rw [NoPinAction, tickCommand_of_ok hw hp] at h
    rw [tickCommand_of_ok hw hp, tickCommand_of_ok (s := s.withFaults fs) hw hp]
    exact Procedure.tick_withFaults hp h fs

theorem raise_withFaults (r : Raise) (s : State) (fs : List Bool) :
    (s.withFaults fs).raise r = (s.raise r).withFaults fs := by
  cases r <;> rfl

theorem tickBusy_withFaults {s : State} (h : NoPinAction State.tickBusy s) (fs : List Bool) :
    (s.withFaults fs).tickBusy = s.tickBusy.withFaults fs := by
  cases hr : s.raising with
  | none =>
    rw [NoPinAction, tickBusy_of_none hr] at h
    rw [tickBusy_of_none hr, tickBusy_of_none (s := s.withFaults fs) hr]
    exact tickCommand_withFaults h fs
  | some r =>
    rw [tickBusy_of_some hr, tickBusy_of_some (s := s.withFaults fs) hr]
    exact raise_withFaults r { s with raising := none } fs

theorem tickIdle_withFaults (v : Bool) (s : State) (fs : List Bool) :
    (s.withFaults fs).tickIdle v = (s.tickIdle v).withFaults fs := by
  unfold State.tickIdle
  have hin : (s.withFaults fs).inputs = s.inputs := rfl
  rw [hin]
  split <;> rfl

/-- Settles O48: of all that a tick can do, only a pin action samples `io_fault`, and it leaves its event. -/
theorem ioFaultMattersOnlyAtPinActions : Obligations.IoFaultMattersOnlyAtPinActions := by
  intro s v fs h
  change tick false v (s.withFaults fs) = (tick false v s).withFaults fs
  have hbusy : (s.withFaults fs).busy = s.busy := rfl
  cases hb : s.busy with
  | true =>
    rw [tick_busy hb] at h
    rw [tick_busy hb, tick_busy (hbusy.trans hb)]
    exact tickBusy_withFaults h fs
  | false =>
    rw [tick_idle hb, tick_idle (hbusy.trans hb)]
    exact tickIdle_withFaults v s fs

end Sys2Proof.Machine

/-! PROOFS. Reset in a step and in a tick (70_reset_and_hazards.md R221; 10_state.md R38). -/

namespace Sys2Proof.Machine

/-- Settles O35: a reset step and a reset tick are both `State.blockReset`, which keeps only what is not the block's. -/
theorem resetWinsOverEverything : Obligations.ResetWinsOverEverything := by
  intro s rest cmdValid hi
  obtain ⟨-, -, hpack, -⟩ := packedConfiguration
  exact ⟨_, step_reset hi, rfl, hpack, rfl, rfl, rfl, rfl, rfl, rfl, rfl, rfl, rfl, rfl, rfl, rfl, rfl, rfl, rfl⟩

end Sys2Proof.Machine

/-! PROOFS. The durations of a `Transmit` and of every command (70_reset_and_hazards.md R240 to R242). -/

namespace Sys2Proof.Machine

/-! ### The falls of `E` in a `Transmit` (70_reset_and_hazards.md R241) -/

@[simp] theorem duration_nil : duration [] = 0 := rfl

/-- What a nibble phase appends before its fall of `E` (41_transmit.md R119 to R121). -/
def beforeFallEvents (n : Nibble) : List Event :=
  presentEvents n ++ [.z Config.eDelay, .w .e true, .z Config.ePulse]

/-- A nibble phase has one fall of `E`, with one `E_DELAY` after it. -/
theorem presentEvents_append_pulseEvents (n : Nibble) :
    presentEvents n ++ pulseEvents = beforeFallEvents n ++ [.w .e false, .z Config.eDelay] := by
  rw [beforeFallEvents, List.append_assoc]
  rfl

theorem fall_notMem_beforeFallEvents (n : Nibble) : Event.w .e false ∉ beforeFallEvents n := by
  have hset (p : Pin) (b : Bool) : Event.w .e false ∉ setLineEvents p b := by cases b <;> simp [setLineEvents]
  simp [beforeFallEvents, presentEvents, hset]

@[simp] theorem duration_beforeFallEvents (n : Nibble) :
    duration (beforeFallEvents n) = 5 + popcount4 n + Config.eDelay + Config.ePulse := by
  have hrise : duration [.z Config.eDelay, .w .e true, .z Config.ePulse] = Config.eDelay + (1 + Config.ePulse) := rfl
  rw [beforeFallEvents, duration_append, duration_presentEvents, hrise]
  omega

/-- A `Transmit` cut at its two falls of `E`. -/
theorem transmitEvents_eq_falls (b : Byte) (m : Mode) :
    transmitEvents b m = (.w .rs (rsLevel m) :: beforeFallEvents (hiNibble b)) ++
      .w .e false :: ((.z Config.eDelay :: beforeFallEvents (loNibble b)) ++ .w .e false :: [.z Config.eDelay]) := by
  simp [transmitEvents, presentEvents_append_pulseEvents]

theorem popcount_and_0xF (b : Byte) : popcount (b &&& 0xF#8) = popcount4 (loNibble b) := by
  simp [popcount, popcount4, loNibble]

theorem popcount_shiftRight_4 (b : Byte) : popcount (b >>> 4) = popcount4 (hiNibble b) := by
  simp [popcount, popcount4, hiNibble]

/-- Settles O49: cut at its falls of `E`, a `Transmit` has one nibble phase before each and one `E_DELAY` after. -/
theorem transmitTiming : Obligations.TransmitTiming := by
  intro b m
  have hlead (b : Byte) (m : Mode) : Event.w .e false ∉ .w .rs (rsLevel m) :: beforeFallEvents (hiNibble b) := by
    simp [fall_notMem_beforeFallEvents]
  refine ⟨duration_transmitEvents b m, _, _, _, transmitEvents_eq_falls b m, ?_, ?_, fun b' m' =>
    ⟨_, _, transmitEvents_eq_falls b' m', hlead b' m', ?_⟩⟩
  · simp [hlead, fall_notMem_beforeFallEvents]
  · simp only [duration_append, duration_cons, duration_nil, duration_beforeFallEvents, popcount_and_0xF, Event.ticks]
    omega
  · simp only [duration_append, duration_cons, duration_nil, duration_beforeFallEvents, popcount_shiftRight_4,
      Event.ticks]
    omega

/-! ### The durations of the lists of actions (70_reset_and_hazards.md R242) -/

/-- `T(b)` of 70_reset_and_hazards.md R242. -/
def transmitTicks (b : Byte) : Nat := 13 + popcount b + 4 * Config.eDelay + 2 * Config.ePulse

theorem duration_eventsOf_transmitOps (b : Byte) (m : Mode) :
    duration (eventsOf (transmitOps b m)) = transmitTicks b := by
  rw [eventsOf_transmitOps, duration_transmitEvents, transmitTicks]

theorem duration_flatMap_transmitEvents (m : Mode) (bs : List Byte) :
    duration (bs.flatMap fun b => transmitEvents b m) = (bs.map transmitTicks).sum := by
  induction bs with
  | nil => rfl
  | cons b bs ih =>
    rw [List.flatMap_cons, duration_append, ih, duration_transmitEvents, List.map_cons, List.sum_cons, transmitTicks]

theorem sum_transmitTicks (bs : List Byte) : (bs.map transmitTicks).sum =
    bs.length * (13 + 4 * Config.eDelay + 2 * Config.ePulse) + (bs.map popcount).sum := by
  induction bs with
  | nil => exact (Nat.zero_mul _).symm
  | cons b bs ih =>
    simp only [List.map_cons, List.sum_cons, List.length_cons, ih, transmitTicks, Nat.add_mul]
    omega

/-- The row of `CONSTRUCT`: seven configurations, six bytes, the settling wait and the blink. -/
theorem duration_constructEvents (c : Cfg) : duration (constructEvents c) =
    7 + ((initializerBytes c).map transmitTicks).sum + Config.eDelay + 3 + 2 * Config.blinkDelay := by
  have hclaim : duration configureEvents = 7 := rfl
  simp only [constructEvents, duration_append, duration_flatMap_transmitEvents, hclaim, blinkEvents, duration_cons,
    duration_nil, Event.ticks]
  omega

/-- The row of `RENDER`: the line address and twenty cells. -/
theorem duration_renderEvents (line : Byte) (cells : Row) : duration (renderEvents line cells) =
    273 + popcount line + (cells.toList.map popcount).sum + 84 * Config.eDelay + 42 * Config.ePulse := by
  rw [renderEvents, duration_append, duration_transmitEvents, duration_flatMap_transmitEvents, sum_transmitTicks,
    Vector.length_toList]
  omega

/-- The table of 70_reset_and_hazards.md R242, a row for each command, from the state its list of actions starts in; an
LCD-bus instruction is no command and has none. -/
def commandTicks (i : Instr) (s : State) : Nat :=
  match i with
  | .construct =>
    7 + ((initializerBytes s.cfg).map transmitTicks).sum + Config.eDelay + 3 + 2 * Config.blinkDelay
  | .xmit _ b => transmitTicks b
  | .clear => 14 + 4 * Config.eDelay + 2 * Config.ePulse + Config.clearSettle
  | .home => 14 + 4 * Config.eDelay + 2 * Config.ePulse
  | .setBacklight _ => 1
  | .setCursor _ => transmitTicks (displayControlByte s.cfg)
  | .setBlink _ => transmitTicks (displayControlByte s.cfg)
  | .setDisplay v => transmitTicks (displayControlByte s.cfg) + if v then 0 else 1
  | .render _ line =>
    273 + popcount line + (s.lineBuf.toList.map popcount).sum + 84 * Config.eDelay + 42 * Config.ePulse
  | .release => 1
  | _ => 0

/-- Every command's list of actions takes the ticks of its row. -/
theorem duration_ops {i : Instr} {p : Procedure} (hp : procedureOf i = some p) (s : State) :
    duration (eventsOf (p.ops s)) = commandTicks i s := by
  cases i <;> simp only [procedureOf, Option.some.injEq, reduceCtorEq] at hp <;> subst hp
  case construct => exact (congrArg duration (eventsOf_construct s.cfg)).trans (duration_constructEvents s.cfg)
  case xmit m b => exact duration_eventsOf_transmitOps b m
  case clear =>
    have hlist : eventsOf (clearProcedure.ops s) =
        eventsOf (transmitOps clearByte .command) ++ [.z Config.clearSettle] := eventsOf_append _ _
    have hpop : popcount clearByte = 1 := by decide
    rw [hlist, duration_append, duration_eventsOf_transmitOps, transmitTicks, hpop]
    rfl
  case home => exact duration_eventsOf_transmitOps homeByte .command
  case setBacklight | release => rfl
  case setCursor | setBlink => exact duration_eventsOf_transmitOps _ .command
  case setDisplay v =>
    have hlist : eventsOf ((setDisplayProcedure v).ops s) =
        eventsOf (transmitOps (displayControlByte s.cfg) .command) ++
          eventsOf (if v then [] else [backlightOp false]) := eventsOf_append _ _
    rw [hlist, duration_append, duration_eventsOf_transmitOps]
    cases v <;> rfl
  case render j line => exact (congrArg duration (eventsOf_streamOps line _)).trans (duration_renderEvents line _)

/-! ### What a command appends, by its answer -/

/-- A command that fails validation appends nothing, and one answered OK the events of its whole list
(60_exceptions.md R195, R196). -/
theorem run_appends {i : Instr} {p : Procedure} (hp : procedureOf i = some p) (s : State) :
    ∃ es, (p.run s).tr = s.tr ++ es ∧ ((p.run s).rspStatus = .validation → es = []) ∧
      ((p.run s).rspStatus = .ok → es = eventsOf (p.ops (p.setup s))) := by
  have htr : (p.setup s).tr = s.tr := by
    obtain ⟨_, _, hset⟩ := setup_eq hp s
    rw [hset]
  rcases run_cases p s with ⟨cause, -, he⟩ | ⟨-, he⟩ | ⟨-, done, op, rest, -, hpin, -, he⟩
  · exact ⟨[], by rw [he]; exact (List.append_nil _).symm, fun _ => rfl, fun h => by rw [he] at h; cases h⟩
  · refine ⟨_, ?_, fun h => ?_, fun _ => rfl⟩
    · rw [he, State.respondOk, endCommand_tr, succeedAll_tr, htr]
    · rw [he] at h
      cases h
  · refine ⟨eventsOf done ++ [op.prim.event.failed], ?_, fun h => ?_, fun h => ?_⟩
    · rw [he, Op.fail_tr hpin, succeedAll_tr, htr, List.append_assoc]
    all_goals
      have hfatal := raise_rspStatus op.raises (op.cut (succeedAll done (p.setup s)))
      rw [← Op.fail, ← he, h] at hfatal
      rcases hfatal with hr | hr <;> cases hr

/-- What the actions of a command answered OK leave as its register writes set them: the display-control byte and
`LINEBUF`. -/
theorem run_fields_of_rspStatus_ok {p : Procedure} {s : State} (h : (p.run s).rspStatus = .ok) :
    displayControlByte (p.run s).cfg = displayControlByte (p.setup s).cfg ∧
      (p.run s).lineBuf = (p.setup s).lineBuf := by
  rw [run_of_rspStatus_ok h]
  refine ⟨displayControlByte_succeedAll _ _, ?_⟩
  rw [State.respondOk, endCommand_lineBuf, succeedAll_eq]

/-! ### The table of durations -/

/-- Settles O50: a command answered OK appends the events of its list, so each row is the duration of one list. -/
theorem commandDurations : Obligations.CommandDurations := by
  refine ⟨?_, fun s c rest hb hi hw => ?_, fun i w s t henc hexec => ?_⟩
  · obtain ⟨t, ht, htr, -⟩ := exec_construct_resetWith cfgReset
    have hbytes : initializerBytes cfgReset = [0x33#8, 0x32#8, 0x28#8, 0x0C#8, 0x06#8, 0x01#8] := by decide
    have hpop : ((initializerBytes cfgReset).map popcount).sum = 14 := by decide
    refine ⟨t, ht, ?_, ?_⟩
    · rw [htr, duration_constructEvents, hbytes]
      simp only [List.map_cons, List.map_nil, List.sum_cons, List.sum_nil, transmitTicks]
      omega
    · rw [htr, duration_constructEvents, sum_transmitTicks, hpop, hbytes]
      simp only [List.length_cons, List.length_nil]
      omega
  · exact ⟨_, (step_command hb hi).trans (finish_accept_of_illegal hw _), rfl, rfl⟩
  · obtain ⟨p, hp⟩ := procedureOf_of_decodeHost (decodeHost_of_encode henc)
    cases (exec_of_procedureOf hp s).symm.trans hexec
    obtain ⟨es, htr, hnone, hall⟩ := run_appends hp s
    refine ⟨es, htr, fun h => by rw [hnone h, duration_nil], fun hok => ?_⟩
    obtain ⟨hbyte, hbuf⟩ := run_fields_of_rspStatus_ok hok
    rw [hall hok, duration_ops hp, hbyte, hbuf]
    generalize p.setup s = u
    have hrow {i' : Instr} (hi : i = i') : commandTicks i u = commandTicks i' u := by rw [hi]
    exact ⟨fun _ _ hi => hrow hi, fun hi => hrow hi, fun hi => hrow hi, fun _ hi => hrow hi,
      fun _ hi => hi.elim hrow hrow, fun hi => hrow hi, fun hi => hrow hi, fun _ _ hi => hrow hi, fun hi => hrow hi⟩

end Sys2Proof.Machine
